-- ==== Sys2Proof/Word.lean ====
section
/-!
DEFINITION. The widths of the values this core computes with (spec 00_scope.md R9): bit 0 is the
least significant bit, and every value is unsigned.
-/

namespace Sys2Proof

/-- A 4-bit field: a register selector X or Y, the count N, the family tag F, a key index (R71). -/
abbrev Nibble := BitVec 4

/-- A byte of memory, a V register, a timer, the immediate NN (R9). -/
abbrev Byte := BitVec 8

/-- The 12-bit address immediate NNN (R71). -/
abbrev Addr12 := BitVec 12

/-- A 16-bit value: an instruction word, I, pc, an entry of the call stack (R9). -/
abbrev Word := BitVec 16

end Sys2Proof
end

