-- ==== Sys2Proof/Syntax.lean ====
section
/-!
DEFINITION. The 34 instructions of spec 30_encoding.md R74, one constructor per row of
spec/opcode_table.json, in the table's order. An operand's type is exactly the field it is read
from (R71), so every term is an instruction and no operand value is out of range.
-/

namespace Sys2Proof

/-- The base CHIP-8 instruction set (R2, R74). -/
inductive Instr where
  /-- 00E0, clear-display. -/
  | cls
  /-- 00EE, return. -/
  | ret
  /-- 1NNN, jump. -/
  | jp (nnn : Addr12)
  /-- 2NNN, call. -/
  | call (nnn : Addr12)
  /-- 3XNN, skip-if-equal-immediate. -/
  | seImm (x : Nibble) (nn : Byte)
  /-- 4XNN, skip-if-not-equal-immediate. -/
  | sneImm (x : Nibble) (nn : Byte)
  /-- 5XY0, skip-if-registers-equal. -/
  | seReg (x y : Nibble)
  /-- 6XNN, load-immediate. -/
  | ldImm (x : Nibble) (nn : Byte)
  /-- 7XNN, add-immediate. -/
  | addImm (x : Nibble) (nn : Byte)
  /-- 8XY0, ALU assign. -/
  | ldReg (x y : Nibble)
  /-- 8XY1, ALU OR. -/
  | orReg (x y : Nibble)
  /-- 8XY2, ALU AND. -/
  | andReg (x y : Nibble)
  /-- 8XY3, ALU XOR. -/
  | xorReg (x y : Nibble)
  /-- 8XY4, ALU add. -/
  | addReg (x y : Nibble)
  /-- 8XY5, ALU subtract. -/
  | subReg (x y : Nibble)
  /-- 8XY6, ALU shift-right; y is the don't-care field (R80), kept so that no bit is dropped. -/
  | shr (x y : Nibble)
  /-- 8XY7, ALU reverse-subtract. -/
  | subnReg (x y : Nibble)
  /-- 8XYE, ALU shift-left; y is the don't-care field (R80), kept so that no bit is dropped. -/
  | shl (x y : Nibble)
  /-- 9XY0, skip-if-registers-not-equal. -/
  | sneReg (x y : Nibble)
  /-- ANNN, set-index. -/
  | ldI (nnn : Addr12)
  /-- BNNN, jump-with-offset. -/
  | jpV0 (nnn : Addr12)
  /-- CXNN, random-and. -/
  | rnd (x : Nibble) (nn : Byte)
  /-- DXYN, draw-sprite. -/
  | drw (x y n : Nibble)
  /-- EX9E, skip-if-key-pressed. -/
  | skp (x : Nibble)
  /-- EXA1, skip-if-key-not-pressed. -/
  | sknp (x : Nibble)
  /-- FX07, get-delay-timer. -/
  | ldVxDt (x : Nibble)
  /-- FX0A, wait-for-key. -/
  | ldVxK (x : Nibble)
  /-- FX15, set-delay-timer. -/
  | ldDtVx (x : Nibble)
  /-- FX18, set-sound-timer. -/
  | ldStVx (x : Nibble)
  /-- FX1E, add-to-index. -/
  | addIVx (x : Nibble)
  /-- FX29, set-index-to-font-glyph. -/
  | ldFVx (x : Nibble)
  /-- FX33, store-bcd. -/
  | ldBVx (x : Nibble)
  /-- FX55, store-registers-block. -/
  | storeRegs (x : Nibble)
  /-- FX65, load-registers-block. -/
  | loadRegs (x : Nibble)
deriving DecidableEq, Repr

end Sys2Proof
end

