-- ==== Sys2Proof/WellFormed.lean ====
section
/-!
DEFINITION. Which words are instructions (spec 30_encoding.md R74, R76): the opcode map as data, one
row per instruction. An `Instr` needs no further check: its operand types are the fields themselves.
What can be ill formed is a WORD, and `wellFormedWord` refuses it.
-/

namespace Sys2Proof

/-- One row of the opcode map: the value of the fixed bits and which bits are fixed (R74). -/
structure Row where
  pattern : Word
  mask : Word
deriving DecidableEq, Repr

/-- "A word w selects row r exactly when `(w & mask_r) = match_r`" (R74). -/
def Row.selects (r : Row) (w : Word) : Bool := w &&& r.mask == r.pattern

/-- The row of an instruction (R74). -/
def Instr.row : Instr → Row
  | .cls => ⟨0x00E0, 0xFFFF⟩
  | .ret => ⟨0x00EE, 0xFFFF⟩
  | .jp _ => ⟨0x1000, 0xF000⟩
  | .call _ => ⟨0x2000, 0xF000⟩
  | .seImm _ _ => ⟨0x3000, 0xF000⟩
  | .sneImm _ _ => ⟨0x4000, 0xF000⟩
  | .seReg _ _ => ⟨0x5000, 0xF00F⟩
  | .ldImm _ _ => ⟨0x6000, 0xF000⟩
  | .addImm _ _ => ⟨0x7000, 0xF000⟩
  | .ldReg _ _ => ⟨0x8000, 0xF00F⟩
  | .orReg _ _ => ⟨0x8001, 0xF00F⟩
  | .andReg _ _ => ⟨0x8002, 0xF00F⟩
  | .xorReg _ _ => ⟨0x8003, 0xF00F⟩
  | .addReg _ _ => ⟨0x8004, 0xF00F⟩
  | .subReg _ _ => ⟨0x8005, 0xF00F⟩
  | .shr _ _ => ⟨0x8006, 0xF00F⟩
  | .subnReg _ _ => ⟨0x8007, 0xF00F⟩
  | .shl _ _ => ⟨0x800E, 0xF00F⟩
  | .sneReg _ _ => ⟨0x9000, 0xF00F⟩
  | .ldI _ => ⟨0xA000, 0xF000⟩
  | .jpV0 _ => ⟨0xB000, 0xF000⟩
  | .rnd _ _ => ⟨0xC000, 0xF000⟩
  | .drw _ _ _ => ⟨0xD000, 0xF000⟩
  | .skp _ => ⟨0xE09E, 0xF0FF⟩
  | .sknp _ => ⟨0xE0A1, 0xF0FF⟩
  | .ldVxDt _ => ⟨0xF007, 0xF0FF⟩
  | .ldVxK _ => ⟨0xF00A, 0xF0FF⟩
  | .ldDtVx _ => ⟨0xF015, 0xF0FF⟩
  | .ldStVx _ => ⟨0xF018, 0xF0FF⟩
  | .addIVx _ => ⟨0xF01E, 0xF0FF⟩
  | .ldFVx _ => ⟨0xF029, 0xF0FF⟩
  | .ldBVx _ => ⟨0xF033, 0xF0FF⟩
  | .storeRegs _ => ⟨0xF055, 0xF0FF⟩
  | .loadRegs _ => ⟨0xF065, 0xF0FF⟩

/-- The whole opcode map, in the order of R74. -/
def opcodeTable : List Row :=
  [⟨0x00E0, 0xFFFF⟩,
   ⟨0x00EE, 0xFFFF⟩,
   ⟨0x1000, 0xF000⟩,
   ⟨0x2000, 0xF000⟩,
   ⟨0x3000, 0xF000⟩,
   ⟨0x4000, 0xF000⟩,
   ⟨0x5000, 0xF00F⟩,
   ⟨0x6000, 0xF000⟩,
   ⟨0x7000, 0xF000⟩,
   ⟨0x8000, 0xF00F⟩,
   ⟨0x8001, 0xF00F⟩,
   ⟨0x8002, 0xF00F⟩] ++
  [⟨0x8003, 0xF00F⟩,
   ⟨0x8004, 0xF00F⟩,
   ⟨0x8005, 0xF00F⟩,
   ⟨0x8006, 0xF00F⟩,
   ⟨0x8007, 0xF00F⟩,
   ⟨0x800E, 0xF00F⟩,
   ⟨0x9000, 0xF00F⟩,
   ⟨0xA000, 0xF000⟩,
   ⟨0xB000, 0xF000⟩,
   ⟨0xC000, 0xF000⟩,
   ⟨0xD000, 0xF000⟩,
   ⟨0xE09E, 0xF0FF⟩] ++
  [⟨0xE0A1, 0xF0FF⟩,
   ⟨0xF007, 0xF0FF⟩,
   ⟨0xF00A, 0xF0FF⟩,
   ⟨0xF015, 0xF0FF⟩,
   ⟨0xF018, 0xF0FF⟩,
   ⟨0xF01E, 0xF0FF⟩,
   ⟨0xF029, 0xF0FF⟩,
   ⟨0xF033, 0xF0FF⟩,
   ⟨0xF055, 0xF0FF⟩,
   ⟨0xF065, 0xF0FF⟩]

/-- A word is well formed when it matches a row of R74, and invalid otherwise (R76). -/
def wellFormedWord (w : Word) : Bool := opcodeTable.any (·.selects w)

end Sys2Proof
end

