-- ==== Sys2Proof/Config.lean ====
section
/-!
DEFINITION. What an implementation fixes (spec 00_scope.md R7): the record of the parameters, the events,
and what the spec leaves free: the random byte and the sequence of events. No operation has a parameter's
value in it: the machine carries its parameters in State, and their DEFAULTS stand in
Sys2Proof/Machine/Params.lean.
-/

namespace Sys2Proof.Config

/-- NUM_V: number of general registers; no parameter to vary, since the 4-bit selectors fix it (R7, R21,
92_eei_decisions.md D6). -/
abbrev numV : Nat := 16

/-- NUM_KEYS: number of keypad flags, fixed as NUM_V is (R7, R31, 92_eei_decisions.md D6). -/
abbrev numKeys : Nat := 16

/-- FLAG_ORDER: which of the two writes of a flag-setting ALU operation comes last (R162). -/
inductive FlagOrder where
  | flagLast
  | resultLast
deriving DecidableEq, Repr

/-- DRAW_VF_ORDER: whether DXYN reads its coordinates after or before it clears VF (R201). -/
inductive DrawVfOrder where
  | clearFirst
  | readFirst
deriving DecidableEq, Repr

/-- BLOCK_I_MODE: whether FX55 and FX65 leave I alone or add X + 1 to it (R254, R255). -/
inductive BlockIMode where
  | unchanged
  | advanceXPlus1
deriving DecidableEq, Repr

/-- RESERVED_WRITE: whether a store that meets the reserved region is performed or faults (R56). -/
inductive ReservedWrite where
  | perform
  | fault
deriving DecidableEq, Repr

/-- RATE_BOUNDS: the least and greatest number of CYCLEs between two TICKs, or no bound (R112). -/
inductive RateBounds where
  | unbounded
  | between (cMin cMax : Nat)
deriving DecidableEq, Repr

/-- The parameters of a machine (R7). NUM_V and NUM_KEYS are not among them. -/
structure Params where
  /-- MEM_SIZE: number of bytes of memory (R50). -/
  memSize : Nat
  /-- RESERVED_LO: first address of the reserved low region (R53). -/
  reservedLo : Nat
  /-- RESERVED_HI: last address of the reserved low region (R53). -/
  reservedHi : Nat
  /-- LOAD_ADDR: where the program image goes, and the reset value of pc (R312). -/
  loadAddr : Nat
  /-- STACK_DEPTH: capacity of the call stack (R28). -/
  stackDepth : Nat
  /-- STACK_ENTRY_W: width of a call-stack entry (R28). -/
  stackEntryW : Nat
  /-- DISP_W: columns of the display (R30). -/
  dispW : Nat
  /-- DISP_H: rows of the display (R30). -/
  dispH : Nat
  /-- TIMER_HZ: timer-decay steps per second (R110). -/
  timerHz : Nat
  /-- INSTR_HZ: instruction cycles per second, for the timed scheduler only (R110, R318). -/
  instrHz : Nat
  /-- FONT_BASE: address of glyph 0 (R54). -/
  fontBase : Nat
  /-- GLYPH_BYTES: bytes of one glyph (R54). -/
  glyphBytes : Nat
  /-- FONT_DATA: the bytes of the sixteen glyphs, in address order (R55). -/
  fontData : List Byte
  /-- FLAG_ORDER (R162). -/
  flagOrder : FlagOrder
  /-- DRAW_VF_ORDER (R201). -/
  drawVfOrder : DrawVfOrder
  /-- BLOCK_I_MODE (R254, R255). -/
  blockIMode : BlockIMode
  /-- RESERVED_WRITE (R56). -/
  reservedWrite : ReservedWrite
  /-- RATE_BOUNDS: read by claims about event sequences (`Safety.WithinRates`), by no operation (R112). -/
  rateBounds : RateBounds
deriving DecidableEq, Repr

/-- What the scheduler and the host can do to the core (R45, R112); `pass` is one pass of the timed
scheduler's loop with the clock reading it saw (R110). -/
inductive Event where
  /-- CYCLE: one instruction cycle (R100). -/
  | cycle
  /-- TICK: one timer-decay step (R113). -/
  | tick
  /-- KEY_SET(k, b): the host writes key[k] (R45). -/
  | keySet (k : Nibble) (b : Bool)
  /-- One pass of the timed scheduler at clock reading `now` (R110). -/
  | pass (now : Nat)
deriving DecidableEq, Repr, Inhabited

/-- The n-th event of a free sequence of events (R112: "Every finite or infinite sequence of these events
is an admissible run"): a FREE VALUE without a body, as `randByte` is (notes/assumptions/1.md). -/
opaque freeEvent : Nat → Event

/-- The byte on the RAND port at the n-th draw (R174, R45): a FREE VALUE. It has no body, so nothing
about it can be computed or proved, and every claim holds for every byte (notes/assumptions/2.md). -/
opaque randByte : Nat → Byte

end Sys2Proof.Config
end

