-- ==== Sys2Proof/Machine/Params.lean ====
section
/-!
DEFINITION. The default of every parameter of spec 00_scope.md R7, R7's constraints on any other choice,
and what is computed from parameters alone. A machine takes its parameters as an argument (`State.initial`,
`construct`) and carries them in State; the defaults are in no operation.
-/

namespace Sys2Proof.Config

/-- FONT_DATA's default: the sixteen glyphs, five bytes each, in address order (R55). -/
def defaultFont : List Byte :=
  [0xF0, 0x90, 0x90, 0x90, 0xF0,   -- 0
   0x20, 0x60, 0x20, 0x20, 0x70,   -- 1
   0xF0, 0x10, 0xF0, 0x80, 0xF0,   -- 2
   0xF0, 0x10, 0xF0, 0x10, 0xF0] ++ -- 3
  [0x90, 0x90, 0xF0, 0x10, 0x10,   -- 4
   0xF0, 0x80, 0xF0, 0x10, 0xF0,   -- 5
   0xF0, 0x80, 0xF0, 0x90, 0xF0,   -- 6
   0xF0, 0x10, 0x20, 0x40, 0x40] ++ -- 7
  [0xF0, 0x90, 0xF0, 0x90, 0xF0,   -- 8
   0xF0, 0x90, 0xF0, 0x10, 0xF0,   -- 9
   0xF0, 0x90, 0xF0, 0x90, 0x90,   -- A
   0xE0, 0x90, 0xE0, 0x90, 0xE0] ++ -- B
  [0xF0, 0x80, 0x80, 0x80, 0xF0,   -- C
   0xE0, 0x90, 0x90, 0x90, 0xE0,   -- D
   0xF0, 0x80, 0xF0, 0x80, 0xF0,   -- E
   0xF0, 0x80, 0xF0, 0x80, 0x80]   -- F

/-- The defaults of R7. -/
def defaults : Params where
  memSize := 4096
  reservedLo := 0x000
  reservedHi := 0x1FF
  loadAddr := 0x200
  stackDepth := 16
  stackEntryW := 16
  dispW := 64
  dispH := 32
  timerHz := 60
  instrHz := 500
  fontBase := 0x000
  glyphBytes := 5
  fontData := defaultFont
  flagOrder := .flagLast
  drawVfOrder := .clearFirst
  blockIMode := .unchanged
  reservedWrite := .perform
  rateBounds := .unbounded

/-- The choices of parameters R7 admits: MEM_SIZE ≤ 65536, the font ends inside the reserved region,
RESERVED_HI < LOAD_ADDR < MEM_SIZE, and FONT_DATA is sixteen glyphs of GLYPH_BYTES bytes. -/
def Params.lawful (p : Params) : Bool :=
  decide (p.memSize ≤ 65536) && decide (p.fontBase + 16 * p.glyphBytes - 1 ≤ p.reservedHi) &&
    decide (p.reservedHi < p.loadAddr) && decide (p.loadAddr < p.memSize) &&
    decide (p.fontData.length = 16 * p.glyphBytes)

/-- A return address as an entry of the call stack holds it: its low STACK_ENTRY_W bits, all of it at the
default width (R28, notes/assumptions/15.md). -/
def Params.stackEntry (p : Params) (w : Word) : Word := BitVec.ofNat 16 (w.toNat % 2 ^ p.stackEntryW)

end Sys2Proof.Config
end

