-- ==== Sys2Proof/Machine/State.lean ====
section
/-!
DEFINITION. The state of the core as plain data: the parameters the machine was built with (00_scope.md
R7), the architectural tuple of spec 10_state.md R20, the
scheduler's two tick references (40_execution_cycle.md R110), what the core has emitted on the DIAG
port (60_exceptions.md R282), and the model's own inputs to come and draw counter. Beside it the reasons
an outcome can be other than a next state, and the state after reset (70_reset_and_hazards.md R313).
-/

namespace Sys2Proof.Machine

open Sys2Proof.Config

/-- Memory as the bytes that differ from what an unlisted address reads as, addresses strictly
rising. What an unlisted address reads as is `Memory.initial` (Machine/Memory.lean). -/
abbrev Memory := List Host.Cell

/-- The display as its DISP_W columns, left to right, each its DISP_H pixels, top to bottom (R30). -/
abbrev Display := List (List Bool)

/-- The five sub-codes of BoundsFault (R281). -/
inductive BoundsKind where
  /-- FETCH_OUT_OF_RANGE, 0x41. -/
  | fetch
  /-- DRAW_OUT_OF_RANGE, 0x42. -/
  | draw
  /-- STORE_OUT_OF_RANGE, 0x43. -/
  | store
  /-- LOAD_OUT_OF_RANGE, 0x44. -/
  | load
  /-- KEY_OUT_OF_RANGE, 0x45. -/
  | key
deriving DecidableEq, Repr

/-- The condition a diagnostic event reports (R281). -/
inductive DiagCode where
  /-- 0x01, the fetched word matches no row. -/
  | invalidInstruction
  /-- 0x02, 2NNN with a full stack. -/
  | stackOverflow
  /-- 0x03, 00EE with an empty stack. -/
  | stackUnderflow
  /-- 0x41 to 0x45, an access or a key index out of range. -/
  | bounds (kind : BoundsKind)
deriving DecidableEq, Repr

/-- The diagnostic record (code, A, w); w is none for a fetch fault (R282). -/
structure Diag where
  code : DiagCode
  addr : Word
  word : Option Word
deriving DecidableEq, Repr

/-- The info of `Faulted(info)`: the sub-code, A and w of the BoundsFault (R34, R284). -/
structure FaultInfo where
  kind : BoundsKind
  addr : Word
  word : Option Word
deriving DecidableEq, Repr

/-- The execution state of the core (R34). -/
inductive Run where
  /-- Normal fetch-decode-execute. -/
  | running
  /-- The wait-for-key state with its target register (R230). -/
  | awaitingKey (x : Nibble)
  /-- Terminal, entered on a BoundsFault (R284, R285). -/
  | faulted (info : FaultInfo)
deriving DecidableEq, Repr

/-- Where the events come from once the listed ones are used up (R112). -/
inductive Source where
  /-- The events `e :: es`, over and over: every run that ends in a loop of events. -/
  | repeating (e : Event) (es : List Event)
  /-- The free sequence of events from its `n`-th on (`freeInput`, Machine/Cycle.lean). -/
  | free (n : Nat)
deriving DecidableEq, Repr

/-- Why a run has ended in a fault. No instruction, cycle or step answers with it: the core takes a
BoundsFault as a STATE (R284) and stays steppable in it (R101, R114). -/
inductive Fault where
  /-- Raised by `Safety.ending` alone, when it reads a Faulted state as the end of a run: "a fault,
  never a successful end" (R116). Safe: no claim about a good end can be proved of such a state. -/
  | boundsFault (info : FaultInfo)
deriving DecidableEq, Repr

/-- Why there is no meaning, or no machine. -/
inductive Refusal where
  /-- Raised by `exec` for an instruction without a meaning; no arm answers with it now. Safe. -/
  | notModelled (mnemonic : String)
  /-- Raised by `construct` alone: LOAD_ERROR, the image does not fit and no Machine State exists
  (R310 step 1, R311). Safe: nothing can be proved of a machine that does not exist. -/
  | loadTooLarge (len : Nat)
  /-- Raised by `construct` alone: the parameters break one of R7's constraints, so the spec describes no
  machine with them. Safe, as `loadTooLarge`. -/
  | unlawfulParams
deriving DecidableEq, Repr

/-- The state of the machine. After the parameters, the first eleven fields are the tuple of R20. -/
structure State where
  /-- The parameters, fixed at construction: no event writes them (R7, notes/assumptions/15.md). -/
  params : Params
  /-- The bytes of memory that differ from their reset contents (R35, R50). -/
  mem : Memory
  /-- V[0] to V[15]; V[15] is the flag register VF (R21, R22). -/
  v : Vector Byte numV
  /-- The index register I (R24). -/
  i : Word
  /-- The program counter (R25). -/
  pc : Word
  /-- The call stack's STACK_DEPTH entries (R28). -/
  stack : List Word
  /-- The number of entries in use, 0 to STACK_DEPTH (R28, R29). -/
  sp : Nat
  /-- The display buffer (R30). -/
  disp : Display
  /-- The keypad's flags (R31). -/
  key : Vector Bool numKeys
  /-- DT, the delay timer (R32). -/
  dt : Byte
  /-- ST, the sound timer (R33). -/
  st : Byte
  /-- The run state (R34). -/
  run : Run
  /-- t_instr, the scheduler's instruction tick reference (R110). -/
  tInstr : Nat
  /-- t_timer, the scheduler's timer tick reference (R110). -/
  tTimer : Nat
  /-- What the core has emitted on the DIAG port, oldest first (R282). -/
  diag : List Diag
  /-- The model's own: how often RAND has been sampled (notes/assumptions/2.md). -/
  draws : Nat
  /-- The model's own: the events still to come, the next one first (notes/assumptions/1.md). -/
  events : List Event
  /-- The model's own: what comes when `events` is empty (notes/assumptions/1.md). -/
  source : Source
deriving DecidableEq, Repr

/-- The machine with parameters `p` and the empty image, at clock reading 0: "zeroed, font table installed"
(R310, R313). Memory lists nothing: every address reads as its reset contents, the font among them. -/
def State.initial (p : Params) : State where
  params := p
  mem := []
  v := Vector.replicate numV 0
  i := 0
  pc := BitVec.ofNat 16 p.loadAddr
  stack := List.replicate p.stackDepth 0
  sp := 0
  disp := List.replicate p.dispW (List.replicate p.dispH false)
  key := Vector.replicate numKeys false
  dt := 0
  st := 0
  run := .running
  tInstr := 0
  tTimer := 0
  diag := []
  draws := 0
  events := []
  source := .repeating .cycle []

/-- The machine right after reset, with the default parameters (R7, R313). -/
def State.reset : State := State.initial defaults

end Sys2Proof.Machine
end

