-- ==== Sys2Proof/Machine/Memory.lean ====
section
/-!
DEFINITION. Memory as a list of (address, byte) pairs in one canonical form: addresses strictly
rising and below MEM_SIZE, and no pair whose byte is what that address reads as when unlisted.
-/

namespace Sys2Proof.Machine

open Sys2Proof.Config

/-- What an unlisted address reads as: its reset contents without an image, the font FONT_DATA from FONT_BASE
up and zero everywhere else (R35, R53). -/
def Memory.initial (p : Params) (a : Nat) : Byte :=
  if p.fontBase ≤ a then p.fontData.getD (a - p.fontBase) 0 else 0

/-- The byte at an address: the last one written there, else its reset contents (R62). -/
def Memory.read (p : Params) : Memory → Nat → Byte
  | [], a => Memory.initial p a
  | (k, c) :: m, a => if a = k then c else Memory.read p m a

/-- List the byte in front of `m`, unless it is what the address reads as unlisted. -/
def Memory.put (p : Params) (a : Nat) (b : Byte) (m : Memory) : Memory :=
  if b = Memory.initial p a then m else (a, b) :: m

/-- Write one byte, keeping the canonical form. -/
def Memory.write (p : Params) : Memory → Nat → Byte → Memory
  | [], a, b => Memory.put p a b []
  | (k, c) :: m, a, b =>
    if a < k then Memory.put p a b ((k, c) :: m)
    else if a = k then Memory.put p a b m
    else (k, c) :: Memory.write p m a b

/-- The canonical form from address `lo` on. -/
def Memory.wfFrom (p : Params) : Nat → Memory → Bool
  | _, [] => true
  | lo, (k, c) :: m =>
    decide (lo ≤ k) && decide (k < p.memSize) && !(c == Memory.initial p k) && Memory.wfFrom p (k + 1) m

/-- The canonical form: addresses strictly rising and in the address space, no entry equal to what
an unlisted address reads as. -/
def Memory.wf (p : Params) (m : Memory) : Bool := Memory.wfFrom p 0 m

end Sys2Proof.Machine
end

