-- ==== Sys2Proof/Machine/Ops.lean ====
section
/-!
DEFINITION. The named operations over the state, each the one home of what it reads or writes, and
RAISING A BOUNDSFAULT as the one shared operation the core has for an exception (spec 60_exceptions.md
R284). There is no return from an exception to write beside it: "Trap entry and trap return do not
exist" and Faulted is terminal (R285, R286); the source-defined diagnostics go through `report`.
-/

namespace Sys2Proof.Machine

open Sys2Proof.Config

/-! ### General registers, I, pc, timers -/

/-- V[x] (R21). No register is hard-wired. -/
def State.reg (s : State) (x : Nibble) : Byte := s.v[x.toNat]'x.isLt

/-- V[x] <- b (R21). -/
def State.setReg (s : State) (x : Nibble) (b : Byte) : State :=
  { s with v := s.v.set x.toNat b x.isLt }

/-- The selector of VF, the flag register (R22). -/
abbrev vf : Nibble := 0xF

/-- I <- w (R24). -/
def State.setI (s : State) (w : Word) : State := { s with i := w }

/-- pc <- w (R25). -/
def State.setPc (s : State) (w : Word) : State := { s with pc := w }

/-- pc <- pc + 2 mod 2^16: the fetch's advance, and a skip's "one extra instruction width" (R27, R103,
R138). -/
def State.advance (s : State) : State := s.setPc (s.pc + 2)

/-- A skip (R138): advance when the condition holds. -/
def State.skipIf (s : State) (c : Bool) : State := if c then s.advance else s

/-- DT <- b (R32). -/
def State.setDt (s : State) (b : Byte) : State := { s with dt := b }

/-- ST <- b (R33). -/
def State.setSt (s : State) (b : Byte) : State := { s with st := b }

/-- The SOUND port: ST ≠ 0 (R45). -/
def State.sound (s : State) : Bool := s.st != 0

/-- run <- r (R34). -/
def State.setRun (s : State) (r : Run) : State := { s with run := r }

/-! ### Memory -/

/-- MemRead(a, 1), for an address below MEM_SIZE (R12). -/
def State.readMem (s : State) (a : Nat) : Byte := Memory.read s.params s.mem a

/-- MemWrite(a, 1, b), for an address below MEM_SIZE (R12). -/
def State.writeMem (s : State) (a : Nat) (b : Byte) : State :=
  { s with mem := Memory.write s.params s.mem a b }

/-- Bytes written one after another from address `a` up (R69). -/
def State.writeBytes (s : State) : Nat → List Byte → State
  | _, [] => s
  | a, b :: bs => (s.writeMem a b).writeBytes (a + 1) bs

/-- The word at an address: two byte reads, the byte at the lower address more significant (R57). -/
def State.readWord (s : State) (a : Nat) : Word := wordOfBytes (s.readMem a) (s.readMem (a + 1))

/-! ### Call stack -/

/-- stack[k] (R28). -/
def State.stackAt (s : State) (k : Nat) : Word := s.stack.getD k 0

/-- Push a return address; none when the stack is full (R132). -/
def State.push (s : State) (w : Word) : Option State :=
  if s.sp < s.params.stackDepth then
    some { s with stack := s.stack.set s.sp (s.params.stackEntry w), sp := s.sp + 1 }
  else none

/-- Pop the top entry, leaving its value in the array; none when the stack is empty (R28, R130). -/
def State.pop (s : State) : Option (Word × State) :=
  if 0 < s.sp then some (s.stackAt (s.sp - 1), { s with sp := s.sp - 1 }) else none

/-! ### Display -/

/-- disp[x][y] (R30). -/
def Display.get (d : Display) (x y : Nat) : Bool := (d.getD x []).getD y false

/-- disp[x][y] <- not disp[x][y] (R201). -/
def Display.toggle (d : Display) (x y : Nat) : Display := d.modify x fun col => col.modify y not

/-- Every pixel false (R200). -/
def Display.blank (p : Params) : Display := List.replicate p.dispW (List.replicate p.dispH false)

/-- The grid has DISP_W columns of DISP_H pixels (R30). -/
def Display.shaped (p : Params) (d : Display) : Bool :=
  decide (d.length = p.dispW) && d.all fun col => decide (col.length = p.dispH)

/-- disp[x][y] of a state (R30). -/
def State.pixel (s : State) (x y : Nat) : Bool := Display.get s.disp x y

/-- Replace the display grid (R30). -/
def State.setDisp (s : State) (d : Display) : State := { s with disp := d }

/-! ### The form of a state -/

/-- The stack has STACK_DEPTH entries of STACK_ENTRY_W bits, sp counts at most that many, and the display has
its grid (R28, R29, R30). -/
def State.shaped (s : State) : Bool :=
  decide (s.stack.length = s.params.stackDepth) && decide (s.sp ≤ s.params.stackDepth) &&
    (s.stack.all fun w => decide (w.toNat < 2 ^ s.params.stackEntryW)) &&
    Display.shaped s.params s.disp

/-- The form every machine has: admitted parameters (R7), canonical memory, and the shape they give. -/
def State.wf (s : State) : Bool := s.params.lawful && Memory.wf s.params s.mem && s.shaped

/-! ### Keypad and random input -/

/-- key[k] (R31). -/
def State.keyDown (s : State) (k : Nibble) : Bool := s.key[k.toNat]'k.isLt

/-- key[k] <- b, which only the host does (R45). -/
def State.setKey (s : State) (k : Nibble) (b : Bool) : State :=
  { s with key := s.key.set k.toNat b k.isLt }

/-- The byte on the RAND port for this execution, a free value (R174). -/
def State.randByte (s : State) : Byte := Config.randByte s.draws

/-- The RAND port has been sampled once more (R174). -/
def State.drawn (s : State) : State := { s with draws := s.draws + 1 }

/-! ### Diagnostics and BoundsFault -/

/-- The numeric code of a BoundsFault (R281). -/
def BoundsKind.value : BoundsKind → Byte
  | .fetch => 0x41
  | .draw => 0x42
  | .store => 0x43
  | .load => 0x44
  | .key => 0x45

/-- The numeric code of a diagnostic (R281). -/
def DiagCode.value : DiagCode → Byte
  | .invalidInstruction => 0x01
  | .stackOverflow => 0x02
  | .stackUnderflow => 0x03
  | .bounds k => k.value

/-- A, the address of the executing instruction: during the execute phase pc is already A + 2 (R25,
R103). -/
def State.instrAddr (s : State) : Word := s.pc - 2

/-- report(e): emit on the DIAG port and change nothing else (R13, R282). -/
def State.report (s : State) (d : Diag) : State := { s with diag := s.diag ++ [d] }

/-- raise BoundsFault(kind, A, w): emit DIAG, set run to Faulted, and nothing else (R284). -/
def State.raise (s : State) (k : BoundsKind) (a : Word) (w : Option Word) : State :=
  (s.report ⟨.bounds k, a, w⟩).setRun (.faulted ⟨k, a, w⟩)

/-- The executing instruction reports a source-defined condition; execution goes on (R281). -/
def State.reportInstr (s : State) (c : DiagCode) (i : Instr) : State :=
  s.report ⟨c, s.instrAddr, some (encode i)⟩

/-- The executing instruction raises BoundsFault (R284). -/
def State.raiseInstr (s : State) (k : BoundsKind) (i : Instr) : State :=
  s.raise k s.instrAddr (some (encode i))

end Sys2Proof.Machine
end

