-- ==== Sys2Proof/Machine/Flags.lean ====
section
/-!
DEFINITION. The flag computations of the five flag-setting ALU operations (spec 42_alu.md R162, R169 to
R173) and the order of their two writes. Operands are read before any write (R161), so every flag is
computed from the values passed in.
-/

namespace Sys2Proof.Machine

open Sys2Proof.Config

/-- A flag as the byte VF receives. -/
def flagByte (b : Bool) : Byte := if b then 1 else 0

/-- Carry: the exact sum exceeds 255 (R169). -/
def addFlag (a b : Byte) : Byte := flagByte (decide (255 < a.toNat + b.toNat))

/-- No borrow in a − b: a ≥ b (R170, R172). -/
def subFlag (a b : Byte) : Byte := flagByte (decide (b.toNat ≤ a.toNat))

/-- The bit shifted out to the right: bit 0 (R171). -/
def shrFlag (a : Byte) : Byte := a &&& 1

/-- The bit shifted out to the left: bit 7 (R173). -/
def shlFlag (a : Byte) : Byte := a >>> 7

/-- Write a result to V[x] and a flag to VF, in the order FLAG_ORDER gives (R162). -/
def State.setRegFlag (s : State) (x : Nibble) (result flag : Byte) : State :=
  match s.params.flagOrder with
  | .flagLast => (s.setReg x result).setReg vf flag
  | .resultLast => (s.setReg vf flag).setReg x result

end Sys2Proof.Machine
end

