-- ==== Sys2Proof/Machine/Operands.lean ====
section
/-!
DEFINITION. Operand forms (spec 30_encoding.md R73, 45_index_memory.md): zero extension, the one data
addressing mode I + k with its bound checks, the key index, the font address, decimal digits, and the
register blocks of FX55 and FX65.
-/

namespace Sys2Proof.Machine

open Sys2Proof.Config

/-- zext_16 (R10, R73). -/
def zext16 {n : Nat} (b : BitVec n) : Word := b.setWidth 16

/-- The effective address I + k: an exact integer, not wrapped (R52). -/
def State.ea (s : State) (k : Nat) : Nat := s.i.toNat + k

/-- Every one of the `n` addresses from `a` up is below MEM_SIZE (R51, R68). -/
def inMemory (p : Params) (a n : Nat) : Bool := (List.range n).all fun k => decide (a + k < p.memSize)

/-- The range of `n` bytes from `a` meets the reserved region (R56). -/
def meetsReserved (p : Params) (a n : Nat) : Bool :=
  (List.range n).any fun k => decide (p.reservedLo ≤ a + k) && decide (a + k ≤ p.reservedHi)

/-- A store of `n` bytes at `a` is performed: in memory and, under RESERVED_WRITE = FAULT, clear of the
reserved region (R56, R253, R254). -/
def storeAllowed (p : Params) (a n : Nat) : Bool :=
  inMemory p a n && !(decide (p.reservedWrite = .fault) && meetsReserved p a n)

/-- The key a register names; none when the index is above 0xF (R220). -/
def State.keyIndex (s : State) (x : Nibble) : Option Nibble :=
  if 0xF < (s.reg x).toNat then none else some ((s.reg x).setWidth 4)

/-- FONT_BASE + GLYPH_BYTES × the low nibble of `b`, GLYPH_BYTES being 5 (R54, R252). -/
def glyphAddr (p : Params) (b : Byte) : Word :=
  BitVec.ofNat 16 (p.fontBase + p.glyphBytes * (b &&& 0x0F).toNat)

/-- The hundreds, tens and ones digits of a byte (R253). -/
def bcdDigits (b : Byte) : List Byte :=
  [BitVec.ofNat 8 (b.toNat / 100), BitVec.ofNat 8 (b.toNat / 10 % 10), BitVec.ofNat 8 (b.toNat % 10)]

/-- The values of V[0] to V[x], in order (R254). -/
def State.regBlock (s : State) (x : Nibble) : List Byte :=
  (List.range (x.toNat + 1)).map fun k => s.reg (BitVec.ofNat 4 k)

/-- V[k] <- mem[a + k] for k below `n`, ascending (R255). -/
def State.loadBlock (s : State) (a n : Nat) : State :=
  (List.range n).foldl (fun t k => t.setReg (BitVec.ofNat 4 k) (t.readMem (a + k))) s

/-- What a block transfer leaves in I, by BLOCK_I_MODE: I itself, or I + (X + 1) mod 2^16 (R254, R255). -/
def State.blockEnd (s : State) (x : Nibble) : State :=
  match s.params.blockIMode with
  | .unchanged => s
  | .advanceXPlus1 => s.setI (s.i + (zext16 x + 1))

end Sys2Proof.Machine
end

