-- ==== Sys2Proof/Machine/Alu.lean ====
section
/-!
DEFINITION. Load-immediate, add-immediate, the nine register-to-register operations and random-and
(spec 42_alu.md). Every result is 8 bits and wraps silently (R160); operands are read first (R161).
-/

namespace Sys2Proof.Machine

/-- 6XNN LD VX, NN (R163). -/
def execLdImm (x : Nibble) (nn : Byte) (s : State) : Host.Outcome State Fault Refusal :=
  .next (s.setReg x nn)

/-- 7XNN ADD VX, NN: no flag (R164). -/
def execAddImm (x : Nibble) (nn : Byte) (s : State) : Host.Outcome State Fault Refusal :=
  .next (s.setReg x (s.reg x + nn))

/-- 8XY0 LD VX, VY (R165). -/
def execLdReg (x y : Nibble) (s : State) : Host.Outcome State Fault Refusal :=
  .next (s.setReg x (s.reg y))

/-- 8XY1 OR VX, VY (R166). -/
def execOrReg (x y : Nibble) (s : State) : Host.Outcome State Fault Refusal :=
  .next (s.setReg x (s.reg x ||| s.reg y))

/-- 8XY2 AND VX, VY (R167). -/
def execAndReg (x y : Nibble) (s : State) : Host.Outcome State Fault Refusal :=
  .next (s.setReg x (s.reg x &&& s.reg y))

/-- 8XY3 XOR VX, VY (R168). -/
def execXorReg (x y : Nibble) (s : State) : Host.Outcome State Fault Refusal :=
  .next (s.setReg x (s.reg x ^^^ s.reg y))

/-- 8XY4 ADD VX, VY: carry to VF (R169). -/
def execAddReg (x y : Nibble) (s : State) : Host.Outcome State Fault Refusal :=
  .next (s.setRegFlag x (s.reg x + s.reg y) (addFlag (s.reg x) (s.reg y)))

/-- 8XY5 SUB VX, VY: X − Y, no-borrow to VF (R170). -/
def execSubReg (x y : Nibble) (s : State) : Host.Outcome State Fault Refusal :=
  .next (s.setRegFlag x (s.reg x - s.reg y) (subFlag (s.reg x) (s.reg y)))

/-- 8XY6 SHR VX: the bit shifted out to VF; Y is neither read nor written (R171, R80). -/
def execShr (x _y : Nibble) (s : State) : Host.Outcome State Fault Refusal :=
  .next (s.setRegFlag x (s.reg x >>> 1) (shrFlag (s.reg x)))

/-- 8XY7 SUBN VX, VY: Y − X, no-borrow to VF (R172). -/
def execSubnReg (x y : Nibble) (s : State) : Host.Outcome State Fault Refusal :=
  .next (s.setRegFlag x (s.reg y - s.reg x) (subFlag (s.reg y) (s.reg x)))

/-- 8XYE SHL VX: the bit shifted out to VF; Y is neither read nor written (R173, R80). -/
def execShl (x _y : Nibble) (s : State) : Host.Outcome State Fault Refusal :=
  .next (s.setRegFlag x (s.reg x <<< 1) (shlFlag (s.reg x)))

/-- CXNN RND VX, NN: a free byte AND NN (R174). -/
def execRnd (x : Nibble) (nn : Byte) (s : State) : Host.Outcome State Fault Refusal :=
  .next (s.drawn.setReg x (s.randByte &&& nn))

end Sys2Proof.Machine
end

