-- ==== Sys2Proof/Machine/DisplayOps.lean ====
section
/-!
DEFINITION. Clear-display and draw-sprite (spec 43_display.md).
-/

namespace Sys2Proof.Machine

open Sys2Proof.Config

/-- The grid being drawn on, and whether a pixel has gone from true to false so far (R203). -/
structure Canvas where
  disp : Display
  hit : Bool
deriving DecidableEq, Repr

/-- XOR one set sprite bit into the pixel at (x, y), coordinates wrapped (R201). -/
def Canvas.plot (p : Params) (c : Canvas) (x y : Nat) : Canvas :=
  { disp := Display.toggle c.disp (x % p.dispW) (y % p.dispH)
    hit := c.hit || Display.get c.disp (x % p.dispW) (y % p.dispH) }

/-- Draw one sprite row: bit 7 − k of the byte goes to column x0 + k (R201, R202). -/
def Canvas.drawRow (p : Params) (c : Canvas) (x0 y : Nat) (b : Byte) : Canvas :=
  (List.range 8).foldl (fun c k => if b.getLsbD (7 - k) then c.plot p (x0 + k) y else c) c

/-- Draw the sprite rows one below the other, from row y0 (R201). -/
def Canvas.drawRows (p : Params) (c : Canvas) (x0 y0 : Nat) : List Byte → Canvas
  | [] => c
  | b :: bs => (c.drawRow p x0 y0 b).drawRows p x0 (y0 + 1) bs

/-- The N sprite bytes at I, I + 1, ... (R201). -/
def State.sprite (s : State) (n : Nibble) : List Byte :=
  (List.range n.toNat).map fun r => s.readMem (s.ea r)

/-- The state whose registers give DXYN its coordinates, by DRAW_VF_ORDER: VF already cleared, or not yet
(R201). -/
def State.coordSource (s : State) : State :=
  match s.params.drawVfOrder with
  | .clearFirst => s.setReg vf 0
  | .readFirst => s

/-- What DXYN draws: the sprite at (V[X], V[Y]) on the present grid (R201). -/
def State.drawing (s : State) (x y n : Nibble) : Canvas :=
  Canvas.drawRows s.params ⟨s.disp, false⟩ (s.coordSource.reg x).toNat (s.coordSource.reg y).toNat
    (s.sprite n)

/-- 00E0 CLS (R200). -/
def execCls (s : State) : Host.Outcome State Fault Refusal := .next (s.setDisp (Display.blank s.params))

/-- DXYN DRW VX, VY, N (R201): the bound check first, then VF and the pixels (R68). -/
def execDrw (x y n : Nibble) (s : State) : Host.Outcome State Fault Refusal :=
  if inMemory s.params (s.ea 0) n.toNat then
    .next ((s.setDisp (s.drawing x y n).disp).setReg vf (if (s.drawing x y n).hit then 1 else 0))
  else .next (s.raiseInstr .draw (.drw x y n))

end Sys2Proof.Machine
end

