-- ==== Sys2Proof/Machine/IndexMemory.lean ====
section
/-!
DEFINITION. The index register and the memory instructions (spec 45_index_memory.md). Every bound is
checked before the first effect (R68).
-/

namespace Sys2Proof.Machine

/-- ANNN LD I, NNN (R250). -/
def execLdI (nnn : Addr12) (s : State) : Host.Outcome State Fault Refusal :=
  .next (s.setI (zext16 nnn))

/-- FX1E ADD I, VX: 16-bit wrap, no flag (R251). -/
def execAddIVx (x : Nibble) (s : State) : Host.Outcome State Fault Refusal :=
  .next (s.setI (s.i + zext16 (s.reg x)))

/-- FX29 LD F, VX (R252). -/
def execLdFVx (x : Nibble) (s : State) : Host.Outcome State Fault Refusal :=
  .next (s.setI (glyphAddr s.params (s.reg x)))

/-- FX33 LD B, VX (R253). -/
def execLdBVx (x : Nibble) (s : State) : Host.Outcome State Fault Refusal :=
  if storeAllowed s.params (s.ea 0) 3 then
    .next (s.writeBytes (s.ea 0) (bcdDigits (s.reg x)))
  else .next (s.raiseInstr .store (.ldBVx x))

/-- FX55 LD [I], VX (R254). -/
def execStoreRegs (x : Nibble) (s : State) : Host.Outcome State Fault Refusal :=
  if storeAllowed s.params (s.ea 0) (x.toNat + 1) then
    .next ((s.writeBytes (s.ea 0) (s.regBlock x)).blockEnd x)
  else .next (s.raiseInstr .store (.storeRegs x))

/-- FX65 LD VX, [I] (R255). -/
def execLoadRegs (x : Nibble) (s : State) : Host.Outcome State Fault Refusal :=
  if inMemory s.params (s.ea 0) (x.toNat + 1) then
    .next ((s.loadBlock (s.ea 0) (x.toNat + 1)).blockEnd x)
  else .next (s.raiseInstr .load (.loadRegs x))

end Sys2Proof.Machine
end

