-- ==== Sys2Proof/Machine/KeypadTimers.lean ====
section
/-!
DEFINITION. The key skips, the timer instructions and wait-for-key (spec 44_keypad_timers.md). The
key-scan cycles that follow FX0A are in Machine/Cycle.lean.
-/

namespace Sys2Proof.Machine

/-- EX9E SKP VX (R220). -/
def execSkp (x : Nibble) (s : State) : Host.Outcome State Fault Refusal :=
  match s.keyIndex x with
  | some k => .next (s.skipIf (s.keyDown k))
  | none => .next (s.raiseInstr .key (.skp x))

/-- EXA1 SKNP VX (R221). -/
def execSknp (x : Nibble) (s : State) : Host.Outcome State Fault Refusal :=
  match s.keyIndex x with
  | some k => .next (s.skipIf (!s.keyDown k))
  | none => .next (s.raiseInstr .key (.sknp x))

/-- FX07 LD VX, DT (R222). -/
def execLdVxDt (x : Nibble) (s : State) : Host.Outcome State Fault Refusal :=
  .next (s.setReg x s.dt)

/-- FX0A LD VX, K: only enters the wait; the first scan is the next cycle (R223). -/
def execLdVxK (x : Nibble) (s : State) : Host.Outcome State Fault Refusal :=
  .next (s.setRun (.awaitingKey x))

/-- FX15 LD DT, VX (R224). -/
def execLdDtVx (x : Nibble) (s : State) : Host.Outcome State Fault Refusal :=
  .next (s.setDt (s.reg x))

/-- FX18 LD ST, VX (R225). -/
def execLdStVx (x : Nibble) (s : State) : Host.Outcome State Fault Refusal :=
  .next (s.setSt (s.reg x))

end Sys2Proof.Machine
end

