-- ==== Sys2Proof/Machine/Cycle.lean ====
section
/-!
DEFINITION. The instruction cycle, the key scan, the timer-decay step, the scheduler's pass and the
host's key write: what each event does to the state (spec 40_execution_cycle.md, 44_keypad_timers.md).
-/

namespace Sys2Proof.Machine

open Sys2Proof.Config

/-- The word at pc, or none when its second byte lies outside memory (R103). -/
def State.fetch (s : State) : Option Word :=
  if s.pc.toNat + 1 < s.params.memSize then some (s.readWord s.pc.toNat) else none

/-- The lowest-indexed pressed key (R232). -/
def State.firstKey (s : State) : Option Nibble :=
  ((List.range numKeys).map (BitVec.ofNat 4)).find? s.keyDown

/-- One key-scan cycle of AwaitingKey(x) (R232). -/
def State.keyScan (s : State) (x : Nibble) : State :=
  match s.firstKey with
  | some k => (s.setReg x (k.setWidth 8)).setRun .running
  | none => s

/-- Decode and dispatch the word `w` fetched from address `a`; in `s` pc is already advanced (R104,
R105). -/
def dispatch (a w : Word) (s : State) : Host.Outcome State Fault Refusal :=
  match decodeWord w with
  | .ok i => exec i s
  | .error _ => .next (s.report ⟨.invalidInstruction, a, some w⟩)

/-- One cycle in Running: fetch, advance pc, decode and dispatch; or the fetch's BoundsFault, with pc
not advanced (R103). -/
def State.runCycle (s : State) : Host.Outcome State Fault Refusal :=
  match s.fetch with
  | none => .next (s.raise .fetch s.pc none)
  | some w => dispatch s.pc w s.advance

/-- A CYCLE event (R100, R101). -/
def cycle (s : State) : Host.Outcome State Fault Refusal :=
  match s.run with
  | .faulted _ => .next s
  | .awaitingKey x => .next (s.keyScan x)
  | .running => s.runCycle

/-- One timer's decay: one less, never below zero (R113). -/
def decay (b : Byte) : Byte := if b = 0 then 0 else b - 1

/-- A TICK event: both timers, whatever `run` is (R113, R114). -/
def State.tick (s : State) : State := (s.setDt (decay s.dt)).setSt (decay s.st)

/-- One instruction period P_I = 1 / INSTR_HZ, in units of 1 / (INSTR_HZ × TIMER_HZ) s (R110,
notes/assumptions/5.md). -/
def State.periodInstr (s : State) : Nat := s.params.timerHz

/-- One timer period P_T = 1 / TIMER_HZ, in the same units (R110). -/
def State.periodTimer (s : State) : Nat := s.params.instrHz

/-- One pass of the timed scheduler at clock reading `now`: it issues at most one CYCLE and after it at
most one TICK, and each reference advances by one period per event issued (R110, R111). -/
def State.schedulerPass (s : State) (now : Nat) : State :=
  let c := decide (s.tInstr + s.periodInstr ≤ now)
  let t := decide (s.tTimer + s.periodTimer ≤ now)
  { s with
    tInstr := if c then s.tInstr + s.periodInstr else s.tInstr
    tTimer := if t then s.tTimer + s.periodTimer else s.tTimer
    events := (if c then [Event.cycle] else []) ++ (if t then [Event.tick] else []) ++ s.events }

/-- What one event does (R45, R112). -/
def applyEvent (e : Event) (s : State) : Host.Outcome State Fault Refusal :=
  match e with
  | .cycle => cycle s
  | .tick => .next s.tick
  | .keySet k b => .next (s.setKey k b)
  | .pass now => .next (s.schedulerPass now)

/-- The untimed model's run: the events of a finite list, one after the other (R112). -/
def runEvents : List Event → State → Host.Outcome State Fault Refusal
  | [], s => .next s
  | e :: es, s =>
    match applyEvent e s with
    | .next t => runEvents es t
    | .fault r => .fault r
    | .refused r => .refused r

/-- The n-th event of the free sequence. Only the three events of R112 are in it: a scheduler pass is none
of them, and a CYCLE stands where the free value names one. -/
def freeInput (n : Nat) : Event :=
  match Config.freeEvent n with
  | .pass _ => .cycle
  | e => e

/-- The next event and the state in which it happens: the head of the list or, when the list is empty,
what the source gives (notes/assumptions/1.md). -/
def State.nextEvent (s : State) : Event × State :=
  match s.events, s.source with
  | e :: es, _ => (e, { s with events := es })
  | [], .repeating e es => (e, { s with events := es })
  | [], .free n => (freeInput n, { s with source := .free (n + 1) })

/-- Make a CYCLE in Running the next event, at a pc a word can be fetched from. -/
def State.readyToFetch (s : State) : State :=
  { s with
    run := .running
    pc := if s.pc.toNat + 1 < s.params.memSize then s.pc else BitVec.ofNat 16 s.params.loadAddr
    events := match s.events, s.source with
      | [], .repeating .cycle _ => []
      | es, _ => .cycle :: es }

/-- Store a word where the next fetch reads it, big-endian (R57). -/
def State.placeWord (s : State) (w : Word) : State := s.writeBytes s.pc.toNat (bytesOfWord w)

end Sys2Proof.Machine
end

