-- ==== Sys2Proof/Machine/Loader.lean ====
section
/-!
DEFINITION. Construction of a session from parameters and a program image (spec 70_reset_and_hazards.md
R310, R311; 00_scope.md R7): the LOAD port, and the only reset the core has (R314).
-/

namespace Sys2Proof.Machine

open Sys2Proof.Config

/-- The loader's check: the image does not run past the end of memory (R311). -/
def imageFits (p : Params) (img : List Byte) : Bool := decide (img.length ≤ p.memSize - p.loadAddr)

/-- Construct the machine with parameters `p` from the image `img` at clock reading `now`, or signal
LOAD_ERROR (R310): the zeroed state with the font installed, the image copied to LOAD_ADDR, and the
scheduler's references at `now`. Parameters that R7 does not admit give no machine. -/
def construct (now : Nat) (img : List Byte) (p : Params := defaults) :
    Host.Outcome State Fault Refusal :=
  if p.lawful then
    if imageFits p img then
      .next { (State.initial p).writeBytes p.loadAddr img with tInstr := now, tTimer := now }
    else .refused (.loadTooLarge img.length)
  else .refused .unlawfulParams

end Sys2Proof.Machine
end

