-- ==== Sys2Proof/Machine/Step.lean ====
section
/-!
DEFINITION. One step of the machine: the next event of the scheduler and the host, applied (spec
40_execution_cycle.md R112). From State.reset, with no event listed, every step is one instruction cycle.
-/

namespace Sys2Proof.Machine

/-- One step: take the next event and apply it. -/
def step (s : State) : Host.Outcome State Fault Refusal :=
  applyEvent s.nextEvent.1 s.nextEvent.2

/-- `s` with the instruction whose bits are `w` (numbered as spec/opcode_table.json numbers them)
stored where the next step fetches, and that next step a CYCLE in Running. -/
def State.withFetchWord (s : State) (nbits w : Nat) : State :=
  s.readyToFetch.placeWord (BitVec.ofNat 16 (w % 2 ^ nbits))

end Sys2Proof.Machine
end

