-- ==== Sys2Proof/Safety.lean ====
section
/-!
DEFINITION. The terms claims are made in: which parts of the state a step left alone, the architectural
tuple of spec 10_state.md R20, how a run ends (40_execution_cycle.md R116), which event lists a rate
bound admits, infinite runs and weak fairness (R112), the invariants, and the writers the spec names for each element.
-/

namespace Sys2Proof.Safety

open Sys2Proof.Machine Sys2Proof.Config

/-! ### Frames -/

/-- The parts of the state, as the spec names them. -/
inductive Part where
  | regs
  | index
  | pc
  | stack
  | display
  | keypad
  | delay
  | sound
  | run
  | memory
  | diagnostics
  | random
  | scheduler
  | events
  | params
deriving DecidableEq, Repr

/-- A part holds in `t` what it held in `s`, read through the model's accessors. -/
def Unchanged (s t : State) : Part → Prop
  | .regs => ∀ r, t.reg r = s.reg r
  | .index => t.i = s.i
  | .pc => t.pc = s.pc
  | .stack => t.stack = s.stack ∧ t.sp = s.sp
  | .display => ∀ x y, t.pixel x y = s.pixel x y
  | .keypad => ∀ k, t.keyDown k = s.keyDown k
  | .delay => t.dt = s.dt
  | .sound => t.st = s.st
  | .run => t.run = s.run
  | .memory => ∀ a, t.readMem a = s.readMem a
  | .diagnostics => t.diag = s.diag
  | .random => t.draws = s.draws
  | .scheduler => t.tInstr = s.tInstr ∧ t.tTimer = s.tTimer
  | .events => t.events = s.events ∧ t.source = s.source
  | .params => t.params = s.params

/-- Every part but those listed is unchanged. -/
def OnlyChanges (ps : List Part) (s t : State) : Prop := ∀ p, p ∉ ps → Unchanged s t p

/-- The same machine, with the eleven elements of the architectural tuple equal (R7, R20). -/
structure SameArch (s t : State) : Prop where
  params : s.params = t.params
  mem : s.mem = t.mem
  v : s.v = t.v
  i : s.i = t.i
  pc : s.pc = t.pc
  stack : s.stack = t.stack
  sp : s.sp = t.sp
  disp : s.disp = t.disp
  key : s.key = t.key
  dt : s.dt = t.dt
  st : s.st = t.st
  run : s.run = t.run

/-! ### Drawing -/

/-- Some set bit of the `n` sprite rows at I, drawn from (x0, y0) with wrap on both axes, lands on
pixel (px, py) (R201, R202). -/
def SpriteCovers (s : State) (x0 y0 n px py : Nat) : Prop :=
  ∃ r, r < n ∧ ∃ c, c < 8 ∧ (s.readMem (s.i.toNat + r)).getLsbD (7 - c) = true ∧
    px = (x0 + c) % s.params.dispW ∧ py = (y0 + r) % s.params.dispH

/-- The coordinate a register gives DXYN: with CLEAR_FIRST, VF is cleared before it is read (R201). -/
def drawCoord (s : State) (x : Nibble) : Nat :=
  if x = 0xF ∧ s.params.drawVfOrder = .clearFirst then 0 else (s.reg x).toNat

/-! ### Stores -/

/-- A store of `n` bytes at I faults: its last byte is outside memory or, with RESERVED_WRITE = FAULT, some
byte of it is in the reserved region (R51, R56). -/
def StoreFaults (s : State) (n : Nat) : Prop :=
  s.params.memSize ≤ s.i.toNat + (n - 1) ∨
    (s.params.reservedWrite = .fault ∧
      ∃ k, k < n ∧ s.params.reservedLo ≤ s.i.toNat + k ∧ s.i.toNat + k ≤ s.params.reservedHi)

/-! ### Invariants -/

/-- The bound on the program counter and the stacked return addresses: pc is at most 0x10FE, the largest
sum of JP V0, or a skip from the last word of memory; a return address at most MEM_SIZE (R27). -/
def PcBounded (s : State) : Prop :=
  s.pc.toNat ≤ max 0x10FE (s.params.memSize + 2) ∧ ∀ k, (s.stackAt k).toNat ≤ s.params.memSize

/-! ### The end of a run -/

/-- run = Running and the word at pc is 1NNN with NNN = pc (R116 (a)). -/
def selfLoop (s : State) : Bool :=
  match s.run, s.fetch with
  | .running, some w =>
    match decodeWord w with
    | .ok (.jp nnn) => zext16 nnn == s.pc
    | _ => false
  | _, _ => false

/-- What ends a run at this state: a self-loop, a Faulted state, which is "never a successful end", or
nothing yet (R116 (a), (b)). -/
def ending (s : State) : Option (Host.Outcome State Fault Refusal) :=
  match s.run with
  | .faulted info => some (.fault (.boundsFault info))
  | _ => if selfLoop s then some (.next s) else none

/-! ### Rate bounds -/

/-- Between two consecutive TICKs at least `cMin` and at most `cMax` CYCLEs come; `n` counts them since
the last TICK, and is none before the first (R112). -/
def rateOk (cMin cMax : Nat) : Option Nat → List Event → Bool
  | _, [] => true
  | none, .tick :: es => rateOk cMin cMax (some 0) es
  | none, _ :: es => rateOk cMin cMax none es
  | some n, .tick :: es => decide (cMin ≤ n) && decide (n ≤ cMax) && rateOk cMin cMax (some 0) es
  | some n, .cycle :: es => rateOk cMin cMax (some (n + 1)) es
  | some n, _ :: es => rateOk cMin cMax (some n) es

/-- An event list within the rate bounds; with OPEN every list is (R112). -/
def admits : RateBounds → List Event → Bool
  | .unbounded, _ => true
  | .between cMin cMax, es => rateOk cMin cMax none es

/-- The event list is within the RATE_BOUNDS of the machine in state `s` (R7, R112). -/
def WithinRates (s : State) (es : List Event) : Prop := admits s.params.rateBounds es = true

/-! ### Infinite runs -/

/-- A sequence of the three events of R112, without scheduler passes. -/
def Untimed (σ : Nat → Event) : Prop := ∀ n now, σ n ≠ .pass now

/-- `ρ` is the run of an infinite sequence of events: each event takes one state to the next (R112). -/
def InfiniteRun (σ : Nat → Event) (ρ : Nat → State) : Prop :=
  ∀ n, applyEvent (σ n) (ρ n) = .next (ρ (n + 1))

/-- `e` comes infinitely often. -/
def InfinitelyOften (σ : Nat → Event) (e : Event) : Prop := ∀ n, ∃ m, n ≤ m ∧ σ m = e

/-- Weak fairness: infinitely many TICK and infinitely many CYCLE events (R112). -/
def WeaklyFair (σ : Nat → Event) : Prop := InfinitelyOften σ .tick ∧ InfinitelyOften σ .cycle

/-- An infinite sequence within the RATE_BOUNDS of the machine in state `s`: every start of it is (R112). -/
def WithinRatesForever (s : State) (σ : Nat → Event) : Prop := ∀ n, WithinRates s ((List.range n).map σ)

/-! ### Writers -/

/-- The instructions that may write VF: the six that do so as a side effect, and any whose ordinary
destination is VF (R22). -/
def mayWriteVf : Instr → Bool
  | .addReg _ _ | .subReg _ _ | .subnReg _ _ | .shr _ _ | .shl _ _ | .drw _ _ _ => true
  | .ldImm x _ | .addImm x _ | .rnd x _ => x == 0xF
  | .ldReg x _ | .orReg x _ | .andReg x _ | .xorReg x _ => x == 0xF
  | .ldVxDt x | .loadRegs x => x == 0xF
  | _ => false

end Sys2Proof.Safety
end

