-- ==== Sys2Proof/Certificates/Slice0/Obligations.lean ====
section
/-!
DEFINITION. The statements for the provers, each from a numbered rule of spec/ or derived from several.
`exec` runs in the state the fetch leaves: pc is already A + 2 (R103).
The parameters of R7 are read from the state, `s.params`: a statement over every state ranges over every
choice of them, and names the constraint on them where it needs one.
-/

open Sys2Proof Sys2Proof.Machine Sys2Proof.Safety Sys2Proof.Config

/-! ### Encoding -/

/-- At least one word of every family 0 to F, written out from the opcode map, decodes to its instruction (R71, R74). -/
def Obligations.WrittenOutWordsDecode : Prop :=
  decodeWord 0x00E0 = .ok .cls ∧ decodeWord 0x00EE = .ok .ret ∧ decodeWord 0x1ABC = .ok (.jp 0xABC) ∧
  decodeWord 0x2DEF = .ok (.call 0xDEF) ∧ decodeWord 0x3342 = .ok (.seImm 0x3 0x42) ∧
  decodeWord 0x4A51 = .ok (.sneImm 0xA 0x51) ∧ decodeWord 0x6A3C = .ok (.ldImm 0xA 0x3C) ∧
  decodeWord 0x7F01 = .ok (.addImm 0xF 0x01) ∧ decodeWord 0xA9F1 = .ok (.ldI 0x9F1) ∧
  decodeWord 0x5120 = .ok (.seReg 0x1 0x2) ∧
  decodeWord 0x8AB4 = .ok (.addReg 0xA 0xB) ∧ decodeWord 0x9120 = .ok (.sneReg 0x1 0x2) ∧
  decodeWord 0xB300 = .ok (.jpV0 0x300) ∧ decodeWord 0xC30F = .ok (.rnd 0x3 0x0F) ∧
  decodeWord 0xD125 = .ok (.drw 0x1 0x2 0x5) ∧ decodeWord 0xE39E = .ok (.skp 0x3) ∧
  decodeWord 0xF033 = .ok (.ldBVx 0x0) ∧ decodeWord 0x0123 = .error (.invalidWord 0x0123)

/-- Decoding what the encoder writes gives the instruction back, for every instruction and every value
of its operands, from the word and from its two bytes with any bytes after them (R74). -/
def Obligations.DecodeOfEncodeIsTheInstruction : Prop :=
  ∀ (i : Instr) (rest : List Byte),
    decodeWord (encode i) = .ok i ∧ decode (encodeBytes i ++ rest) = .ok (i, rest)

/-- "decoding then re-encoding the extracted fields reconstructs the original 16-bit word", for every
instruction's word; and w = F ‖ X ‖ Y ‖ N for every word, valid or not (R83). -/
def Obligations.EncodeOfDecodeIsTheWord : Prop :=
  (∀ (w : Word) (i : Instr), decodeWord w = .ok i → encode i = w) ∧
  ∀ w : Word, (fieldF w ++ fieldX w ++ fieldY w ++ fieldN w : BitVec 16) = w

/-- Dispatch selects the row whose fixed bits the word has; at most one row does; a word that no row
selects is invalid (R74). -/
def Obligations.DecoderFollowsTheOpcodeMap : Prop :=
  (∀ (w : Word) (i : Instr), decodeWord w = .ok i → i.row ∈ opcodeTable ∧ i.row.selects w = true) ∧
  (∀ w : Word, wellFormedWord w = true → ∃ i, decodeWord w = .ok i) ∧
  (∀ w : Word, wellFormedWord w = false → decodeWord w = .error (.invalidWord w)) ∧
  ∀ (w : Word) (r q : Row), r ∈ opcodeTable → q ∈ opcodeTable → r.selects w = true →
    q.selects w = true → r = q

/-- Which words of each family are instructions (R75). -/
def Obligations.SecondaryDispatchByFamily : Prop :=
  ∀ w : Word, (∃ i, decodeWord w = .ok i) ↔
    (fieldF w = 0x0 ∧ (w = 0x00E0 ∨ w = 0x00EE)) ∨
    (fieldF w = 0x5 ∨ fieldF w = 0x9) ∧ fieldN w = 0x0 ∨
    fieldF w = 0x8 ∧ (fieldN w).toNat ∈ [0, 1, 2, 3, 4, 5, 6, 7, 0xE] ∨
    fieldF w = 0xE ∧ (fieldNN w).toNat ∈ [0x9E, 0xA1] ∨
    fieldF w = 0xF ∧ (fieldNN w).toNat ∈ [0x07, 0x0A, 0x15, 0x18, 0x1E, 0x29, 0x33, 0x55, 0x65] ∨
    (fieldF w).toNat ∈ [0x1, 0x2, 0x3, 0x4, 0x6, 0x7, 0xA, 0xB, 0xC, 0xD]

/-! ### The cycle -/

/-- A step applies the next event: the first listed one; with none listed, the first of a repeating source,
whose others are then listed; or the next of the free sequence. At reset none is listed and the source
repeats CYCLE. All this is the model's own convention (notes/assumptions/1.md) over the events of R112. -/
def Obligations.StepTakesTheNextEvent : Prop :=
  (∀ (s : State) (e : Event) (es : List Event), s.events = e :: es →
    step s = applyEvent e { s with events := es }) ∧
  (∀ (s : State) (e : Event) (es : List Event), s.events = [] → s.source = .repeating e es →
    step s = applyEvent e { s with events := es }) ∧
  (∀ (s : State) (n : Nat), s.events = [] → s.source = .free n →
    step s = applyEvent (freeInput n) { s with source := .free (n + 1) }) ∧
  State.reset.events = [] ∧ State.reset.source = .repeating .cycle []

/-- In Running, when the two bytes at pc lie in memory and decode to `i`, a step whose next event is a
CYCLE is `exec i` in the state with pc advanced by 2 (R100, R103, R104). Where the next event comes from
is the model's own convention (notes/assumptions/1.md): the clauses say it in general, for a repeating
source with nothing listed, as at reset, and for a listed CYCLE. -/
def Obligations.StepRunsTheDecodedInstruction : Prop :=
  ∀ (s : State) (i : Instr), s.run = .running → s.pc.toNat + 1 < s.params.memSize →
    decode [s.readMem s.pc.toNat, s.readMem (s.pc.toNat + 1)] = .ok (i, []) →
    (∀ s', s.nextEvent = (.cycle, s') → step s = exec i { s' with pc := s.pc + 2 }) ∧
    (∀ es, s.events = [] → s.source = .repeating .cycle es →
      step s = exec i { s with pc := s.pc + 2, events := es }) ∧
    ∀ es, s.events = .cycle :: es → step s = exec i { s with pc := s.pc + 2, events := es }

/-- The fetch: out of range it raises BoundsFault at A with pc not advanced and nothing else changed;
in range it reads the word big-endian, advances pc by 2 modulo 2^16, and dispatches (R103). -/
def Obligations.FetchChecksReadsAndAdvances : Prop :=
  (∀ s : State, s.run = .running → s.params.memSize ≤ s.pc.toNat + 1 →
    ∃ t, cycle s = .next t ∧ t.run = .faulted ⟨.fetch, s.pc, none⟩ ∧
      t.diag = s.diag ++ [⟨.bounds .fetch, s.pc, none⟩] ∧ OnlyChanges [.run, .diagnostics] s t) ∧
  ∀ s : State, s.run = .running → s.pc.toNat + 1 < s.params.memSize →
    cycle s = dispatch s.pc (s.readMem s.pc.toNat ++ s.readMem (s.pc.toNat + 1) : BitVec 16)
      { s with pc := s.pc + 2 }

/-- An invalid word is reported and nothing else: pc keeps the fetch's advance (R105). -/
def Obligations.InvalidWordIsReportedAndPassed : Prop :=
  ∀ s : State, s.run = .running → s.pc.toNat + 1 < s.params.memSize →
    wellFormedWord (s.readMem s.pc.toNat ++ s.readMem (s.pc.toNat + 1)) = false →
    ∃ t, cycle s = .next t ∧ t.pc = s.pc + 2 ∧
      t.diag = s.diag ++ [⟨.invalidInstruction, s.pc,
        some (s.readMem s.pc.toNat ++ s.readMem (s.pc.toNat + 1))⟩] ∧
      OnlyChanges [.pc, .diagnostics] s t

/-- In AwaitingKey(x) a CYCLE scans the keys upward: the first pressed key's index goes to V[x] and the
core is Running again; with no key pressed nothing changes (R232). -/
def Obligations.KeyScanTakesTheLowestPressedKey : Prop :=
  (∀ (s : State) (x : Nibble), s.run = .awaitingKey x → (∀ k, s.keyDown k = false) →
    cycle s = .next s) ∧
  ∀ (s : State) (x k : Nibble), s.run = .awaitingKey x → s.keyDown k = true →
    (∀ j, j < k → s.keyDown j = false) →
    ∃ t, cycle s = .next t ∧ t.reg x = 0x0#4 ++ k ∧ (∀ r, r ≠ x → t.reg r = s.reg r) ∧
      t.run = .running ∧ OnlyChanges [.regs, .run] s t

/-- While no key is pressed, any number of CYCLEs in AwaitingKey changes nothing (R234's property). -/
def Obligations.KeyWaitHoldsUntilAKey : Prop :=
  ∀ (n : Nat) (s : State) (x : Nibble), s.run = .awaitingKey x → (∀ k, s.keyDown k = false) →
    runEvents (List.replicate n .cycle) s = .next s

/-- In Faulted a CYCLE changes no state and emits no diagnostic; a TICK decays the timers and the core
stays Faulted (R101). -/
def Obligations.CycleInFaultedDoesNothing : Prop :=
  ∀ (s : State) (info : FaultInfo), s.run = .faulted info → cycle s = .next s ∧
    ∃ t, applyEvent .tick s = .next t ∧ t.run = .faulted info ∧ t.dt.toNat = s.dt.toNat - 1 ∧
      t.st.toNat = s.st.toNat - 1

/-- A TICK decrements each nonzero timer by one, independently, and writes nothing else, whatever `run`
is (R113, R114). -/
def Obligations.TickDecaysBothTimers : Prop :=
  ∀ s : State, ∃ t, applyEvent .tick s = .next t ∧ t.dt.toNat = s.dt.toNat - 1 ∧
    t.st.toNat = s.st.toNat - 1 ∧ OnlyChanges [.delay, .sound] s t

/-- After n TICKs each timer holds its value less n, never below zero, and nothing else has changed. -/
def Obligations.TimersCountDownToZero : Prop :=
  ∀ (n : Nat) (s : State), ∃ t, runEvents (List.replicate n .tick) s = .next t ∧
    t.dt.toNat = s.dt.toNat - n ∧ t.st.toNat = s.st.toNat - n ∧ OnlyChanges [.delay, .sound] s t

/-- KEY_SET writes one flag and nothing else (R45, R47). -/
def Obligations.KeySetWritesOneFlag : Prop :=
  ∀ (s : State) (k : Nibble) (b : Bool), ∃ t, applyEvent (.keySet k b) s = .next t ∧
    t.keyDown k = b ∧ (∀ j, j ≠ k → t.keyDown j = s.keyDown j) ∧ OnlyChanges [.keypad] s t

/-- A scheduler pass issues at most one CYCLE and after it at most one TICK, each when its period has
elapsed, and advances that cadence's reference by one period: TIMER_HZ and INSTR_HZ units of
1 / (INSTR_HZ × TIMER_HZ) s (R110, R111; the unit is the model's, notes/assumptions/5.md). -/
def Obligations.SchedulerPassIssuesCycleBeforeTick : Prop :=
  ∀ (s : State) (now : Nat), ∃ t, applyEvent (.pass now) s = .next t ∧
    ((s.tInstr + s.params.timerHz ≤ now ∧ s.tTimer + s.params.instrHz ≤ now ∧
        t.events = .cycle :: .tick :: s.events ∧ t.tInstr = s.tInstr + s.params.timerHz ∧
        t.tTimer = s.tTimer + s.params.instrHz) ∨
     (s.tInstr + s.params.timerHz ≤ now ∧ now < s.tTimer + s.params.instrHz ∧
        t.events = .cycle :: s.events ∧ t.tInstr = s.tInstr + s.params.timerHz ∧ t.tTimer = s.tTimer) ∨
     (now < s.tInstr + s.params.timerHz ∧ s.tTimer + s.params.instrHz ≤ now ∧
        t.events = .tick :: s.events ∧ t.tInstr = s.tInstr ∧ t.tTimer = s.tTimer + s.params.instrHz) ∨
     (now < s.tInstr + s.params.timerHz ∧ now < s.tTimer + s.params.instrHz ∧ t.events = s.events ∧
        t.tInstr = s.tInstr ∧ t.tTimer = s.tTimer)) ∧
    OnlyChanges [.scheduler, .events] s t

/-! ### Parameters and reset -/

/-- The parameters of R7: the default of each, NUM_V and NUM_KEYS fixed at 16, and the constraints on any other
choice, which the defaults meet. A machine has the parameters it is constructed with, and no step changes
them. That FONT_DATA's length is one of the constraints, and that the parameters stand in State, is the model's
(notes/assumptions/15.md). -/
def Obligations.ParametersAreArgumentsWithTheirDefaults : Prop :=
  (defaults.memSize = 4096 ∧ defaults.reservedLo = 0x000 ∧ defaults.reservedHi = 0x1FF ∧
    defaults.loadAddr = 0x200 ∧ numV = 16 ∧ defaults.stackDepth = 16 ∧ defaults.dispW = 64 ∧
    defaults.dispH = 32 ∧ numKeys = 16 ∧ defaults.timerHz = 60 ∧ defaults.instrHz = 500 ∧
    defaults.fontBase = 0x000 ∧ defaults.fontData.length = 80 ∧ defaults.glyphBytes = 5 ∧
    defaults.stackEntryW = 16 ∧ defaults.flagOrder = .flagLast ∧ defaults.drawVfOrder = .clearFirst ∧
    defaults.blockIMode = .unchanged ∧ defaults.reservedWrite = .perform ∧
    defaults.rateBounds = .unbounded) ∧
  (∀ p : Params, p.lawful = true ↔ p.memSize ≤ 65536 ∧
    p.fontBase + 16 * p.glyphBytes - 1 ≤ p.reservedHi ∧ p.reservedHi < p.loadAddr ∧
    p.loadAddr < p.memSize ∧ p.fontData.length = 16 * p.glyphBytes) ∧
  defaults.lawful = true ∧
  (∀ (now : Nat) (img : List Byte) (p : Params) (t : State), construct now img p = .next t →
    t.params = p) ∧
  ∀ s t : State, step s = .next t → t.params = s.params

/-- Every element after construction from an image that fits, for every admitted choice of the parameters, font
included (R313). -/
def Obligations.ConstructionLeavesTheResetState : Prop :=
  ∀ (now : Nat) (img : List Byte) (p : Params), p.lawful = true →
    img.length ≤ p.memSize - p.loadAddr →
    ∃ t, construct now img p = .next t ∧ t.params = p ∧
    (∀ x, t.reg x = 0) ∧ t.i = 0 ∧ t.pc.toNat = p.loadAddr ∧ t.stack.length = p.stackDepth ∧
    (∀ k, t.stackAt k = 0) ∧ t.sp = 0 ∧ Display.shaped p t.disp = true ∧
    (∀ x y, t.pixel x y = false) ∧ (∀ k, t.keyDown k = false) ∧ t.dt = 0 ∧ t.st = 0 ∧
    t.run = .running ∧ t.tInstr = now ∧ t.tTimer = now ∧
    (∀ k (h : k < p.fontData.length), t.readMem (p.fontBase + k) = p.fontData[k]) ∧
    (∀ k (h : k < img.length), t.readMem (p.loadAddr + k) = img[k]) ∧
    ∀ a, ¬(p.fontBase ≤ a ∧ a < p.fontBase + 16 * p.glyphBytes) →
      ¬(p.loadAddr ≤ a ∧ a < p.loadAddr + img.length) → t.readMem a = 0

/-- The loader's check, for every admitted choice of the parameters: an image of up to MEM_SIZE − LOAD_ADDR
bytes, 3584 with the defaults, loads at the load address whatever it holds, and memory after it is zero; a
longer one is LOAD_ERROR and no machine exists (R311). -/
def Obligations.LoaderRefusesOversizedImages : Prop :=
  defaults.memSize - defaults.loadAddr = 3584 ∧
  ∀ (now : Nat) (img : List Byte) (p : Params), p.lawful = true →
    (p.memSize - p.loadAddr < img.length → construct now img p = .refused (.loadTooLarge img.length)) ∧
    (img.length ≤ p.memSize - p.loadAddr → ∃ t, construct now img p = .next t ∧
      (∀ k (h : k < img.length), t.readMem (p.loadAddr + k) = img[k]) ∧
      ∀ a, p.loadAddr + img.length ≤ a → t.readMem a = 0)

/-- State.reset is construction from the empty image with the default parameters, at the model's time origin;
parameters that R7 shuts out construct nothing (notes/assumptions/4.md, 5.md, 15.md). -/
def Obligations.ResetIsTheEmptyImage : Prop :=
  construct 0 [] = .next State.reset ∧ State.reset.params = defaults ∧
  ∀ (now : Nat) (img : List Byte) (p : Params), p.lawful = false →
    construct now img p = .refused .unlawfulParams

/-! ### Control flow -/

/-- RET (R130). -/
def Obligations.RetPopsOrReportsUnderflow : Prop :=
  decodeWord 0x00EE = .ok .ret ∧
  (∀ s : State, s.sp = 0 → ∃ t, exec .ret s = .next t ∧
    t.diag = s.diag ++ [⟨.stackUnderflow, s.pc - 2, some 0x00EE⟩] ∧
    OnlyChanges [.diagnostics] s t) ∧
  ∀ s : State, 0 < s.sp → ∃ t, exec .ret s = .next t ∧
    t.pc = s.stackAt (s.sp - 1) ∧ t.sp = s.sp - 1 ∧ t.stack = s.stack ∧ OnlyChanges [.pc, .stack] s t

/-- JP NNN and JP V0, NNN: the sum never wraps (R131, R137). -/
def Obligations.JumpsReplacePc : Prop :=
  (∀ nnn : Addr12, decodeWord (0x1#4 ++ nnn) = .ok (.jp nnn) ∧
    decodeWord (0xB#4 ++ nnn) = .ok (.jpV0 nnn)) ∧
  (∀ (s : State) (nnn : Addr12), ∃ t, exec (.jp nnn) s = .next t ∧ t.pc.toNat = nnn.toNat ∧
    OnlyChanges [.pc] s t) ∧
  ∀ (s : State) (nnn : Addr12), ∃ t, exec (.jpV0 nnn) s = .next t ∧
    t.pc.toNat = nnn.toNat + (s.reg 0).toNat ∧ OnlyChanges [.pc] s t

/-- CALL NNN (R132). The pushed entry is pc itself where STACK_ENTRY_W holds it, as its default always does. -/
def Obligations.CallPushesOrReportsOverflow : Prop :=
  (∀ nnn : Addr12, decodeWord (0x2#4 ++ nnn) = .ok (.call nnn)) ∧
  (∀ (s : State) (nnn : Addr12), s.params.stackDepth ≤ s.sp → ∃ t, exec (.call nnn) s = .next t ∧
    t.diag = s.diag ++ [⟨.stackOverflow, s.pc - 2, some (0x2#4 ++ nnn)⟩] ∧
    OnlyChanges [.diagnostics] s t) ∧
  ∀ (s : State) (nnn : Addr12), s.shaped = true → s.sp < s.params.stackDepth →
    ∃ t, exec (.call nnn) s = .next t ∧ t.pc.toNat = nnn.toNat ∧ t.sp = s.sp + 1 ∧
    (s.pc.toNat < 2 ^ s.params.stackEntryW → t.stackAt s.sp = s.pc) ∧
    (∀ k, k ≠ s.sp → t.stackAt k = s.stackAt k) ∧ OnlyChanges [.pc, .stack] s t

/-- A call with room on the stack, then a return from any state that has the call's stack, comes back
to the instruction after the call with the stack pointer as before (R132's property), for an entry width
that holds the address, as the default holds every one. -/
def Obligations.ReturnComesBackAfterCall : Prop :=
  ∀ (s : State) (nnn : Addr12), s.shaped = true → s.sp < s.params.stackDepth →
    s.pc.toNat < 2 ^ s.params.stackEntryW → ∃ t, exec (.call nnn) s = .next t ∧
    ∀ u : State, u.stack = t.stack → u.sp = t.sp →
      ∃ r, exec .ret u = .next r ∧ r.pc = s.pc ∧ r.sp = s.sp

/-- The four skips: the whole byte is compared, and a skip adds 2 to pc (R133 to R136). -/
def Obligations.SkipsAddTwoWhenTheConditionHolds : Prop :=
  (∀ (x y : Nibble) (nn : Byte), decodeWord (0x3#4 ++ x ++ nn) = .ok (.seImm x nn) ∧
    decodeWord (0x4#4 ++ x ++ nn) = .ok (.sneImm x nn) ∧
    decodeWord (0x5#4 ++ x ++ y ++ 0x0#4) = .ok (.seReg x y) ∧
    decodeWord (0x9#4 ++ x ++ y ++ 0x0#4) = .ok (.sneReg x y)) ∧
  (∀ (x y n : Nibble), n ≠ 0 →
    decodeWord (0x5#4 ++ x ++ y ++ n) = .error (.invalidWord (0x5#4 ++ x ++ y ++ n)) ∧
    decodeWord (0x9#4 ++ x ++ y ++ n) = .error (.invalidWord (0x9#4 ++ x ++ y ++ n))) ∧
  (∀ (s : State) (x : Nibble) (nn : Byte),
    (∃ t, exec (.seImm x nn) s = .next t ∧
      t.pc = (if s.reg x = nn then s.pc + 2 else s.pc) ∧ OnlyChanges [.pc] s t) ∧
    ∃ t, exec (.sneImm x nn) s = .next t ∧
      t.pc = (if s.reg x = nn then s.pc else s.pc + 2) ∧ OnlyChanges [.pc] s t) ∧
  ∀ (s : State) (x y : Nibble),
    (∃ t, exec (.seReg x y) s = .next t ∧
      t.pc = (if s.reg x = s.reg y then s.pc + 2 else s.pc) ∧ OnlyChanges [.pc] s t) ∧
    ∃ t, exec (.sneReg x y) s = .next t ∧
      t.pc = (if s.reg x = s.reg y then s.pc else s.pc + 2) ∧ OnlyChanges [.pc] s t

/-! ### Arithmetic -/

/-- LD VX, NN and ADD VX, NN: the sum modulo 256 and no flag, unless X is VF itself (R163, R164). -/
def Obligations.ImmediateOperationsWriteOneRegister : Prop :=
  (∀ (x : Nibble) (nn : Byte), decodeWord (0x6#4 ++ x ++ nn) = .ok (.ldImm x nn) ∧
    decodeWord (0x7#4 ++ x ++ nn) = .ok (.addImm x nn)) ∧
  ∀ (s : State) (x : Nibble) (nn : Byte),
    (∃ t, exec (.ldImm x nn) s = .next t ∧ t.reg x = nn ∧ (∀ r, r ≠ x → t.reg r = s.reg r) ∧
      OnlyChanges [.regs] s t) ∧
    ∃ t, exec (.addImm x nn) s = .next t ∧
      (t.reg x).toNat = ((s.reg x).toNat + nn.toNat) % 256 ∧ (∀ r, r ≠ x → t.reg r = s.reg r) ∧
      OnlyChanges [.regs] s t

/-- 8XY0 to 8XY3: assign, OR, AND, XOR, with no flag (R165 to R168). -/
def Obligations.LogicOperationsWriteOneRegister : Prop :=
  (∀ x y : Nibble, decodeWord (0x8#4 ++ x ++ y ++ 0x0#4) = .ok (.ldReg x y) ∧
    decodeWord (0x8#4 ++ x ++ y ++ 0x1#4) = .ok (.orReg x y) ∧
    decodeWord (0x8#4 ++ x ++ y ++ 0x2#4) = .ok (.andReg x y) ∧
    decodeWord (0x8#4 ++ x ++ y ++ 0x3#4) = .ok (.xorReg x y)) ∧
  ∀ (s : State) (x y : Nibble),
    (∃ t, exec (.ldReg x y) s = .next t ∧ t.reg x = s.reg y ∧ (∀ r, r ≠ x → t.reg r = s.reg r) ∧
      OnlyChanges [.regs] s t) ∧
    (∃ t, exec (.orReg x y) s = .next t ∧ t.reg x = s.reg x ||| s.reg y ∧
      (∀ r, r ≠ x → t.reg r = s.reg r) ∧ OnlyChanges [.regs] s t) ∧
    (∃ t, exec (.andReg x y) s = .next t ∧ t.reg x = s.reg x &&& s.reg y ∧
      (∀ r, r ≠ x → t.reg r = s.reg r) ∧ OnlyChanges [.regs] s t) ∧
    ∃ t, exec (.xorReg x y) s = .next t ∧ t.reg x = s.reg x ^^^ s.reg y ∧
      (∀ r, r ≠ x → t.reg r = s.reg r) ∧ OnlyChanges [.regs] s t

/-- 8XY4: the sum modulo 256 to V[X], the carry to VF; when X is VF it keeps the one FLAG_ORDER writes last, the
carry by default (R162, R169). -/
def Obligations.AddSetsTheCarry : Prop :=
  (∀ x y : Nibble, decodeWord (0x8#4 ++ x ++ y ++ 0x4#4) = .ok (.addReg x y)) ∧
  ∀ (s : State) (x y : Nibble), ∃ t, exec (.addReg x y) s = .next t ∧
    (x ≠ 0xF ∨ s.params.flagOrder = .flagLast →
      t.reg 0xF = if 255 < (s.reg x).toNat + (s.reg y).toNat then 1 else 0) ∧
    (x ≠ 0xF ∨ s.params.flagOrder = .resultLast →
      (t.reg x).toNat = ((s.reg x).toNat + (s.reg y).toNat) % 256) ∧
    (∀ r, r ≠ x → r ≠ 0xF → t.reg r = s.reg r) ∧ OnlyChanges [.regs] s t

/-- 8XY5 and 8XY7: the difference modulo 256 to V[X], VF = 1 exactly when no borrow occurred; when X is VF it
keeps the one FLAG_ORDER writes last (R162, R170, R172). -/
def Obligations.SubtractSetsNoBorrow : Prop :=
  (∀ x y : Nibble, decodeWord (0x8#4 ++ x ++ y ++ 0x5#4) = .ok (.subReg x y) ∧
    decodeWord (0x8#4 ++ x ++ y ++ 0x7#4) = .ok (.subnReg x y)) ∧
  ∀ (s : State) (x y : Nibble),
    (∃ t, exec (.subReg x y) s = .next t ∧
      (x ≠ 0xF ∨ s.params.flagOrder = .flagLast →
        t.reg 0xF = if (s.reg y).toNat ≤ (s.reg x).toNat then 1 else 0) ∧
      (x ≠ 0xF ∨ s.params.flagOrder = .resultLast →
        (t.reg x).toNat = ((s.reg x).toNat + 256 - (s.reg y).toNat) % 256) ∧
      (∀ r, r ≠ x → r ≠ 0xF → t.reg r = s.reg r) ∧ OnlyChanges [.regs] s t) ∧
    ∃ t, exec (.subnReg x y) s = .next t ∧
      (x ≠ 0xF ∨ s.params.flagOrder = .flagLast →
        t.reg 0xF = if (s.reg x).toNat ≤ (s.reg y).toNat then 1 else 0) ∧
      (x ≠ 0xF ∨ s.params.flagOrder = .resultLast →
        (t.reg x).toNat = ((s.reg y).toNat + 256 - (s.reg x).toNat) % 256) ∧
      (∀ r, r ≠ x → r ≠ 0xF → t.reg r = s.reg r) ∧ OnlyChanges [.regs] s t

/-- 8XY6 and 8XYE: V[X] halved or doubled modulo 256, VF the bit shifted out, V[Y] neither read nor
written whatever Y is; when X is VF it keeps the one FLAG_ORDER writes last (R162, R171, R173). -/
def Obligations.ShiftsCaptureTheBitShiftedOut : Prop :=
  (∀ x y : Nibble, decodeWord (0x8#4 ++ x ++ y ++ 0x6#4) = .ok (.shr x y) ∧
    decodeWord (0x8#4 ++ x ++ y ++ 0xE#4) = .ok (.shl x y)) ∧
  ∀ (s : State) (x y : Nibble),
    (∃ t, exec (.shr x y) s = .next t ∧
      (x ≠ 0xF ∨ s.params.flagOrder = .flagLast → (t.reg 0xF).toNat = (s.reg x).toNat % 2) ∧
      (x ≠ 0xF ∨ s.params.flagOrder = .resultLast → (t.reg x).toNat = (s.reg x).toNat / 2) ∧
      (∀ r, r ≠ x → r ≠ 0xF → t.reg r = s.reg r) ∧ OnlyChanges [.regs] s t) ∧
    ∃ t, exec (.shl x y) s = .next t ∧
      (x ≠ 0xF ∨ s.params.flagOrder = .flagLast → (t.reg 0xF).toNat = (s.reg x).toNat / 128) ∧
      (x ≠ 0xF ∨ s.params.flagOrder = .resultLast → (t.reg x).toNat = (s.reg x).toNat * 2 % 256) ∧
      (∀ r, r ≠ x → r ≠ 0xF → t.reg r = s.reg r) ∧ OnlyChanges [.regs] s t

/-- CXNN: a random byte AND NN. The byte is the model's free value at the draw counter, and the counter
moves on (R174; notes/assumptions/2.md). The result has no bit that NN lacks, whatever the byte. -/
def Obligations.RandomAndMasksAFreeByte : Prop :=
  ∀ (s : State) (x : Nibble) (nn : Byte), ∃ t, exec (.rnd x nn) s = .next t ∧
    t.reg x = Config.randByte s.draws &&& nn ∧ t.reg x &&& ~~~nn = 0 ∧ t.draws = s.draws + 1 ∧
    (∀ r, r ≠ x → t.reg r = s.reg r) ∧ OnlyChanges [.regs, .random] s t

/-! ### Display -/

/-- 00E0: every pixel false, whatever the grid was, and VF not written (R200). -/
def Obligations.ClearDisplayClearsEveryPixel : Prop :=
  decodeWord 0x00E0 = .ok .cls ∧
  ∀ s : State, ∃ t, exec .cls s = .next t ∧ (∀ x y, t.pixel x y = false) ∧
    OnlyChanges [.display] s t

/-- DXYN, pixel by pixel: with every row in memory, exactly the pixels a set bit lands on are inverted,
and VF is 1 exactly when one of them was set; with a row outside memory it faults and draws nothing
(R201, R202). The coordinates are those of DRAW_VF_ORDER (`drawCoord`). The rule's corner case has "no pixel
is touched twice" for DISP_W ≥ 8 and DISP_H at least the sprite's height, and so has the statement. -/
def Obligations.DrawSpriteXorsAndSetsTheCollisionFlag : Prop :=
  (∀ x y n : Nibble, decodeWord (0xD#4 ++ x ++ y ++ n) = .ok (.drw x y n)) ∧
  (∀ (s : State) (x y n : Nibble), s.shaped = true → 8 ≤ s.params.dispW → n.toNat ≤ s.params.dispH →
    (∀ r, r < n.toNat → s.i.toNat + r < s.params.memSize) →
    ∃ t, exec (.drw x y n) s = .next t ∧
      (∀ px py, t.pixel px py = true ↔
        (SpriteCovers s (drawCoord s x) (drawCoord s y) n.toNat px py ∧ s.pixel px py = false) ∨
        (¬SpriteCovers s (drawCoord s x) (drawCoord s y) n.toNat px py ∧ s.pixel px py = true)) ∧
      ((∃ px py, SpriteCovers s (drawCoord s x) (drawCoord s y) n.toNat px py ∧
          s.pixel px py = true) → t.reg 0xF = 1) ∧
      ((∀ px py, SpriteCovers s (drawCoord s x) (drawCoord s y) n.toNat px py →
          s.pixel px py = false) → t.reg 0xF = 0) ∧
      (∀ r, r ≠ 0xF → t.reg r = s.reg r) ∧ OnlyChanges [.regs, .display] s t) ∧
  ∀ (s : State) (x y n : Nibble) (r : Nat), r < n.toNat → s.params.memSize ≤ s.i.toNat + r →
    ∃ t, exec (.drw x y n) s = .next t ∧
      t.run = .faulted ⟨.draw, s.pc - 2, some (0xD#4 ++ x ++ y ++ n)⟩ ∧
      t.diag = s.diag ++ [⟨.bounds .draw, s.pc - 2, some (0xD#4 ++ x ++ y ++ n)⟩] ∧
      OnlyChanges [.run, .diagnostics] s t

/-- Drawing the same sprite twice at the same place restores the grid; and on a clear grid, with a sprite
that covers some pixel, VF is 0 after the first draw and 1 after the second (R203's property). With
READ_FIRST the place is the same only where no coordinate is VF, which the first draw writes. -/
def Obligations.DrawingTwiceRestoresTheGrid : Prop :=
  ∀ (s : State) (x y n : Nibble), s.shaped = true → 8 ≤ s.params.dispW → n.toNat ≤ s.params.dispH →
    (s.params.drawVfOrder = .clearFirst ∨ (x ≠ 0xF ∧ y ≠ 0xF)) →
    (∀ r, r < n.toNat → s.i.toNat + r < s.params.memSize) →
    ∃ t u, exec (.drw x y n) s = .next t ∧ exec (.drw x y n) t = .next u ∧ u.disp = s.disp ∧
      ((∀ px py, s.pixel px py = false) →
        (∃ px py, SpriteCovers s (drawCoord s x) (drawCoord s y) n.toNat px py) →
        t.reg 0xF = 0 ∧ u.reg 0xF = 1)

/-! ### Keypad and timers -/

/-- EX9E and EXA1: skip on the key's level; an index above 0xF faults (R220, R221). -/
def Obligations.KeySkipsTestTheKeyOrFault : Prop :=
  (∀ x : Nibble, decodeWord (0xE#4 ++ x ++ 0x9E#8) = .ok (.skp x) ∧
    decodeWord (0xE#4 ++ x ++ 0xA1#8) = .ok (.sknp x)) ∧
  (∀ (s : State) (x k : Nibble), s.reg x = 0x0#4 ++ k →
    (∃ t, exec (.skp x) s = .next t ∧
      t.pc = (if s.keyDown k = true then s.pc + 2 else s.pc) ∧ OnlyChanges [.pc] s t) ∧
    ∃ t, exec (.sknp x) s = .next t ∧
      t.pc = (if s.keyDown k = true then s.pc else s.pc + 2) ∧ OnlyChanges [.pc] s t) ∧
  ∀ (s : State) (x : Nibble), 0xF < (s.reg x).toNat →
    (∃ t, exec (.skp x) s = .next t ∧
      t.run = .faulted ⟨.key, s.pc - 2, some (0xE#4 ++ x ++ 0x9E#8)⟩ ∧
      t.diag = s.diag ++ [⟨.bounds .key, s.pc - 2, some (0xE#4 ++ x ++ 0x9E#8)⟩] ∧
      OnlyChanges [.run, .diagnostics] s t) ∧
    ∃ t, exec (.sknp x) s = .next t ∧
      t.run = .faulted ⟨.key, s.pc - 2, some (0xE#4 ++ x ++ 0xA1#8)⟩ ∧
      t.diag = s.diag ++ [⟨.bounds .key, s.pc - 2, some (0xE#4 ++ x ++ 0xA1#8)⟩] ∧
      OnlyChanges [.run, .diagnostics] s t

/-- FX07, FX15, FX18: DT read, DT and ST written; the SOUND port follows ST (R222, R224, R225). -/
def Obligations.TimerInstructionsMoveOneByte : Prop :=
  (∀ x : Nibble, decodeWord (0xF#4 ++ x ++ 0x07#8) = .ok (.ldVxDt x) ∧
    decodeWord (0xF#4 ++ x ++ 0x15#8) = .ok (.ldDtVx x) ∧
    decodeWord (0xF#4 ++ x ++ 0x18#8) = .ok (.ldStVx x)) ∧
  ∀ (s : State) (x : Nibble),
    (∃ t, exec (.ldVxDt x) s = .next t ∧ t.reg x = s.dt ∧ (∀ r, r ≠ x → t.reg r = s.reg r) ∧
      OnlyChanges [.regs] s t) ∧
    (∃ t, exec (.ldDtVx x) s = .next t ∧ t.dt = s.reg x ∧ OnlyChanges [.delay] s t) ∧
    ∃ t, exec (.ldStVx x) s = .next t ∧ t.st = s.reg x ∧ (t.sound = true ↔ s.reg x ≠ 0) ∧
      OnlyChanges [.sound] s t

/-- FX0A only enters the wait: V[X] and pc are not written (R223). -/
def Obligations.WaitForKeyEntersTheWait : Prop :=
  (∀ x : Nibble, decodeWord (0xF#4 ++ x ++ 0x0A#8) = .ok (.ldVxK x)) ∧
  ∀ (s : State) (x : Nibble), ∃ t, exec (.ldVxK x) s = .next t ∧ t.run = .awaitingKey x ∧
    OnlyChanges [.run] s t

/-! ### Index register and memory -/

/-- ANNN, FX1E, FX29: I replaced, added to modulo 2^16 with no flag, or set to the glyph of the low
nibble: FONT_BASE + GLYPH_BYTES × that nibble, below 2^16 for every admitted choice of the two (R250, R251,
R252). -/
def Obligations.IndexInstructionsWriteI : Prop :=
  (∀ (x : Nibble) (nnn : Addr12), decodeWord (0xA#4 ++ nnn) = .ok (.ldI nnn) ∧
    decodeWord (0xF#4 ++ x ++ 0x1E#8) = .ok (.addIVx x) ∧
    decodeWord (0xF#4 ++ x ++ 0x29#8) = .ok (.ldFVx x)) ∧
  ∀ (s : State) (x : Nibble) (nnn : Addr12),
    (∃ t, exec (.ldI nnn) s = .next t ∧ t.i.toNat = nnn.toNat ∧ OnlyChanges [.index] s t) ∧
    (∃ t, exec (.addIVx x) s = .next t ∧ t.i.toNat = (s.i.toNat + (s.reg x).toNat) % 65536 ∧
      OnlyChanges [.index] s t) ∧
    ∃ t, exec (.ldFVx x) s = .next t ∧
      t.i.toNat = (s.params.fontBase + s.params.glyphBytes * ((s.reg x).toNat % 16)) % 65536 ∧
      (s.params.lawful = true →
        t.i.toNat = s.params.fontBase + s.params.glyphBytes * ((s.reg x).toNat % 16)) ∧
      OnlyChanges [.index] s t

/-- FX33: the three decimal digits of V[X] at I, I + 1 and I + 2, every other byte and I as before; with
I + 2 outside memory, or with RESERVED_WRITE = FAULT and a byte of the three in the reserved region, it faults
and writes nothing (R56, R253). -/
def Obligations.StoreBcdWritesThreeDigits : Prop :=
  (∀ x : Nibble, decodeWord (0xF#4 ++ x ++ 0x33#8) = .ok (.ldBVx x)) ∧
  (∀ (s : State) (x : Nibble), Memory.wf s.params s.mem = true → ¬StoreFaults s 3 →
    ∃ t, exec (.ldBVx x) s = .next t ∧
      (t.readMem s.i.toNat).toNat = (s.reg x).toNat / 100 ∧
      (t.readMem (s.i.toNat + 1)).toNat = (s.reg x).toNat / 10 % 10 ∧
      (t.readMem (s.i.toNat + 2)).toNat = (s.reg x).toNat % 10 ∧
      (∀ a, ¬(s.i.toNat ≤ a ∧ a ≤ s.i.toNat + 2) → t.readMem a = s.readMem a) ∧
      OnlyChanges [.memory] s t) ∧
  ∀ (s : State) (x : Nibble), StoreFaults s 3 →
    ∃ t, exec (.ldBVx x) s = .next t ∧
      t.run = .faulted ⟨.store, s.pc - 2, some (0xF#4 ++ x ++ 0x33#8)⟩ ∧
      t.diag = s.diag ++ [⟨.bounds .store, s.pc - 2, some (0xF#4 ++ x ++ 0x33#8)⟩] ∧
      OnlyChanges [.run, .diagnostics] s t

/-- FX55: V[0] to V[X] at I to I + X, every other byte as before, and I as before or, with BLOCK_I_MODE =
ADVANCE_X_PLUS_1, moved on by X + 1; with I + X outside memory, or with RESERVED_WRITE = FAULT and a byte of the
block in the reserved region, it faults and writes nothing (R56, R254). -/
def Obligations.BlockStoreWritesRegistersUpToX : Prop :=
  (∀ x : Nibble, decodeWord (0xF#4 ++ x ++ 0x55#8) = .ok (.storeRegs x)) ∧
  (∀ (s : State) (x : Nibble), Memory.wf s.params s.mem = true → ¬StoreFaults s (x.toNat + 1) →
    ∃ t, exec (.storeRegs x) s = .next t ∧
      (∀ k : Nibble, k ≤ x → t.readMem (s.i.toNat + k.toNat) = s.reg k) ∧
      (∀ a, ¬(s.i.toNat ≤ a ∧ a ≤ s.i.toNat + x.toNat) → t.readMem a = s.readMem a) ∧
      (s.params.blockIMode = .unchanged → t.i = s.i) ∧
      (s.params.blockIMode = .advanceXPlus1 → t.i.toNat = (s.i.toNat + (x.toNat + 1)) % 65536) ∧
      OnlyChanges [.memory, .index] s t) ∧
  ∀ (s : State) (x : Nibble), StoreFaults s (x.toNat + 1) →
    ∃ t, exec (.storeRegs x) s = .next t ∧
      t.run = .faulted ⟨.store, s.pc - 2, some (0xF#4 ++ x ++ 0x55#8)⟩ ∧
      t.diag = s.diag ++ [⟨.bounds .store, s.pc - 2, some (0xF#4 ++ x ++ 0x55#8)⟩] ∧
      OnlyChanges [.run, .diagnostics] s t

/-- FX65: V[0] to V[X] from I to I + X, the other registers and memory as before, and I as before or, with
BLOCK_I_MODE = ADVANCE_X_PLUS_1, moved on by X + 1; with I + X outside memory it faults and writes no register
(R255). -/
def Obligations.BlockLoadReadsRegistersUpToX : Prop :=
  (∀ x : Nibble, decodeWord (0xF#4 ++ x ++ 0x65#8) = .ok (.loadRegs x)) ∧
  (∀ (s : State) (x : Nibble), s.i.toNat + x.toNat < s.params.memSize →
    ∃ t, exec (.loadRegs x) s = .next t ∧
      (∀ k : Nibble, k ≤ x → t.reg k = s.readMem (s.i.toNat + k.toNat)) ∧
      (∀ k : Nibble, ¬k ≤ x → t.reg k = s.reg k) ∧
      (s.params.blockIMode = .unchanged → t.i = s.i) ∧
      (s.params.blockIMode = .advanceXPlus1 → t.i.toNat = (s.i.toNat + (x.toNat + 1)) % 65536) ∧
      OnlyChanges [.regs, .index] s t) ∧
  ∀ (s : State) (x : Nibble), s.params.memSize ≤ s.i.toNat + x.toNat →
    ∃ t, exec (.loadRegs x) s = .next t ∧
      t.run = .faulted ⟨.load, s.pc - 2, some (0xF#4 ++ x ++ 0x65#8)⟩ ∧
      t.diag = s.diag ++ [⟨.bounds .load, s.pc - 2, some (0xF#4 ++ x ++ 0x65#8)⟩] ∧
      OnlyChanges [.run, .diagnostics] s t

/-- A block store, then a block load of as many registers in any state of the machine that has the stored
memory and I as it was, brings back the registers that were stored (R254, R255). -/
def Obligations.BlockLoadUndoesBlockStore : Prop :=
  ∀ (s : State) (x : Nibble), Memory.wf s.params s.mem = true → ¬StoreFaults s (x.toNat + 1) →
    ∃ t, exec (.storeRegs x) s = .next t ∧
      ∀ u : State, u.params = t.params → u.mem = t.mem → u.i = s.i →
        ∃ r, exec (.loadRegs x) u = .next r ∧ ∀ k : Nibble, k ≤ x → r.reg k = s.reg k

/-- A store is seen by the next fetch: after FX55 over the bytes at pc, the fetched word is the two
registers stored there (R65). -/
def Obligations.StoredCodeIsFetchedNext : Prop :=
  ∀ (s : State) (x k : Nibble), Memory.wf s.params s.mem = true → ¬StoreFaults s (x.toNat + 1) → k < x →
    s.pc.toNat = s.i.toNat + k.toNat →
    ∃ t, exec (.storeRegs x) s = .next t ∧ t.fetch = some (s.reg k ++ s.reg (k + 1))

/-! ### The order of result and flag -/

/-- Both orders of FLAG_ORDER: with X = F, FLAG_LAST leaves the flag in VF and RESULT_LAST the result;
with another X both leave the result in V[X] and the flag in VF, and the rest as it was (R162). -/
def Obligations.FlagOrderDecidesWhatVfHolds : Prop :=
  ∀ (s : State) (x : Nibble) (r f : Byte),
    (s.params.flagOrder = .flagLast → (s.setRegFlag 0xF r f).reg 0xF = f) ∧
    (s.params.flagOrder = .resultLast → (s.setRegFlag 0xF r f).reg 0xF = r) ∧
    (x ≠ 0xF → (s.setRegFlag x r f).reg x = r ∧ (s.setRegFlag x r f).reg 0xF = f) ∧
    (∀ y, y ≠ x → y ≠ 0xF → (s.setRegFlag x r f).reg y = s.reg y) ∧
    OnlyChanges [.regs] s (s.setRegFlag x r f)

/-! ### Whole-machine rules -/

/-- Every instruction completes in every state, and so does every step: each answers a next state (R102,
R280). A BoundsFault counts as one: it is the next state Faulted(info) of R284 and no fault outcome
(notes/assumptions/11.md). -/
def Obligations.EveryInstructionAndStepCompletes : Prop :=
  (∀ (i : Instr) (s : State), ∃ t, exec i s = .next t) ∧ ∀ s : State, ∃ t, step s = .next t

/-- `run` is left by an instruction in three ways only: unchanged; FX0A enters the wait; or one of the
six checked instructions raises its BoundsFault, precisely, with nothing else written (R34, R284). -/
def Obligations.RunIsWrittenOnlyByWaitAndFault : Prop :=
  ∀ (i : Instr) (s t : State), exec i s = .next t →
    t.run = s.run ∨ (∃ x, i = .ldVxK x ∧ t.run = .awaitingKey x) ∨
    ∃ k, t.run = .faulted ⟨k, s.pc - 2, some (encode i)⟩ ∧
      t.diag = s.diag ++ [⟨.bounds k, s.pc - 2, some (encode i)⟩] ∧
      OnlyChanges [.run, .diagnostics] s t ∧
      ((k = .draw ∧ ∃ x y n, i = .drw x y n) ∨ (k = .key ∧ ∃ x, i = .skp x ∨ i = .sknp x) ∨
       (k = .store ∧ ∃ x, i = .ldBVx x ∨ i = .storeRegs x) ∨ (k = .load ∧ ∃ x, i = .loadRegs x))

/-- A CYCLE emits at most one diagnostic, and it carries the pc the cycle started from (R283). -/
def Obligations.AtMostOneDiagnosticPerCycle : Prop :=
  ∀ s t : State, cycle s = .next t →
    t.diag = s.diag ∨ ∃ d, t.diag = s.diag ++ [d] ∧ d.addr = s.pc ∧ s.run = .running

/-- VF is written by no instruction but the six flag writers and those whose destination it is
(R22). -/
def Obligations.VfHasOnlyItsNamedWriters : Prop :=
  ∀ (i : Instr) (s t : State), exec i s = .next t → mayWriteVf i = false → t.reg 0xF = s.reg 0xF

/-- Each element has only the writers the spec names: the stack CALL and RET, the display 00E0 and
DXYN, memory FX33 and FX55, I ANNN, FX1E and FX29 (and FX55 and FX65 with BLOCK_I_MODE = ADVANCE_X_PLUS_1),
DT FX15, ST FX18, the keypad none (R24, R28, R31, R50, R204); the parameters have none (R7). -/
def Obligations.EachElementHasOnlyItsNamedWriters : Prop :=
  ∀ (i : Instr) (s t : State), exec i s = .next t →
    ((∀ nnn, i ≠ .call nnn) → i ≠ .ret → Unchanged s t .stack) ∧
    (i ≠ .cls → (∀ x y n, i ≠ .drw x y n) → Unchanged s t .display) ∧
    ((∀ x, i ≠ .ldBVx x ∧ i ≠ .storeRegs x) → Unchanged s t .memory) ∧
    ((∀ x nnn, i ≠ .ldI nnn ∧ i ≠ .addIVx x ∧ i ≠ .ldFVx x) →
      ((∀ x, i ≠ .storeRegs x ∧ i ≠ .loadRegs x) ∨ s.params.blockIMode = .unchanged) →
      Unchanged s t .index) ∧
    ((∀ x, i ≠ .ldDtVx x) → Unchanged s t .delay) ∧
    ((∀ x, i ≠ .ldStVx x) → Unchanged s t .sound) ∧ Unchanged s t .keypad ∧
    Unchanged s t .params

/-- No instruction reads ST or `run`: with other values of the two, an instruction answers the same state
but for them, and each of the two is what the instruction wrote there, or else as it was given (R33,
R34). -/
def Obligations.NoInstructionReadsSoundOrRun : Prop :=
  ∀ (i : Instr) (s t : State) (b : Byte) (r : Run), exec i s = .next t →
    ∃ u, exec i ((s.setSt b).setRun r) = .next u ∧ OnlyChanges [.sound, .run] t u ∧
      (u.st = t.st ∨ (t.st = s.st ∧ u.st = b)) ∧ (u.run = t.run ∨ (t.run = s.run ∧ u.run = r))

/-- Faulted is terminal: no event of any kind leaves it, and in it only a TICK's timers, a KEY_SET's
flag and the model's inputs to come and scheduler references move (R285). -/
def Obligations.FaultedIsTerminal : Prop :=
  ∀ (s t : State) (info : FaultInfo), s.run = .faulted info → step s = .next t →
    OnlyChanges [.delay, .sound, .keypad, .scheduler, .events] s t

/-- What a program computes does not depend on what has been emitted on DIAG, on the events to come or
on the scheduler's references: two states of one machine with the same architectural tuple and the same draws to come
run any event list without a scheduler pass to the same tuple (R20, R282; the lists and the draw counter are
the model's own, notes/assumptions/1.md to 3.md). -/
def Obligations.OutputsAndInputsToComeAreNotObserved : Prop :=
  ∀ (es : List Event) (s t s' : State), (∀ e ∈ es, ∀ now, e ≠ .pass now) → SameArch s t →
    s.draws = t.draws → runEvents es s = .next s' →
    ∃ t', runEvents es t = .next t' ∧ SameArch s' t' ∧ s'.draws = t'.draws

/-- Stepping through a listed sequence of CYCLE, TICK and KEY_SET events is the untimed model's run of
that sequence: as many steps as events, each event once, in order, from any state; and with the free source
and nothing listed, any number of steps is the run of as much of the free sequence, which holds those
three events alone (R112; the list and the source are the model's own, notes/assumptions/1.md). -/
def Obligations.StepsRefineTheEventSequence : Prop :=
  (∀ (es : List Event) (s : State), (∀ e ∈ es, ∀ now, e ≠ .pass now) →
    ∃ t, runEvents es { s with events := [] } = .next t ∧
      Host.Core.run Sys2Proof.core es.length { s with events := es } = .next t) ∧
  Untimed freeInput ∧
  ∀ (k n : Nat) (s : State), s.events = [] → s.source = .free n →
    ∃ t, runEvents ((List.range k).map fun j => freeInput (n + j)) s = .next t ∧
      Host.Core.run Sys2Proof.core k s = .next { t with source := .free (n + k) }

/-- Every infinite sequence of events is a run, from every state: there is one run of it, and its n-th
state is where the finite run of the first n events ends (R112). -/
def Obligations.EveryInfiniteSequenceIsARun : Prop :=
  ∀ (σ : Nat → Event) (s : State), ∃ ρ : Nat → State, ρ 0 = s ∧ InfiniteRun σ ρ ∧
    (∀ n, runEvents ((List.range n).map σ) s = .next (ρ n)) ∧
    ∀ ρ' : Nat → State, ρ' 0 = s → InfiniteRun σ ρ' → ρ' = ρ

/-- What weak fairness gives (R112): in a fair run a Faulted core's timers reach zero and stay there, and a
wait during which some key stays pressed ends, in a key no higher than that one. -/
def Obligations.FairRunsMakeProgress : Prop :=
  (∀ (σ : Nat → Event) (ρ : Nat → State) (info : FaultInfo), InfiniteRun σ ρ → WeaklyFair σ →
    (ρ 0).run = .faulted info →
    ∃ n, ∀ m, n ≤ m → (ρ m).dt = 0 ∧ (ρ m).st = 0 ∧ (ρ m).run = .faulted info) ∧
  ∀ (σ : Nat → Event) (ρ : Nat → State) (x k : Nibble), InfiniteRun σ ρ → WeaklyFair σ →
    (ρ 0).run = .awaitingKey x → (∀ n, (ρ n).keyDown k = true) →
    ∃ n, (ρ n).run = .running ∧ ((ρ n).reg x).toNat ≤ k.toNat

/-- The RATE_BOUNDS of a machine: OPEN, the default, admits every list of events, and every infinite sequence;
bounds (c_min, c_max) admit exactly those with at least c_min and at most c_max CYCLEs between any two
consecutive TICKs (R112). -/
def Obligations.RateBoundsCountCyclesBetweenTicks : Prop :=
  (∀ s : State, s.params.rateBounds = defaults.rateBounds →
    (∀ es, WithinRates s es) ∧ ∀ σ, WithinRatesForever s σ) ∧
  ∀ (s : State) (cMin cMax : Nat), s.params.rateBounds = .between cMin cMax →
    (∀ es, WithinRates s es ↔ ∀ a b c, es = a ++ .tick :: (b ++ .tick :: c) → Event.tick ∉ b →
      cMin ≤ b.count .cycle ∧ b.count .cycle ≤ cMax) ∧
    ∀ σ, WithinRatesForever s σ ↔
      ∀ i k, σ i = .tick → σ (i + 1 + k) = .tick → (∀ j, j < k → σ (i + 1 + j) ≠ .tick) →
        cMin ≤ ((List.range k).map fun j => σ (i + 1 + j)).count .cycle ∧
        ((List.range k).map fun j => σ (i + 1 + j)).count .cycle ≤ cMax

/-- At a self-loop, 1NNN with NNN = pc, a CYCLE changes no state (R116 (a)). -/
def Obligations.SelfLoopChangesNothing : Prop :=
  ∀ (s : State) (nnn : Addr12), s.run = .running → s.pc.toNat = nnn.toNat →
    s.fetch = some (0x1#4 ++ nnn) → selfLoop s = true ∧ cycle s = .next s

/-! ### Invariants -/

/-- Every step keeps the form of a state: admitted parameters (R7); memory's canonical form, addresses strictly
rising, inside the address space, no entry equal to what its address reads as unlisted (R50, R68); STACK_DEPTH
entries of STACK_ENTRY_W bits, at most that many in use (R28, R29); and the DISP_W by DISP_H grid (R30). The
memory's form is the model's own (notes/assumptions/9.md). -/
def Obligations.StateFormIsInvariant : Prop :=
  ∀ s t : State, s.wf = true → step s = .next t → t.wf = true

/-- Every step keeps pc and the stacked return addresses within their bounds (`PcBounded`): with the default
MEM_SIZE pc is at most 0x10FE and a return address at most 0x1000, so no update of pc wraps (R27). -/
def Obligations.PcBoundIsInvariant : Prop :=
  (∀ s t : State, PcBounded s → step s = .next t → PcBounded t) ∧
  ∀ s : State, s.params.memSize = defaults.memSize → PcBounded s →
    s.pc.toNat ≤ 0x10FE ∧ ∀ k, (s.stackAt k).toNat ≤ 0x1000

/-- Both invariants hold at reset, and after construction from any image that fits, with any admitted
parameters. The memory's form is the model's own (notes/assumptions/9.md), and so is that State.reset is the
empty image's machine (notes/assumptions/4.md). -/
def Obligations.InvariantsHoldAtReset : Prop :=
  (State.reset.wf = true ∧ PcBounded State.reset) ∧
  ∀ (now : Nat) (img : List Byte) (p : Params) (t : State), construct now img p = .next t →
    t.wf = true ∧ PcBounded t
end

