-- ==== Sys2Proof/Laws/Decode.lean ====
section
/-!
SUPPORT. The fields of a packed word, and a word as its four nibbles (spec 30_encoding.md R71, R83).
-/

namespace Sys2Proof

@[simp] theorem fieldF_packNNN (f : Nibble) (nnn : Addr12) : fieldF (packNNN f nnn) = f := by
  apply BitVec.eq_of_getLsbD_eq; intro i hi
  simp only [fieldF, packNNN, BitVec.getLsbD_extractLsb', BitVec.getLsbD_append, hi]
  simp [show ¬(12 + i < 12) by omega]

@[simp] theorem fieldNNN_packNNN (f : Nibble) (nnn : Addr12) : fieldNNN (packNNN f nnn) = nnn := by
  apply BitVec.eq_of_getLsbD_eq; intro i hi
  simp only [fieldNNN, packNNN, BitVec.getLsbD_extractLsb', BitVec.getLsbD_append, hi]
  simp [hi]

@[simp] theorem fieldF_packXNN (f x : Nibble) (nn : Byte) : fieldF (packXNN f x nn) = f := by
  apply BitVec.eq_of_getLsbD_eq; intro i hi
  simp only [fieldF, packXNN, BitVec.getLsbD_extractLsb', BitVec.getLsbD_append, hi]
  simp [show ¬(12 + i < 8) by omega, show ¬(12 + i - 8 < 4) by omega,
    show 12 + i - 8 - 4 = i by omega]

@[simp] theorem fieldX_packXNN (f x : Nibble) (nn : Byte) : fieldX (packXNN f x nn) = x := by
  apply BitVec.eq_of_getLsbD_eq; intro i hi
  simp only [fieldX, packXNN, BitVec.getLsbD_extractLsb', BitVec.getLsbD_append, hi]
  simp [show ¬(8 + i < 8) by omega, hi]

@[simp] theorem fieldNN_packXNN (f x : Nibble) (nn : Byte) : fieldNN (packXNN f x nn) = nn := by
  apply BitVec.eq_of_getLsbD_eq; intro i hi
  simp only [fieldNN, packXNN, BitVec.getLsbD_extractLsb', BitVec.getLsbD_append, hi]
  simp [hi]

@[simp] theorem fieldF_packXYN (f x y n : Nibble) : fieldF (packXYN f x y n) = f := by
  apply BitVec.eq_of_getLsbD_eq; intro i hi
  simp only [fieldF, packXYN, BitVec.getLsbD_extractLsb', BitVec.getLsbD_append, hi]
  simp [show ¬(12 + i < 4) by omega, show ¬(12 + i - 4 < 4) by omega,
    show ¬(12 + i - 4 - 4 < 4) by omega, show 12 + i - 4 - 4 - 4 = i by omega]

@[simp] theorem fieldX_packXYN (f x y n : Nibble) : fieldX (packXYN f x y n) = x := by
  apply BitVec.eq_of_getLsbD_eq; intro i hi
  simp only [fieldX, packXYN, BitVec.getLsbD_extractLsb', BitVec.getLsbD_append, hi]
  simp [show ¬(8 + i < 4) by omega, show ¬(8 + i - 4 < 4) by omega, hi,
    show 8 + i - 4 - 4 = i by omega]

@[simp] theorem fieldY_packXYN (f x y n : Nibble) : fieldY (packXYN f x y n) = y := by
  apply BitVec.eq_of_getLsbD_eq; intro i hi
  simp only [fieldY, packXYN, BitVec.getLsbD_extractLsb', BitVec.getLsbD_append, hi]
  simp [show ¬(4 + i < 4) by omega, hi]

@[simp] theorem fieldN_packXYN (f x y n : Nibble) : fieldN (packXYN f x y n) = n := by
  apply BitVec.eq_of_getLsbD_eq; intro i hi
  simp only [fieldN, packXYN, BitVec.getLsbD_extractLsb', BitVec.getLsbD_append, hi]
  simp [hi]

/-- NN = Y ‖ N of a packed word (R71). -/
@[simp] theorem fieldNN_packXYN (f x y n : Nibble) : fieldNN (packXYN f x y n) = y ++ n := by
  apply BitVec.eq_of_getLsbD_eq; intro i hi
  simp only [fieldNN, packXYN, BitVec.getLsbD_extractLsb', BitVec.getLsbD_append, hi]
  by_cases h : i < 4
  · simp [h]
  · simp [h, show i - 4 < 4 by omega]

/-- The two bytes of a word make the word again (R57). -/
theorem wordOfBytes_bytes (w : Word) : wordOfBytes (w.extractLsb' 8 8) (w.extractLsb' 0 8) = w := by
  apply BitVec.eq_of_getLsbD_eq; intro i hi
  simp only [wordOfBytes, BitVec.getLsbD_append, BitVec.getLsbD_extractLsb']
  by_cases h : i < 8
  · simp [h]
  · simp [h, show i - 8 < 8 by omega, show 8 + (i - 8) = i by omega]

/-- Decoding a word from its two bytes. -/
theorem decode_bytesOfWord (w : Word) (rest : List Byte) :
    decode (bytesOfWord w ++ rest) = (decodeWord w).map fun i => (i, rest) := by
  simp only [bytesOfWord, List.cons_append, List.nil_append, decode, wordOfBytes_bytes]
  cases decodeWord w <;> rfl

end Sys2Proof
end

