-- ==== Sys2Proof/Laws/State.lean ====
section
/-!
SUPPORT. What each named update does to each field and to each accessor of the state, true by rfl, so
that no later proof unfolds a record update.
-/

namespace Sys2Proof.Machine.State

variable (s : State)

/-! ### setReg -/

@[simp] theorem setReg_params (x : Nibble) (b : Byte) : (s.setReg x b).params = s.params := rfl
@[simp] theorem setReg_mem (x : Nibble) (b : Byte) : (s.setReg x b).mem = s.mem := rfl
@[simp] theorem setReg_v (x : Nibble) (b : Byte) : (s.setReg x b).v = s.v.set x.toNat b x.isLt := rfl
@[simp] theorem setReg_i (x : Nibble) (b : Byte) : (s.setReg x b).i = s.i := rfl
@[simp] theorem setReg_pc (x : Nibble) (b : Byte) : (s.setReg x b).pc = s.pc := rfl
@[simp] theorem setReg_stack (x : Nibble) (b : Byte) : (s.setReg x b).stack = s.stack := rfl
@[simp] theorem setReg_sp (x : Nibble) (b : Byte) : (s.setReg x b).sp = s.sp := rfl
@[simp] theorem setReg_disp (x : Nibble) (b : Byte) : (s.setReg x b).disp = s.disp := rfl
@[simp] theorem setReg_key (x : Nibble) (b : Byte) : (s.setReg x b).key = s.key := rfl
@[simp] theorem setReg_dt (x : Nibble) (b : Byte) : (s.setReg x b).dt = s.dt := rfl
@[simp] theorem setReg_st (x : Nibble) (b : Byte) : (s.setReg x b).st = s.st := rfl
@[simp] theorem setReg_run (x : Nibble) (b : Byte) : (s.setReg x b).run = s.run := rfl
@[simp] theorem setReg_tInstr (x : Nibble) (b : Byte) : (s.setReg x b).tInstr = s.tInstr := rfl
@[simp] theorem setReg_tTimer (x : Nibble) (b : Byte) : (s.setReg x b).tTimer = s.tTimer := rfl
@[simp] theorem setReg_diag (x : Nibble) (b : Byte) : (s.setReg x b).diag = s.diag := rfl
@[simp] theorem setReg_draws (x : Nibble) (b : Byte) : (s.setReg x b).draws = s.draws := rfl
@[simp] theorem setReg_events (x : Nibble) (b : Byte) : (s.setReg x b).events = s.events := rfl
@[simp] theorem setReg_source (x : Nibble) (b : Byte) : (s.setReg x b).source = s.source := rfl
@[simp] theorem readMem_setReg (x : Nibble) (b : Byte) (m : Nat) : (s.setReg x b).readMem m = s.readMem m := rfl
@[simp] theorem pixel_setReg (x : Nibble) (b : Byte) (col row : Nat) : (s.setReg x b).pixel col row = s.pixel col row := rfl
@[simp] theorem stackAt_setReg (x : Nibble) (b : Byte) (entry : Nat) : (s.setReg x b).stackAt entry = s.stackAt entry := rfl
@[simp] theorem keyDown_setReg (x : Nibble) (b : Byte) (key : Nibble) : (s.setReg x b).keyDown key = s.keyDown key := rfl

/-! ### setI -/

@[simp] theorem setI_params (w : Word) : (s.setI w).params = s.params := rfl
@[simp] theorem setI_mem (w : Word) : (s.setI w).mem = s.mem := rfl
@[simp] theorem setI_v (w : Word) : (s.setI w).v = s.v := rfl
@[simp] theorem setI_i (w : Word) : (s.setI w).i = w := rfl
@[simp] theorem setI_pc (w : Word) : (s.setI w).pc = s.pc := rfl
@[simp] theorem setI_stack (w : Word) : (s.setI w).stack = s.stack := rfl
@[simp] theorem setI_sp (w : Word) : (s.setI w).sp = s.sp := rfl
@[simp] theorem setI_disp (w : Word) : (s.setI w).disp = s.disp := rfl
@[simp] theorem setI_key (w : Word) : (s.setI w).key = s.key := rfl
@[simp] theorem setI_dt (w : Word) : (s.setI w).dt = s.dt := rfl
@[simp] theorem setI_st (w : Word) : (s.setI w).st = s.st := rfl
@[simp] theorem setI_run (w : Word) : (s.setI w).run = s.run := rfl
@[simp] theorem setI_tInstr (w : Word) : (s.setI w).tInstr = s.tInstr := rfl
@[simp] theorem setI_tTimer (w : Word) : (s.setI w).tTimer = s.tTimer := rfl
@[simp] theorem setI_diag (w : Word) : (s.setI w).diag = s.diag := rfl
@[simp] theorem setI_draws (w : Word) : (s.setI w).draws = s.draws := rfl
@[simp] theorem setI_events (w : Word) : (s.setI w).events = s.events := rfl
@[simp] theorem setI_source (w : Word) : (s.setI w).source = s.source := rfl
@[simp] theorem reg_setI (w : Word) (y : Nibble) : (s.setI w).reg y = s.reg y := rfl
@[simp] theorem readMem_setI (w : Word) (m : Nat) : (s.setI w).readMem m = s.readMem m := rfl
@[simp] theorem pixel_setI (w : Word) (col row : Nat) : (s.setI w).pixel col row = s.pixel col row := rfl
@[simp] theorem stackAt_setI (w : Word) (entry : Nat) : (s.setI w).stackAt entry = s.stackAt entry := rfl
@[simp] theorem keyDown_setI (w : Word) (key : Nibble) : (s.setI w).keyDown key = s.keyDown key := rfl

/-! ### setPc -/

@[simp] theorem setPc_params (w : Word) : (s.setPc w).params = s.params := rfl
@[simp] theorem setPc_mem (w : Word) : (s.setPc w).mem = s.mem := rfl
@[simp] theorem setPc_v (w : Word) : (s.setPc w).v = s.v := rfl
@[simp] theorem setPc_i (w : Word) : (s.setPc w).i = s.i := rfl
@[simp] theorem setPc_pc (w : Word) : (s.setPc w).pc = w := rfl
@[simp] theorem setPc_stack (w : Word) : (s.setPc w).stack = s.stack := rfl
@[simp] theorem setPc_sp (w : Word) : (s.setPc w).sp = s.sp := rfl
@[simp] theorem setPc_disp (w : Word) : (s.setPc w).disp = s.disp := rfl
@[simp] theorem setPc_key (w : Word) : (s.setPc w).key = s.key := rfl
@[simp] theorem setPc_dt (w : Word) : (s.setPc w).dt = s.dt := rfl
@[simp] theorem setPc_st (w : Word) : (s.setPc w).st = s.st := rfl
@[simp] theorem setPc_run (w : Word) : (s.setPc w).run = s.run := rfl
@[simp] theorem setPc_tInstr (w : Word) : (s.setPc w).tInstr = s.tInstr := rfl
@[simp] theorem setPc_tTimer (w : Word) : (s.setPc w).tTimer = s.tTimer := rfl
@[simp] theorem setPc_diag (w : Word) : (s.setPc w).diag = s.diag := rfl
@[simp] theorem setPc_draws (w : Word) : (s.setPc w).draws = s.draws := rfl
@[simp] theorem setPc_events (w : Word) : (s.setPc w).events = s.events := rfl
@[simp] theorem setPc_source (w : Word) : (s.setPc w).source = s.source := rfl
@[simp] theorem reg_setPc (w : Word) (y : Nibble) : (s.setPc w).reg y = s.reg y := rfl
@[simp] theorem readMem_setPc (w : Word) (m : Nat) : (s.setPc w).readMem m = s.readMem m := rfl
@[simp] theorem pixel_setPc (w : Word) (col row : Nat) : (s.setPc w).pixel col row = s.pixel col row := rfl
@[simp] theorem stackAt_setPc (w : Word) (entry : Nat) : (s.setPc w).stackAt entry = s.stackAt entry := rfl
@[simp] theorem keyDown_setPc (w : Word) (key : Nibble) : (s.setPc w).keyDown key = s.keyDown key := rfl

/-! ### advance -/

@[simp] theorem advance_params : (s.advance).params = s.params := rfl
@[simp] theorem advance_mem : (s.advance).mem = s.mem := rfl
@[simp] theorem advance_v : (s.advance).v = s.v := rfl
@[simp] theorem advance_i : (s.advance).i = s.i := rfl
@[simp] theorem advance_pc : (s.advance).pc = s.pc + 2 := rfl
@[simp] theorem advance_stack : (s.advance).stack = s.stack := rfl
@[simp] theorem advance_sp : (s.advance).sp = s.sp := rfl
@[simp] theorem advance_disp : (s.advance).disp = s.disp := rfl
@[simp] theorem advance_key : (s.advance).key = s.key := rfl
@[simp] theorem advance_dt : (s.advance).dt = s.dt := rfl
@[simp] theorem advance_st : (s.advance).st = s.st := rfl
@[simp] theorem advance_run : (s.advance).run = s.run := rfl
@[simp] theorem advance_tInstr : (s.advance).tInstr = s.tInstr := rfl
@[simp] theorem advance_tTimer : (s.advance).tTimer = s.tTimer := rfl
@[simp] theorem advance_diag : (s.advance).diag = s.diag := rfl
@[simp] theorem advance_draws : (s.advance).draws = s.draws := rfl
@[simp] theorem advance_events : (s.advance).events = s.events := rfl
@[simp] theorem advance_source : (s.advance).source = s.source := rfl
@[simp] theorem reg_advance (y : Nibble) : (s.advance).reg y = s.reg y := rfl
@[simp] theorem readMem_advance (m : Nat) : (s.advance).readMem m = s.readMem m := rfl
@[simp] theorem pixel_advance (col row : Nat) : (s.advance).pixel col row = s.pixel col row := rfl
@[simp] theorem stackAt_advance (entry : Nat) : (s.advance).stackAt entry = s.stackAt entry := rfl
@[simp] theorem keyDown_advance (key : Nibble) : (s.advance).keyDown key = s.keyDown key := rfl

/-! ### setDt -/

@[simp] theorem setDt_params (b : Byte) : (s.setDt b).params = s.params := rfl
@[simp] theorem setDt_mem (b : Byte) : (s.setDt b).mem = s.mem := rfl
@[simp] theorem setDt_v (b : Byte) : (s.setDt b).v = s.v := rfl
@[simp] theorem setDt_i (b : Byte) : (s.setDt b).i = s.i := rfl
@[simp] theorem setDt_pc (b : Byte) : (s.setDt b).pc = s.pc := rfl
@[simp] theorem setDt_stack (b : Byte) : (s.setDt b).stack = s.stack := rfl
@[simp] theorem setDt_sp (b : Byte) : (s.setDt b).sp = s.sp := rfl
@[simp] theorem setDt_disp (b : Byte) : (s.setDt b).disp = s.disp := rfl
@[simp] theorem setDt_key (b : Byte) : (s.setDt b).key = s.key := rfl
@[simp] theorem setDt_dt (b : Byte) : (s.setDt b).dt = b := rfl
@[simp] theorem setDt_st (b : Byte) : (s.setDt b).st = s.st := rfl
@[simp] theorem setDt_run (b : Byte) : (s.setDt b).run = s.run := rfl
@[simp] theorem setDt_tInstr (b : Byte) : (s.setDt b).tInstr = s.tInstr := rfl
@[simp] theorem setDt_tTimer (b : Byte) : (s.setDt b).tTimer = s.tTimer := rfl
@[simp] theorem setDt_diag (b : Byte) : (s.setDt b).diag = s.diag := rfl
@[simp] theorem setDt_draws (b : Byte) : (s.setDt b).draws = s.draws := rfl
@[simp] theorem setDt_events (b : Byte) : (s.setDt b).events = s.events := rfl
@[simp] theorem setDt_source (b : Byte) : (s.setDt b).source = s.source := rfl
@[simp] theorem reg_setDt (b : Byte) (y : Nibble) : (s.setDt b).reg y = s.reg y := rfl
@[simp] theorem readMem_setDt (b : Byte) (m : Nat) : (s.setDt b).readMem m = s.readMem m := rfl
@[simp] theorem pixel_setDt (b : Byte) (col row : Nat) : (s.setDt b).pixel col row = s.pixel col row := rfl
@[simp] theorem stackAt_setDt (b : Byte) (entry : Nat) : (s.setDt b).stackAt entry = s.stackAt entry := rfl
@[simp] theorem keyDown_setDt (b : Byte) (key : Nibble) : (s.setDt b).keyDown key = s.keyDown key := rfl

/-! ### setSt -/

@[simp] theorem setSt_params (b : Byte) : (s.setSt b).params = s.params := rfl
@[simp] theorem setSt_mem (b : Byte) : (s.setSt b).mem = s.mem := rfl
@[simp] theorem setSt_v (b : Byte) : (s.setSt b).v = s.v := rfl
@[simp] theorem setSt_i (b : Byte) : (s.setSt b).i = s.i := rfl
@[simp] theorem setSt_pc (b : Byte) : (s.setSt b).pc = s.pc := rfl
@[simp] theorem setSt_stack (b : Byte) : (s.setSt b).stack = s.stack := rfl
@[simp] theorem setSt_sp (b : Byte) : (s.setSt b).sp = s.sp := rfl
@[simp] theorem setSt_disp (b : Byte) : (s.setSt b).disp = s.disp := rfl
@[simp] theorem setSt_key (b : Byte) : (s.setSt b).key = s.key := rfl
@[simp] theorem setSt_dt (b : Byte) : (s.setSt b).dt = s.dt := rfl
@[simp] theorem setSt_st (b : Byte) : (s.setSt b).st = b := rfl
@[simp] theorem setSt_run (b : Byte) : (s.setSt b).run = s.run := rfl
@[simp] theorem setSt_tInstr (b : Byte) : (s.setSt b).tInstr = s.tInstr := rfl
@[simp] theorem setSt_tTimer (b : Byte) : (s.setSt b).tTimer = s.tTimer := rfl
@[simp] theorem setSt_diag (b : Byte) : (s.setSt b).diag = s.diag := rfl
@[simp] theorem setSt_draws (b : Byte) : (s.setSt b).draws = s.draws := rfl
@[simp] theorem setSt_events (b : Byte) : (s.setSt b).events = s.events := rfl
@[simp] theorem setSt_source (b : Byte) : (s.setSt b).source = s.source := rfl
@[simp] theorem reg_setSt (b : Byte) (y : Nibble) : (s.setSt b).reg y = s.reg y := rfl
@[simp] theorem readMem_setSt (b : Byte) (m : Nat) : (s.setSt b).readMem m = s.readMem m := rfl
@[simp] theorem pixel_setSt (b : Byte) (col row : Nat) : (s.setSt b).pixel col row = s.pixel col row := rfl
@[simp] theorem stackAt_setSt (b : Byte) (entry : Nat) : (s.setSt b).stackAt entry = s.stackAt entry := rfl
@[simp] theorem keyDown_setSt (b : Byte) (key : Nibble) : (s.setSt b).keyDown key = s.keyDown key := rfl

/-! ### setRun -/

@[simp] theorem setRun_params (r : Run) : (s.setRun r).params = s.params := rfl
@[simp] theorem setRun_mem (r : Run) : (s.setRun r).mem = s.mem := rfl
@[simp] theorem setRun_v (r : Run) : (s.setRun r).v = s.v := rfl
@[simp] theorem setRun_i (r : Run) : (s.setRun r).i = s.i := rfl
@[simp] theorem setRun_pc (r : Run) : (s.setRun r).pc = s.pc := rfl
@[simp] theorem setRun_stack (r : Run) : (s.setRun r).stack = s.stack := rfl
@[simp] theorem setRun_sp (r : Run) : (s.setRun r).sp = s.sp := rfl
@[simp] theorem setRun_disp (r : Run) : (s.setRun r).disp = s.disp := rfl
@[simp] theorem setRun_key (r : Run) : (s.setRun r).key = s.key := rfl
@[simp] theorem setRun_dt (r : Run) : (s.setRun r).dt = s.dt := rfl
@[simp] theorem setRun_st (r : Run) : (s.setRun r).st = s.st := rfl
@[simp] theorem setRun_run (r : Run) : (s.setRun r).run = r := rfl
@[simp] theorem setRun_tInstr (r : Run) : (s.setRun r).tInstr = s.tInstr := rfl
@[simp] theorem setRun_tTimer (r : Run) : (s.setRun r).tTimer = s.tTimer := rfl
@[simp] theorem setRun_diag (r : Run) : (s.setRun r).diag = s.diag := rfl
@[simp] theorem setRun_draws (r : Run) : (s.setRun r).draws = s.draws := rfl
@[simp] theorem setRun_events (r : Run) : (s.setRun r).events = s.events := rfl
@[simp] theorem setRun_source (r : Run) : (s.setRun r).source = s.source := rfl
@[simp] theorem reg_setRun (r : Run) (y : Nibble) : (s.setRun r).reg y = s.reg y := rfl
@[simp] theorem readMem_setRun (r : Run) (m : Nat) : (s.setRun r).readMem m = s.readMem m := rfl
@[simp] theorem pixel_setRun (r : Run) (col row : Nat) : (s.setRun r).pixel col row = s.pixel col row := rfl
@[simp] theorem stackAt_setRun (r : Run) (entry : Nat) : (s.setRun r).stackAt entry = s.stackAt entry := rfl
@[simp] theorem keyDown_setRun (r : Run) (key : Nibble) : (s.setRun r).keyDown key = s.keyDown key := rfl

/-! ### writeMem -/

@[simp] theorem writeMem_params (a : Nat) (b : Byte) : (s.writeMem a b).params = s.params := rfl
@[simp] theorem writeMem_mem (a : Nat) (b : Byte) : (s.writeMem a b).mem = Memory.write s.params s.mem a b := rfl
@[simp] theorem writeMem_v (a : Nat) (b : Byte) : (s.writeMem a b).v = s.v := rfl
@[simp] theorem writeMem_i (a : Nat) (b : Byte) : (s.writeMem a b).i = s.i := rfl
@[simp] theorem writeMem_pc (a : Nat) (b : Byte) : (s.writeMem a b).pc = s.pc := rfl
@[simp] theorem writeMem_stack (a : Nat) (b : Byte) : (s.writeMem a b).stack = s.stack := rfl
@[simp] theorem writeMem_sp (a : Nat) (b : Byte) : (s.writeMem a b).sp = s.sp := rfl
@[simp] theorem writeMem_disp (a : Nat) (b : Byte) : (s.writeMem a b).disp = s.disp := rfl
@[simp] theorem writeMem_key (a : Nat) (b : Byte) : (s.writeMem a b).key = s.key := rfl
@[simp] theorem writeMem_dt (a : Nat) (b : Byte) : (s.writeMem a b).dt = s.dt := rfl
@[simp] theorem writeMem_st (a : Nat) (b : Byte) : (s.writeMem a b).st = s.st := rfl
@[simp] theorem writeMem_run (a : Nat) (b : Byte) : (s.writeMem a b).run = s.run := rfl
@[simp] theorem writeMem_tInstr (a : Nat) (b : Byte) : (s.writeMem a b).tInstr = s.tInstr := rfl
@[simp] theorem writeMem_tTimer (a : Nat) (b : Byte) : (s.writeMem a b).tTimer = s.tTimer := rfl
@[simp] theorem writeMem_diag (a : Nat) (b : Byte) : (s.writeMem a b).diag = s.diag := rfl
@[simp] theorem writeMem_draws (a : Nat) (b : Byte) : (s.writeMem a b).draws = s.draws := rfl
@[simp] theorem writeMem_events (a : Nat) (b : Byte) : (s.writeMem a b).events = s.events := rfl
@[simp] theorem writeMem_source (a : Nat) (b : Byte) : (s.writeMem a b).source = s.source := rfl
@[simp] theorem reg_writeMem (a : Nat) (b : Byte) (y : Nibble) : (s.writeMem a b).reg y = s.reg y := rfl
@[simp] theorem pixel_writeMem (a : Nat) (b : Byte) (col row : Nat) : (s.writeMem a b).pixel col row = s.pixel col row := rfl
@[simp] theorem stackAt_writeMem (a : Nat) (b : Byte) (entry : Nat) : (s.writeMem a b).stackAt entry = s.stackAt entry := rfl
@[simp] theorem keyDown_writeMem (a : Nat) (b : Byte) (key : Nibble) : (s.writeMem a b).keyDown key = s.keyDown key := rfl

/-! ### setDisp -/

@[simp] theorem setDisp_params (d : Display) : (s.setDisp d).params = s.params := rfl
@[simp] theorem setDisp_mem (d : Display) : (s.setDisp d).mem = s.mem := rfl
@[simp] theorem setDisp_v (d : Display) : (s.setDisp d).v = s.v := rfl
@[simp] theorem setDisp_i (d : Display) : (s.setDisp d).i = s.i := rfl
@[simp] theorem setDisp_pc (d : Display) : (s.setDisp d).pc = s.pc := rfl
@[simp] theorem setDisp_stack (d : Display) : (s.setDisp d).stack = s.stack := rfl
@[simp] theorem setDisp_sp (d : Display) : (s.setDisp d).sp = s.sp := rfl
@[simp] theorem setDisp_disp (d : Display) : (s.setDisp d).disp = d := rfl
@[simp] theorem setDisp_key (d : Display) : (s.setDisp d).key = s.key := rfl
@[simp] theorem setDisp_dt (d : Display) : (s.setDisp d).dt = s.dt := rfl
@[simp] theorem setDisp_st (d : Display) : (s.setDisp d).st = s.st := rfl
@[simp] theorem setDisp_run (d : Display) : (s.setDisp d).run = s.run := rfl
@[simp] theorem setDisp_tInstr (d : Display) : (s.setDisp d).tInstr = s.tInstr := rfl
@[simp] theorem setDisp_tTimer (d : Display) : (s.setDisp d).tTimer = s.tTimer := rfl
@[simp] theorem setDisp_diag (d : Display) : (s.setDisp d).diag = s.diag := rfl
@[simp] theorem setDisp_draws (d : Display) : (s.setDisp d).draws = s.draws := rfl
@[simp] theorem setDisp_events (d : Display) : (s.setDisp d).events = s.events := rfl
@[simp] theorem setDisp_source (d : Display) : (s.setDisp d).source = s.source := rfl
@[simp] theorem reg_setDisp (d : Display) (y : Nibble) : (s.setDisp d).reg y = s.reg y := rfl
@[simp] theorem readMem_setDisp (d : Display) (m : Nat) : (s.setDisp d).readMem m = s.readMem m := rfl
@[simp] theorem keyDown_setDisp (d : Display) (key : Nibble) : (s.setDisp d).keyDown key = s.keyDown key := rfl
@[simp] theorem stackAt_setDisp (d : Display) (entry : Nat) : (s.setDisp d).stackAt entry = s.stackAt entry := rfl

/-! ### setKey -/

@[simp] theorem setKey_params (k : Nibble) (b : Bool) : (s.setKey k b).params = s.params := rfl
@[simp] theorem setKey_mem (k : Nibble) (b : Bool) : (s.setKey k b).mem = s.mem := rfl
@[simp] theorem setKey_v (k : Nibble) (b : Bool) : (s.setKey k b).v = s.v := rfl
@[simp] theorem setKey_i (k : Nibble) (b : Bool) : (s.setKey k b).i = s.i := rfl
@[simp] theorem setKey_pc (k : Nibble) (b : Bool) : (s.setKey k b).pc = s.pc := rfl
@[simp] theorem setKey_stack (k : Nibble) (b : Bool) : (s.setKey k b).stack = s.stack := rfl
@[simp] theorem setKey_sp (k : Nibble) (b : Bool) : (s.setKey k b).sp = s.sp := rfl
@[simp] theorem setKey_disp (k : Nibble) (b : Bool) : (s.setKey k b).disp = s.disp := rfl
@[simp] theorem setKey_key (k : Nibble) (b : Bool) : (s.setKey k b).key = s.key.set k.toNat b k.isLt := rfl
@[simp] theorem setKey_dt (k : Nibble) (b : Bool) : (s.setKey k b).dt = s.dt := rfl
@[simp] theorem setKey_st (k : Nibble) (b : Bool) : (s.setKey k b).st = s.st := rfl
@[simp] theorem setKey_run (k : Nibble) (b : Bool) : (s.setKey k b).run = s.run := rfl
@[simp] theorem setKey_tInstr (k : Nibble) (b : Bool) : (s.setKey k b).tInstr = s.tInstr := rfl
@[simp] theorem setKey_tTimer (k : Nibble) (b : Bool) : (s.setKey k b).tTimer = s.tTimer := rfl
@[simp] theorem setKey_diag (k : Nibble) (b : Bool) : (s.setKey k b).diag = s.diag := rfl
@[simp] theorem setKey_draws (k : Nibble) (b : Bool) : (s.setKey k b).draws = s.draws := rfl
@[simp] theorem setKey_events (k : Nibble) (b : Bool) : (s.setKey k b).events = s.events := rfl
@[simp] theorem setKey_source (k : Nibble) (b : Bool) : (s.setKey k b).source = s.source := rfl
@[simp] theorem reg_setKey (k : Nibble) (b : Bool) (y : Nibble) : (s.setKey k b).reg y = s.reg y := rfl
@[simp] theorem readMem_setKey (k : Nibble) (b : Bool) (m : Nat) : (s.setKey k b).readMem m = s.readMem m := rfl
@[simp] theorem pixel_setKey (k : Nibble) (b : Bool) (col row : Nat) : (s.setKey k b).pixel col row = s.pixel col row := rfl
@[simp] theorem stackAt_setKey (k : Nibble) (b : Bool) (entry : Nat) : (s.setKey k b).stackAt entry = s.stackAt entry := rfl

/-! ### drawn -/

@[simp] theorem drawn_params : (s.drawn).params = s.params := rfl
@[simp] theorem drawn_mem : (s.drawn).mem = s.mem := rfl
@[simp] theorem drawn_v : (s.drawn).v = s.v := rfl
@[simp] theorem drawn_i : (s.drawn).i = s.i := rfl
@[simp] theorem drawn_pc : (s.drawn).pc = s.pc := rfl
@[simp] theorem drawn_stack : (s.drawn).stack = s.stack := rfl
@[simp] theorem drawn_sp : (s.drawn).sp = s.sp := rfl
@[simp] theorem drawn_disp : (s.drawn).disp = s.disp := rfl
@[simp] theorem drawn_key : (s.drawn).key = s.key := rfl
@[simp] theorem drawn_dt : (s.drawn).dt = s.dt := rfl
@[simp] theorem drawn_st : (s.drawn).st = s.st := rfl
@[simp] theorem drawn_run : (s.drawn).run = s.run := rfl
@[simp] theorem drawn_tInstr : (s.drawn).tInstr = s.tInstr := rfl
@[simp] theorem drawn_tTimer : (s.drawn).tTimer = s.tTimer := rfl
@[simp] theorem drawn_diag : (s.drawn).diag = s.diag := rfl
@[simp] theorem drawn_draws : (s.drawn).draws = s.draws + 1 := rfl
@[simp] theorem drawn_events : (s.drawn).events = s.events := rfl
@[simp] theorem drawn_source : (s.drawn).source = s.source := rfl
@[simp] theorem reg_drawn (y : Nibble) : (s.drawn).reg y = s.reg y := rfl
@[simp] theorem readMem_drawn (m : Nat) : (s.drawn).readMem m = s.readMem m := rfl
@[simp] theorem pixel_drawn (col row : Nat) : (s.drawn).pixel col row = s.pixel col row := rfl
@[simp] theorem stackAt_drawn (entry : Nat) : (s.drawn).stackAt entry = s.stackAt entry := rfl
@[simp] theorem keyDown_drawn (key : Nibble) : (s.drawn).keyDown key = s.keyDown key := rfl

/-! ### report -/

@[simp] theorem report_params (d : Diag) : (s.report d).params = s.params := rfl
@[simp] theorem report_mem (d : Diag) : (s.report d).mem = s.mem := rfl
@[simp] theorem report_v (d : Diag) : (s.report d).v = s.v := rfl
@[simp] theorem report_i (d : Diag) : (s.report d).i = s.i := rfl
@[simp] theorem report_pc (d : Diag) : (s.report d).pc = s.pc := rfl
@[simp] theorem report_stack (d : Diag) : (s.report d).stack = s.stack := rfl
@[simp] theorem report_sp (d : Diag) : (s.report d).sp = s.sp := rfl
@[simp] theorem report_disp (d : Diag) : (s.report d).disp = s.disp := rfl
@[simp] theorem report_key (d : Diag) : (s.report d).key = s.key := rfl
@[simp] theorem report_dt (d : Diag) : (s.report d).dt = s.dt := rfl
@[simp] theorem report_st (d : Diag) : (s.report d).st = s.st := rfl
@[simp] theorem report_run (d : Diag) : (s.report d).run = s.run := rfl
@[simp] theorem report_tInstr (d : Diag) : (s.report d).tInstr = s.tInstr := rfl
@[simp] theorem report_tTimer (d : Diag) : (s.report d).tTimer = s.tTimer := rfl
@[simp] theorem report_diag (d : Diag) : (s.report d).diag = s.diag ++ [d] := rfl
@[simp] theorem report_draws (d : Diag) : (s.report d).draws = s.draws := rfl
@[simp] theorem report_events (d : Diag) : (s.report d).events = s.events := rfl
@[simp] theorem report_source (d : Diag) : (s.report d).source = s.source := rfl
@[simp] theorem reg_report (d : Diag) (y : Nibble) : (s.report d).reg y = s.reg y := rfl
@[simp] theorem readMem_report (d : Diag) (m : Nat) : (s.report d).readMem m = s.readMem m := rfl
@[simp] theorem pixel_report (d : Diag) (col row : Nat) : (s.report d).pixel col row = s.pixel col row := rfl
@[simp] theorem stackAt_report (d : Diag) (entry : Nat) : (s.report d).stackAt entry = s.stackAt entry := rfl
@[simp] theorem keyDown_report (d : Diag) (key : Nibble) : (s.report d).keyDown key = s.keyDown key := rfl

/-! ### raise -/

@[simp] theorem raise_params (k : BoundsKind) (a : Word) (w : Option Word) : (s.raise k a w).params = s.params := rfl
@[simp] theorem raise_mem (k : BoundsKind) (a : Word) (w : Option Word) : (s.raise k a w).mem = s.mem := rfl
@[simp] theorem raise_v (k : BoundsKind) (a : Word) (w : Option Word) : (s.raise k a w).v = s.v := rfl
@[simp] theorem raise_i (k : BoundsKind) (a : Word) (w : Option Word) : (s.raise k a w).i = s.i := rfl
@[simp] theorem raise_pc (k : BoundsKind) (a : Word) (w : Option Word) : (s.raise k a w).pc = s.pc := rfl
@[simp] theorem raise_stack (k : BoundsKind) (a : Word) (w : Option Word) : (s.raise k a w).stack = s.stack := rfl
@[simp] theorem raise_sp (k : BoundsKind) (a : Word) (w : Option Word) : (s.raise k a w).sp = s.sp := rfl
@[simp] theorem raise_disp (k : BoundsKind) (a : Word) (w : Option Word) : (s.raise k a w).disp = s.disp := rfl
@[simp] theorem raise_key (k : BoundsKind) (a : Word) (w : Option Word) : (s.raise k a w).key = s.key := rfl
@[simp] theorem raise_dt (k : BoundsKind) (a : Word) (w : Option Word) : (s.raise k a w).dt = s.dt := rfl
@[simp] theorem raise_st (k : BoundsKind) (a : Word) (w : Option Word) : (s.raise k a w).st = s.st := rfl
@[simp] theorem raise_run (k : BoundsKind) (a : Word) (w : Option Word) : (s.raise k a w).run = .faulted ⟨k, a, w⟩ := rfl
@[simp] theorem raise_tInstr (k : BoundsKind) (a : Word) (w : Option Word) : (s.raise k a w).tInstr = s.tInstr := rfl
@[simp] theorem raise_tTimer (k : BoundsKind) (a : Word) (w : Option Word) : (s.raise k a w).tTimer = s.tTimer := rfl
@[simp] theorem raise_diag (k : BoundsKind) (a : Word) (w : Option Word) : (s.raise k a w).diag = s.diag ++ [⟨.bounds k, a, w⟩] := rfl
@[simp] theorem raise_draws (k : BoundsKind) (a : Word) (w : Option Word) : (s.raise k a w).draws = s.draws := rfl
@[simp] theorem raise_events (k : BoundsKind) (a : Word) (w : Option Word) : (s.raise k a w).events = s.events := rfl
@[simp] theorem raise_source (k : BoundsKind) (a : Word) (w : Option Word) : (s.raise k a w).source = s.source := rfl
@[simp] theorem reg_raise (k : BoundsKind) (a : Word) (w : Option Word) (y : Nibble) : (s.raise k a w).reg y = s.reg y := rfl
@[simp] theorem readMem_raise (k : BoundsKind) (a : Word) (w : Option Word) (m : Nat) : (s.raise k a w).readMem m = s.readMem m := rfl
@[simp] theorem pixel_raise (k : BoundsKind) (a : Word) (w : Option Word) (col row : Nat) : (s.raise k a w).pixel col row = s.pixel col row := rfl
@[simp] theorem stackAt_raise (k : BoundsKind) (a : Word) (w : Option Word) (entry : Nat) : (s.raise k a w).stackAt entry = s.stackAt entry := rfl
@[simp] theorem keyDown_raise (k : BoundsKind) (a : Word) (w : Option Word) (key : Nibble) : (s.raise k a w).keyDown key = s.keyDown key := rfl

/-! ### reportInstr -/

@[simp] theorem reportInstr_params (c : DiagCode) (j : Instr) : (s.reportInstr c j).params = s.params := rfl
@[simp] theorem reportInstr_mem (c : DiagCode) (j : Instr) : (s.reportInstr c j).mem = s.mem := rfl
@[simp] theorem reportInstr_v (c : DiagCode) (j : Instr) : (s.reportInstr c j).v = s.v := rfl
@[simp] theorem reportInstr_i (c : DiagCode) (j : Instr) : (s.reportInstr c j).i = s.i := rfl
@[simp] theorem reportInstr_pc (c : DiagCode) (j : Instr) : (s.reportInstr c j).pc = s.pc := rfl
@[simp] theorem reportInstr_stack (c : DiagCode) (j : Instr) : (s.reportInstr c j).stack = s.stack := rfl
@[simp] theorem reportInstr_sp (c : DiagCode) (j : Instr) : (s.reportInstr c j).sp = s.sp := rfl
@[simp] theorem reportInstr_disp (c : DiagCode) (j : Instr) : (s.reportInstr c j).disp = s.disp := rfl
@[simp] theorem reportInstr_key (c : DiagCode) (j : Instr) : (s.reportInstr c j).key = s.key := rfl
@[simp] theorem reportInstr_dt (c : DiagCode) (j : Instr) : (s.reportInstr c j).dt = s.dt := rfl
@[simp] theorem reportInstr_st (c : DiagCode) (j : Instr) : (s.reportInstr c j).st = s.st := rfl
@[simp] theorem reportInstr_run (c : DiagCode) (j : Instr) : (s.reportInstr c j).run = s.run := rfl
@[simp] theorem reportInstr_tInstr (c : DiagCode) (j : Instr) : (s.reportInstr c j).tInstr = s.tInstr := rfl
@[simp] theorem reportInstr_tTimer (c : DiagCode) (j : Instr) : (s.reportInstr c j).tTimer = s.tTimer := rfl
@[simp] theorem reportInstr_diag (c : DiagCode) (j : Instr) : (s.reportInstr c j).diag = s.diag ++ [⟨c, s.pc - 2, some (encode j)⟩] := rfl
@[simp] theorem reportInstr_draws (c : DiagCode) (j : Instr) : (s.reportInstr c j).draws = s.draws := rfl
@[simp] theorem reportInstr_events (c : DiagCode) (j : Instr) : (s.reportInstr c j).events = s.events := rfl
@[simp] theorem reportInstr_source (c : DiagCode) (j : Instr) : (s.reportInstr c j).source = s.source := rfl
@[simp] theorem reg_reportInstr (c : DiagCode) (j : Instr) (y : Nibble) : (s.reportInstr c j).reg y = s.reg y := rfl
@[simp] theorem readMem_reportInstr (c : DiagCode) (j : Instr) (m : Nat) : (s.reportInstr c j).readMem m = s.readMem m := rfl
@[simp] theorem pixel_reportInstr (c : DiagCode) (j : Instr) (col row : Nat) : (s.reportInstr c j).pixel col row = s.pixel col row := rfl
@[simp] theorem stackAt_reportInstr (c : DiagCode) (j : Instr) (entry : Nat) : (s.reportInstr c j).stackAt entry = s.stackAt entry := rfl
@[simp] theorem keyDown_reportInstr (c : DiagCode) (j : Instr) (key : Nibble) : (s.reportInstr c j).keyDown key = s.keyDown key := rfl

/-! ### raiseInstr -/

@[simp] theorem raiseInstr_params (k : BoundsKind) (j : Instr) : (s.raiseInstr k j).params = s.params := rfl
@[simp] theorem raiseInstr_mem (k : BoundsKind) (j : Instr) : (s.raiseInstr k j).mem = s.mem := rfl
@[simp] theorem raiseInstr_v (k : BoundsKind) (j : Instr) : (s.raiseInstr k j).v = s.v := rfl
@[simp] theorem raiseInstr_i (k : BoundsKind) (j : Instr) : (s.raiseInstr k j).i = s.i := rfl
@[simp] theorem raiseInstr_pc (k : BoundsKind) (j : Instr) : (s.raiseInstr k j).pc = s.pc := rfl
@[simp] theorem raiseInstr_stack (k : BoundsKind) (j : Instr) : (s.raiseInstr k j).stack = s.stack := rfl
@[simp] theorem raiseInstr_sp (k : BoundsKind) (j : Instr) : (s.raiseInstr k j).sp = s.sp := rfl
@[simp] theorem raiseInstr_disp (k : BoundsKind) (j : Instr) : (s.raiseInstr k j).disp = s.disp := rfl
@[simp] theorem raiseInstr_key (k : BoundsKind) (j : Instr) : (s.raiseInstr k j).key = s.key := rfl
@[simp] theorem raiseInstr_dt (k : BoundsKind) (j : Instr) : (s.raiseInstr k j).dt = s.dt := rfl
@[simp] theorem raiseInstr_st (k : BoundsKind) (j : Instr) : (s.raiseInstr k j).st = s.st := rfl
@[simp] theorem raiseInstr_run (k : BoundsKind) (j : Instr) : (s.raiseInstr k j).run = .faulted ⟨k, s.pc - 2, some (encode j)⟩ := rfl
@[simp] theorem raiseInstr_tInstr (k : BoundsKind) (j : Instr) : (s.raiseInstr k j).tInstr = s.tInstr := rfl
@[simp] theorem raiseInstr_tTimer (k : BoundsKind) (j : Instr) : (s.raiseInstr k j).tTimer = s.tTimer := rfl
@[simp] theorem raiseInstr_diag (k : BoundsKind) (j : Instr) : (s.raiseInstr k j).diag = s.diag ++ [⟨.bounds k, s.pc - 2, some (encode j)⟩] := rfl
@[simp] theorem raiseInstr_draws (k : BoundsKind) (j : Instr) : (s.raiseInstr k j).draws = s.draws := rfl
@[simp] theorem raiseInstr_events (k : BoundsKind) (j : Instr) : (s.raiseInstr k j).events = s.events := rfl
@[simp] theorem raiseInstr_source (k : BoundsKind) (j : Instr) : (s.raiseInstr k j).source = s.source := rfl
@[simp] theorem reg_raiseInstr (k : BoundsKind) (j : Instr) (y : Nibble) : (s.raiseInstr k j).reg y = s.reg y := rfl
@[simp] theorem readMem_raiseInstr (k : BoundsKind) (j : Instr) (m : Nat) : (s.raiseInstr k j).readMem m = s.readMem m := rfl
@[simp] theorem pixel_raiseInstr (k : BoundsKind) (j : Instr) (col row : Nat) : (s.raiseInstr k j).pixel col row = s.pixel col row := rfl
@[simp] theorem stackAt_raiseInstr (k : BoundsKind) (j : Instr) (entry : Nat) : (s.raiseInstr k j).stackAt entry = s.stackAt entry := rfl
@[simp] theorem keyDown_raiseInstr (k : BoundsKind) (j : Instr) (key : Nibble) : (s.raiseInstr k j).keyDown key = s.keyDown key := rfl

end Sys2Proof.Machine.State
end

