-- ==== Sys2Proof/Laws/Memory.lean ====
section
/-!
SUPPORT. The laws of memory: a read after a write, the frame of a write, and that every operation on
memory keeps the canonical form.
-/

namespace Sys2Proof.Machine

open Sys2Proof.Config

variable {p : Params}

/-- The defaults meet R7's constraints. -/
theorem defaults_lawful : defaults.lawful = true := by decide

/-- R7's constraints, one by one. -/
theorem Params.lawful_iff : p.lawful = true ↔
    p.memSize ≤ 65536 ∧ p.fontBase + 16 * p.glyphBytes - 1 ≤ p.reservedHi ∧
      p.reservedHi < p.loadAddr ∧ p.loadAddr < p.memSize ∧ p.fontData.length = 16 * p.glyphBytes := by
  simp [Config.Params.lawful, and_assoc]

/-- The canonical form from `lo` on, taken apart at the head. -/
theorem Memory.wfFrom_cons {lo k : Nat} {c : Byte} {m : Memory} :
    Memory.wfFrom p lo ((k, c) :: m) = true ↔
      lo ≤ k ∧ k < p.memSize ∧ c ≠ Memory.initial p k ∧ Memory.wfFrom p (k + 1) m = true := by
  simp [Memory.wfFrom, and_assoc]

/-- A memory canonical from `hi` on is canonical from any lower address on. -/
theorem Memory.wfFrom_mono {lo hi : Nat} {m : Memory} (h : Memory.wfFrom p hi m = true)
    (le : lo ≤ hi) : Memory.wfFrom p lo m = true := by
  cases m with
  | nil => rfl
  | cons c m =>
    obtain ⟨h1, h2, h3, h4⟩ := Memory.wfFrom_cons.1 h
    exact Memory.wfFrom_cons.2 ⟨by omega, h2, h3, h4⟩

/-- Below its first address a canonical memory reads as nothing written. -/
theorem Memory.read_below {lo a : Nat} {m : Memory} (h : Memory.wfFrom p lo m = true) (lt : a < lo) :
    Memory.read p m a = Memory.initial p a := by
  induction m generalizing lo with
  | nil => rfl
  | cons c m ih =>
    obtain ⟨h1, -, -, h4⟩ := Memory.wfFrom_cons.1 h
    simp only [Memory.read, if_neg (show a ≠ c.1 by omega)]
    exact ih h4 (by omega)

/-- `put` lists a byte, or leaves it to the reset contents it equals. -/
theorem Memory.wfFrom_put {lo a : Nat} {b : Byte} {m : Memory} (h : Memory.wfFrom p (a + 1) m = true)
    (le : lo ≤ a) (lt : a < p.memSize) : Memory.wfFrom p lo (Memory.put p a b m) = true := by
  unfold Memory.put
  split
  · exact Memory.wfFrom_mono h (by omega)
  · next ne => exact Memory.wfFrom_cons.2 ⟨le, lt, ne, h⟩

theorem Memory.read_put {a x : Nat} {b : Byte} {m : Memory} (h : Memory.wfFrom p (a + 1) m = true) :
    Memory.read p (Memory.put p a b m) x = if x = a then b else Memory.read p m x := by
  unfold Memory.put
  split
  · next e =>
    split
    · next hx => rw [hx, Memory.read_below h (by omega), e]
    · rfl
  · rfl

/-- A write keeps the canonical form. -/
theorem Memory.wfFrom_write {lo a : Nat} {b : Byte} {m : Memory} (h : Memory.wfFrom p lo m = true)
    (le : lo ≤ a) (lt : a < p.memSize) : Memory.wfFrom p lo (Memory.write p m a b) = true := by
  induction m generalizing lo with
  | nil => exact Memory.wfFrom_put rfl le lt
  | cons c m ih =>
    obtain ⟨h1, h2, h3, h4⟩ := Memory.wfFrom_cons.1 h
    simp only [Memory.write]
    split
    · exact Memory.wfFrom_put (Memory.wfFrom_cons.2 ⟨by omega, h2, h3, h4⟩) le lt
    · split
      · next e => subst e; exact Memory.wfFrom_put h4 le lt
      · exact Memory.wfFrom_cons.2 ⟨h1, h2, h3, ih h4 (by omega)⟩

/-- What an address reads as after a write: the byte written there, else what it read as before. -/
theorem Memory.read_write_of_wfFrom {lo a x : Nat} {b : Byte} {m : Memory}
    (h : Memory.wfFrom p lo m = true) : Memory.read p (Memory.write p m a b) x = if x = a then b else Memory.read p m x := by
  induction m generalizing lo with
  | nil => exact Memory.read_put rfl
  | cons c m ih =>
    obtain ⟨h1, h2, h3, h4⟩ := Memory.wfFrom_cons.1 h
    simp only [Memory.write]
    split
    · exact Memory.read_put (Memory.wfFrom_cons.2 ⟨by omega, h2, h3, h4⟩)
    · split
      · next e =>
        subst e
        rw [Memory.read_put h4]
        simp only [Memory.read]
        split <;> simp_all
      · next ne =>
        simp only [Memory.read, ih h4]
        by_cases e : x = c.1
        · rw [if_pos e, if_neg (by omega), if_pos e]
        · rw [if_neg e, if_neg e]

theorem Memory.wf_write {m : Memory} {a : Nat} {b : Byte} (h : Memory.wf p m = true) (lt : a < p.memSize) :
    Memory.wf p (Memory.write p m a b) = true :=
  Memory.wfFrom_write h (Nat.zero_le a) lt

theorem Memory.read_write {m : Memory} (h : Memory.wf p m = true) (a x : Nat) (b : Byte) :
    Memory.read p (Memory.write p m a b) x = if x = a then b else Memory.read p m x :=
  Memory.read_write_of_wfFrom h

/-- Writing does not look at what stands elsewhere: a byte can be read back from any memory. -/
theorem Memory.read_write_same (m : Memory) (a : Nat) (b : Byte) (h : Memory.wf p m = true) :
    Memory.read p (Memory.write p m a b) a = b := by simp [Memory.read_write h]

/-- What a run of byte writes leaves at an address. -/
theorem State.readMem_writeBytes {s : State} (h : Memory.wf s.params s.mem = true) (a : Nat) (bs : List Byte)
    (fit : a + bs.length ≤ s.params.memSize) (x : Nat) :
    (s.writeBytes a bs).readMem x =
      if lt : a ≤ x ∧ x < a + bs.length then bs[x - a]'(by omega) else s.readMem x := by
  induction bs generalizing s a with
  | nil => simp [State.writeBytes]
  | cons b bs ih =>
    have h' : Memory.wf s.params (s.writeMem a b).mem = true := Memory.wf_write h (by simp at fit; omega)
    rw [State.writeBytes, ih (s := s.writeMem a b) h' (a + 1) (by simp at fit ⊢; omega)]
    have hr : (s.writeMem a b).readMem x = if x = a then b else s.readMem x :=
      Memory.read_write h a x b
    by_cases h1 : a + 1 ≤ x ∧ x < a + 1 + bs.length
    · obtain ⟨i, rfl⟩ := Nat.exists_eq_add_of_le h1.1
      have : a + 1 + i - a = i + 1 := by omega
      rw [dif_pos h1, dif_pos (by simp; omega)]
      simp [this]
    · rw [dif_neg h1, hr]
      by_cases h2 : x = a
      · subst h2; simp
      · rw [if_neg h2, dif_neg (by simp; omega)]

/-- A run of byte writes inside memory keeps the canonical form. -/
theorem State.wf_writeBytes {s : State} (h : Memory.wf s.params s.mem = true) (a : Nat) (bs : List Byte)
    (fit : a + bs.length ≤ s.params.memSize) : Memory.wf s.params (s.writeBytes a bs).mem = true := by
  induction bs generalizing s a with
  | nil => exact h
  | cons b bs ih =>
    simp only [List.length_cons] at fit
    have h' : Memory.wf s.params (s.writeMem a b).mem = true := Memory.wf_write h (by omega)
    exact ih (s := s.writeMem a b) h' (a + 1)
      (show a + 1 + bs.length ≤ s.params.memSize by omega)

/-- A run of byte writes changes memory alone. -/
theorem State.writeBytes_frame (s : State) (a : Nat) (bs : List Byte) :
    s.writeBytes a bs = { s with mem := (s.writeBytes a bs).mem } := by
  induction bs generalizing s a with
  | nil => rfl
  | cons b bs ih => exact ih (s.writeMem a b) (a + 1)

@[simp] theorem State.writeBytes_params (s : State) (a : Nat) (bs : List Byte) :
    (s.writeBytes a bs).params = s.params := by rw [State.writeBytes_frame]

end Sys2Proof.Machine
end

