-- ==== Sys2Proof/Laws/Ops.lean ====
section
/-!
SUPPORT. One lemma per shared operation that says everything it can do.
-/

namespace Sys2Proof.Machine

open Sys2Proof.Config

/-! ### Registers and keypad -/

@[simp] theorem State.reg_setReg (s : State) (x : Nibble) (b : Byte) (y : Nibble) :
    (s.setReg x b).reg y = if y = x then b else s.reg y := by
  simp only [State.reg, State.setReg, Vector.getElem_set, BitVec.toNat_inj]
  simp only [eq_comm (a := x)]

@[simp] theorem State.keyDown_setKey (s : State) (k : Nibble) (b : Bool) (j : Nibble) :
    (s.setKey k b).keyDown j = if j = k then b else s.keyDown j := by
  simp only [State.keyDown, State.setKey, Vector.getElem_set, BitVec.toNat_inj]
  simp only [eq_comm (a := k)]

/-- Two states with the same registers, read one by one, hold the same register file. -/
theorem State.v_ext {s t : State} (h : ∀ x, s.reg x = t.reg x) : s.v = t.v := by
  apply Vector.ext
  intro i hi
  have := h (BitVec.ofNat 4 i)
  have hn : (BitVec.ofNat 4 i).toNat = i := Nat.mod_eq_of_lt hi
  simpa only [State.reg, hn] using this

/-- A flag-setting operation: VF holds the flag and X the result; where X is VF, the one written last. -/
theorem State.reg_setRegFlag (s : State) (x : Nibble) (r f : Byte) (y : Nibble) :
    (s.setRegFlag x r f).reg y =
      if y = vf then (if x = vf ∧ s.params.flagOrder = .resultLast then r else f)
      else if y = x then r else s.reg y := by
  unfold State.setRegFlag
  cases o : s.params.flagOrder <;> by_cases e : y = vf <;> by_cases d : x = vf <;> simp_all
  · intro h; exact absurd h.symm d

/-- A flag-setting operation changes the register file alone. -/
theorem State.setRegFlag_frame (s : State) (x : Nibble) (r f : Byte) :
    s.setRegFlag x r f = { s with v := (s.setRegFlag x r f).v } := by
  unfold State.setRegFlag
  split <;> rfl

/-! ### Skips -/

theorem State.skipIf_eq (s : State) (c : Bool) :
    s.skipIf c = { s with pc := if c then s.pc + 2 else s.pc } := by
  cases c <;> rfl

/-! ### Call stack -/

/-- A stack entry is no wider than STACK_ENTRY_W. -/
theorem Params.stackEntry_toNat (p : Params) (w : Word) :
    (p.stackEntry w).toNat = w.toNat % 2 ^ p.stackEntryW := by
  rw [Config.Params.stackEntry, BitVec.toNat_ofNat]
  exact Nat.mod_eq_of_lt (Nat.lt_of_le_of_lt (Nat.mod_le ..) w.isLt)

theorem Params.stackEntry_le (p : Params) (w : Word) : (p.stackEntry w).toNat ≤ w.toNat := by
  rw [Params.stackEntry_toNat]; exact Nat.mod_le ..

/-- An address that fits is held whole. -/
theorem Params.stackEntry_of_lt {p : Params} {w : Word} (h : w.toNat < 2 ^ p.stackEntryW) :
    p.stackEntry w = w :=
  BitVec.eq_of_toNat_eq (by rw [Params.stackEntry_toNat, Nat.mod_eq_of_lt h])

/-- What a push can do (R132). -/
theorem State.push_eq_some {s t : State} {w : Word} : s.push w = some t ↔
    s.sp < s.params.stackDepth ∧
      t = { s with stack := s.stack.set s.sp (s.params.stackEntry w), sp := s.sp + 1 } := by
  unfold State.push
  split
  · next lt => simp [lt, eq_comm]
  · next ge => simp [ge]

theorem State.push_eq_none {s : State} {w : Word} : s.push w = none ↔ s.params.stackDepth ≤ s.sp := by
  simp [State.push]

/-- What a pop can do (R130). -/
theorem State.pop_eq_some {s t : State} {w : Word} : s.pop = some (w, t) ↔
    0 < s.sp ∧ w = s.stackAt (s.sp - 1) ∧ t = { s with sp := s.sp - 1 } := by
  unfold State.pop
  split
  · next gt => simp [gt, eq_comm]
  · next le => simp [le]

theorem State.pop_eq_none {s : State} : s.pop = none ↔ s.sp = 0 := by
  unfold State.pop
  split
  · next gt => simp; omega
  · simp; omega

/-- Setting one entry of a stack (R132). -/
theorem getD_set {l : List Word} {n : Nat} (lt : n < l.length) (w : Word) (k : Nat) :
    (l.set n w).getD k 0 = if k = n then w else l.getD k 0 := by
  simp only [List.getD_eq_getElem?_getD, List.getElem?_set]
  by_cases e : n = k
  · subst e; simp [lt]
  · simp [e, Ne.symm e]

/-! ### The form of a state -/

theorem State.shaped_iff {s : State} : s.shaped = true ↔
    s.stack.length = s.params.stackDepth ∧ s.sp ≤ s.params.stackDepth ∧
      (∀ w ∈ s.stack, w.toNat < 2 ^ s.params.stackEntryW) ∧ Display.shaped s.params s.disp = true := by
  simp [State.shaped, and_assoc]

theorem State.wf_iff {s : State} : s.wf = true ↔
    s.params.lawful = true ∧ Memory.wf s.params s.mem = true ∧ s.shaped = true := by
  simp [State.wf, and_assoc]

/-- The form of a state looks at its parameters, memory, stack and display alone. -/
theorem State.wf_congr {s t : State} (hp : t.params = s.params) (hm : t.mem = s.mem)
    (hk : t.stack = s.stack) (hs : t.sp = s.sp) (hd : t.disp = s.disp) : t.wf = s.wf := by
  simp only [State.wf, State.shaped, hp, hm, hk, hs, hd]

/-- A machine starts in its form (R29, R313). -/
theorem State.shaped_initial (p : Params) : (State.initial p).shaped = true := by
  refine State.shaped_iff.2 ⟨List.length_replicate, Nat.zero_le _, ?_, ?_⟩
  · intro w hw
    rw [List.eq_of_mem_replicate hw]
    exact Nat.two_pow_pos _
  · simp [Display.shaped, State.initial]

/-! ### Bounds -/

theorem inMemory_iff {p : Params} {a n : Nat} :
    inMemory p a n = true ↔ ∀ k, k < n → a + k < p.memSize := by
  simp [inMemory]

/-- Every address of a non-empty range is in memory exactly when the last one is (R253 to R255). -/
theorem inMemory_succ {p : Params} {a n : Nat} : inMemory p a (n + 1) = true ↔ a + n < p.memSize := by
  rw [inMemory_iff]
  exact ⟨fun h => h n (by omega), fun h k hk => by omega⟩

/-- When a store is performed (R51, R56). -/
theorem storeAllowed_iff {p : Params} {a n : Nat} : storeAllowed p a n = true ↔
    inMemory p a n = true ∧ (p.reservedWrite = .fault →
      ∀ k, k < n → ¬(p.reservedLo ≤ a + k ∧ a + k ≤ p.reservedHi)) := by
  simp only [storeAllowed, meetsReserved, Bool.and_eq_true, Bool.not_eq_true', Bool.and_eq_false_imp,
    decide_eq_true_eq, List.any_eq_false, List.mem_range]

/-- The key a register names (R220). -/
theorem State.keyIndex_eq_some {s : State} {x k : Nibble} :
    s.keyIndex x = some k ↔ (s.reg x).toNat ≤ 0xF ∧ k = (s.reg x).setWidth 4 := by
  unfold State.keyIndex
  split
  · next gt => exact ⟨fun h => (nomatch h), fun h => absurd gt (by omega)⟩
  · exact ⟨fun h => ⟨by omega, (Option.some.inj h).symm⟩, fun h => congrArg some h.2.symm⟩

theorem State.keyIndex_eq_none {s : State} {x : Nibble} :
    s.keyIndex x = none ↔ 0xF < (s.reg x).toNat := by
  unfold State.keyIndex
  split
  · next gt => exact ⟨fun _ => gt, fun _ => rfl⟩
  · next le => exact ⟨fun h => (nomatch h), fun h => absurd h le⟩

/-! ### Block transfers -/

@[simp] theorem State.regBlock_length (s : State) (x : Nibble) :
    (s.regBlock x).length = x.toNat + 1 := by simp [State.regBlock]

/-- What a block transfer leaves in I (R254, R255). -/
theorem State.blockEnd_eq (s : State) (x : Nibble) :
    s.blockEnd x = { s with
      i := if s.params.blockIMode = .advanceXPlus1 then s.i + (zext16 x + 1) else s.i } := by
  unfold State.blockEnd
  cases s.params.blockIMode <;> rfl

theorem State.regBlock_getElem (s : State) (x : Nibble) (k : Nat) (h : k < (s.regBlock x).length) :
    (s.regBlock x)[k] = s.reg (BitVec.ofNat 4 k) := by simp [State.regBlock]

/-- Loading one register more. -/
theorem State.loadBlock_succ (s : State) (a n : Nat) :
    s.loadBlock a (n + 1) =
      (s.loadBlock a n).setReg (BitVec.ofNat 4 n) ((s.loadBlock a n).readMem (a + n)) := by
  simp [State.loadBlock, List.range_succ]

/-- A block load changes the register file alone. -/
theorem State.loadBlock_frame (s : State) (a n : Nat) :
    s.loadBlock a n = { s with v := (s.loadBlock a n).v } := by
  induction n with
  | zero => rfl
  | succ n ih =>
    rw [State.loadBlock_succ]
    generalize (s.loadBlock a n).readMem (a + n) = b
    rw [ih]
    rfl

/-- What a block load leaves in each register (R255). -/
theorem State.reg_loadBlock (s : State) (a n : Nat) (le : n ≤ 16) (y : Nibble) :
    (s.loadBlock a n).reg y = if y.toNat < n then s.readMem (a + y.toNat) else s.reg y := by
  induction n with
  | zero => simp [State.loadBlock]
  | succ n ih =>
    have hm : (s.loadBlock a n).readMem (a + n) = s.readMem (a + n) := by
      rw [State.loadBlock_frame]; rfl
    have hn : (BitVec.ofNat 4 n).toNat = n := by
      rw [BitVec.toNat_ofNat]; exact Nat.mod_eq_of_lt (by omega)
    rw [State.loadBlock_succ, State.reg_setReg, ih (by omega), hm]
    by_cases e : y = BitVec.ofNat 4 n
    · subst e; simp [hn]
    · have : y.toNat ≠ n := fun h => e (BitVec.eq_of_toNat_eq (by rw [hn]; exact h))
      rw [if_neg e]
      by_cases lt : y.toNat < n
      · rw [if_pos lt, if_pos (by omega)]
      · rw [if_neg lt, if_neg (by omega)]

end Sys2Proof.Machine
end

