-- ==== Sys2Proof/Laws/Draw.lean ====
section
/-!
SUPPORT. What drawing leaves in each pixel, and when it collides (spec 43_display.md R201 to R203). A
pixel is touched at most once in a draw, because a sprite is 8 columns wide and no higher than the display:
the parameters the rule's corner case names.
-/

namespace Sys2Proof.Machine

open Sys2Proof.Config

variable {p : Params}

/-! ### The grid -/

theorem Display.shaped_iff {d : Display} : d.shaped p = true ↔
    d.length = p.dispW ∧ ∀ col ∈ d, col.length = p.dispH := by simp [Display.shaped]

/-- Inverting one pixel keeps the grid's shape. -/
theorem Display.shaped_toggle {d : Display} (h : d.shaped p = true) (x y : Nat) :
    (d.toggle x y).shaped p = true := by
  obtain ⟨len, cols⟩ := Display.shaped_iff.1 h
  refine Display.shaped_iff.2 ⟨by simp [Display.toggle, len], fun col mem => ?_⟩
  obtain ⟨k, lt, rfl⟩ := List.mem_iff_getElem.1 mem
  simp only [Display.toggle, List.getElem_modify]
  split
  · rw [List.length_modify]; exact cols _ (List.getElem_mem _)
  · exact cols _ (List.getElem_mem _)

/-- Inverting one pixel of the grid changes that pixel alone. -/
theorem Display.get_toggle {d : Display} (h : d.shaped p = true) {x y : Nat} (hx : x < p.dispW)
    (hy : y < p.dispH) (px py : Nat) :
    (d.toggle x y).get px py = (d.get px py ^^ decide (px = x ∧ py = y)) := by
  obtain ⟨len, cols⟩ := Display.shaped_iff.1 h
  have hx' : x < d.length := len ▸ hx
  unfold Display.get Display.toggle
  by_cases e : px = x
  · subst e
    have hc : (d[px]).length = p.dispH := cols _ (List.getElem_mem _)
    simp only [List.getD_eq_getElem?_getD, List.getElem?_modify, List.getElem?_eq_getElem hx',
      Option.map_some, Option.getD_some, if_true, Option.map_eq_map]
    by_cases f : py = y
    · subst f
      rw [List.getElem?_eq_getElem (by omega)]
      simp
    · simp [f, Ne.symm f]
  · simp [List.getD_eq_getElem?_getD, e, Ne.symm e]

@[simp] theorem Display.get_blank (px py : Nat) : (Display.blank p).get px py = false := by
  simp only [Display.get, Display.blank, List.getD_eq_getElem?_getD, List.getElem?_replicate]
  split
  · simp only [Option.getD_some, List.getElem?_replicate]
    split <;> rfl
  · rfl

theorem Display.shaped_blank : (Display.blank p).shaped p = true := by
  simp [Display.shaped, Display.blank]

/-- Grids of one shape that agree pixel by pixel are equal. -/
theorem Display.ext {d e : Display} (hd : d.shaped p = true) (he : e.shaped p = true)
    (h : ∀ x y, d.get x y = e.get x y) : d = e := by
  obtain ⟨dl, dc⟩ := Display.shaped_iff.1 hd
  obtain ⟨el, ec⟩ := Display.shaped_iff.1 he
  refine List.ext_getElem (dl.trans el.symm) fun x hx hx' => ?_
  have c1 := dc _ (List.getElem_mem hx)
  have c2 := ec _ (List.getElem_mem hx')
  refine List.ext_getElem (c1.trans c2.symm) fun y hy hy' => ?_
  simpa [Display.get, List.getD_eq_getElem?_getD, hx, hx', hy, hy'] using h x y

/-! ### Where a sprite lands -/

/-- Bit 7 − k of `b` is set for some column k below `m` that lands on (px, py). -/
def rowHits (p : Params) (b : Byte) (x0 y m px py : Nat) : Prop :=
  ∃ k, k < m ∧ b.getLsbD (7 - k) = true ∧ px = (x0 + k) % p.dispW ∧ py = y % p.dispH

/-- Some set bit of a sprite row lands on (px, py), rows counted from `y0` down. -/
def spriteHits (p : Params) (bs : List Byte) (x0 y0 px py : Nat) : Prop :=
  ∃ r, ∃ h : r < bs.length, rowHits p (bs[r]) x0 (y0 + r) 8 px py

theorem rowHits_succ {b : Byte} {x0 y m px py : Nat} :
    rowHits p b x0 y (m + 1) px py ↔
      rowHits p b x0 y m px py ∨
        (b.getLsbD (7 - m) = true ∧ px = (x0 + m) % p.dispW ∧ py = y % p.dispH) := by
  constructor
  · rintro ⟨k, hk, rest⟩
    by_cases e : k = m
    · subst e; exact .inr rest
    · exact .inl ⟨k, by omega, rest⟩
  · rintro (⟨k, hk, rest⟩ | rest)
    · exact ⟨k, by omega, rest⟩
    · exact ⟨m, by omega, rest⟩

/-- Numbers less than `n` apart differ modulo `n`. -/
theorem mod_ne {a k n : Nat} (pos : 0 < k) (lt : k < n) : (a + k) % n ≠ a % n := by
  intro e
  have h : k % n = 0 % n := Nat.ModEq.add_left_cancel' a e
  rw [Nat.mod_eq_of_lt lt, Nat.zero_mod] at h
  omega

/-- The columns of one row land on different pixels. -/
theorem not_rowHits_next {b : Byte} {x0 y m : Nat} (w : 8 ≤ p.dispW) (le : m < 8) {px py : Nat}
    (e : px = (x0 + m) % p.dispW) : ¬rowHits p b x0 y m px py := by
  rintro ⟨k, hk, -, e', -⟩
  have := mod_ne (a := x0 + k) (k := m - k) (n := p.dispW) (by omega) (by omega)
  rw [show x0 + k + (m - k) = x0 + m by omega] at this
  exact this (e.symm.trans e')

/-! ### Coordinates -/

/-- Where DXYN reads a coordinate from, by DRAW_VF_ORDER (R201). -/
theorem State.reg_coordSource (s : State) (x : Nibble) :
    s.coordSource.reg x = if x = vf ∧ s.params.drawVfOrder = .clearFirst then 0 else s.reg x := by
  unfold State.coordSource
  cases s.params.drawVfOrder <;> simp

/-! ### Drawing -/

/-- A canvas of the grid's shape is `done` from `c` by the pixels `P`: those are inverted, and the canvas has
collided when one of them was set. -/
structure DoneBy (p : Params) (c c' : Canvas) (P : Nat → Nat → Prop) : Prop where
  shape : c'.disp.shaped p = true
  pixels : ∀ px py, c'.disp.get px py = true ↔
    (P px py ∧ c.disp.get px py = false) ∨ (¬P px py ∧ c.disp.get px py = true)
  hit : c'.hit = true ↔ c.hit = true ∨ ∃ px py, P px py ∧ c.disp.get px py = true

theorem DoneBy.none {c : Canvas} {P : Nat → Nat → Prop} (s : c.disp.shaped p = true)
    (h : ∀ px py, ¬P px py) : DoneBy p c c P :=
  ⟨s, fun px py => by simp [h px py], by simp [h]⟩

theorem DoneBy.plot {c : Canvas} (s : c.disp.shaped p = true) (w : 0 < p.dispW) (h : 0 < p.dispH)
    (x y : Nat) : DoneBy p c (c.plot p x y) fun px py => px = x % p.dispW ∧ py = y % p.dispH := by
  refine ⟨Display.shaped_toggle s _ _, fun px py => ?_, by simp [Canvas.plot]⟩
  simp only [Canvas.plot, Display.get_toggle s (Nat.mod_lt _ w) (Nat.mod_lt _ h)]
  by_cases h : px = x % p.dispW ∧ py = y % p.dispH <;> simp [h]

/-- Drawing disjoint pixels one set after the other. -/
theorem DoneBy.trans {c c1 c2 : Canvas} {P Q R : Nat → Nat → Prop} (h1 : DoneBy p c c1 P)
    (h2 : DoneBy p c1 c2 Q) (disj : ∀ px py, Q px py → ¬P px py)
    (e : ∀ px py, R px py ↔ P px py ∨ Q px py) : DoneBy p c c2 R := by
  have same : ∀ px py, Q px py → (c1.disp.get px py = true ↔ c.disp.get px py = true) := by
    intro px py q
    rw [h1.pixels]
    simp [disj px py q]
  refine ⟨h2.shape, fun px py => ?_, ?_⟩
  · have a := h1.pixels px py
    have b := h2.pixels px py
    have d := disj px py
    simp only [e, ← Bool.not_eq_true] at a b ⊢
    rw [b, a]
    by_cases p : P px py <;> by_cases q : Q px py <;> simp [p, q]
    exact d q p
  · rw [h2.hit, h1.hit, or_assoc]
    refine or_congr_right ?_
    constructor
    · rintro (⟨px, py, p, g⟩ | ⟨px, py, q, g⟩)
      · exact ⟨px, py, (e px py).2 (.inl p), g⟩
      · exact ⟨px, py, (e px py).2 (.inr q), (same px py q).1 g⟩
    · rintro ⟨px, py, r, g⟩
      rcases (e px py).1 r with p | q
      · exact .inl ⟨px, py, p, g⟩
      · exact .inr ⟨px, py, q, (same px py q).2 g⟩

theorem DoneBy.congr {c c' : Canvas} {P Q : Nat → Nat → Prop} (h : DoneBy p c c' P)
    (e : ∀ px py, P px py ↔ Q px py) : DoneBy p c c' Q := by
  have : P = Q := funext fun px => funext fun py => propext (e px py)
  exact this ▸ h

/-- The first `m` columns of a sprite row. -/
theorem drawCols_done {c : Canvas} (s : c.disp.shaped p = true) (w : 8 ≤ p.dispW) (h : 0 < p.dispH)
    (x0 y : Nat) (b : Byte) (m : Nat) (le : m ≤ 8) :
    DoneBy p c ((List.range m).foldl
      (fun c k => if b.getLsbD (7 - k) then c.plot p (x0 + k) y else c) c) (rowHits p b x0 y m) := by
  induction m with
  | zero => exact DoneBy.none s (by rintro px py ⟨k, hk, -⟩; omega)
  | succ m ih =>
    rw [List.range_succ, List.foldl_append]
    simp only [List.foldl_cons, List.foldl_nil]
    have ih := ih (by omega)
    split
    · next bit =>
      refine ih.trans (DoneBy.plot ih.shape (by omega) h _ _)
        (fun px py q => not_rowHits_next w (by omega) q.1) ?_
      intro px py
      rw [rowHits_succ]; simp [bit]
    · next bit =>
      refine ih.congr fun px py => ?_
      rw [rowHits_succ]; simp [bit]

/-- One sprite row (R201, R202). -/
theorem Canvas.drawRow_done {c : Canvas} (s : c.disp.shaped p = true) (w : 8 ≤ p.dispW)
    (h : 0 < p.dispH) (x0 y : Nat) (b : Byte) :
    DoneBy p c (c.drawRow p x0 y b) (rowHits p b x0 y 8) :=
  drawCols_done s w h x0 y b 8 (le_refl 8)

/-- All rows of a sprite no higher than the display (R201 to R203). -/
theorem Canvas.drawRows_done (bs : List Byte) {c : Canvas} (s : c.disp.shaped p = true)
    (w : 8 ≤ p.dispW) (x0 y0 : Nat) (le : bs.length ≤ p.dispH) :
    DoneBy p c (c.drawRows p x0 y0 bs) (spriteHits p bs x0 y0) := by
  induction bs generalizing c y0 with
  | nil => exact DoneBy.none s (by rintro px py ⟨r, h, -⟩; exact absurd h (by simp))
  | cons b bs ih =>
    simp only [List.length_cons] at le
    have row := Canvas.drawRow_done s w (by omega) x0 y0 b
    refine row.trans (ih row.shape (y0 + 1) (by omega)) ?_ ?_
    · rintro px py ⟨r, hr, k, -, -, -, e⟩ ⟨k', -, -, -, e'⟩
      have := mod_ne (a := y0) (k := r + 1) (n := p.dispH) (by omega) (by omega)
      rw [show y0 + (r + 1) = y0 + 1 + r by omega] at this
      exact this (e.symm.trans e')
    · intro px py
      constructor
      · rintro ⟨r, hr, h⟩
        cases r with
        | zero => exact .inl (by simpa using h)
        | succ r => exact .inr ⟨r, by simpa using hr, by simpa [Nat.add_assoc, Nat.add_comm 1] using h⟩
      · rintro (h | ⟨r, hr, h⟩)
        · exact ⟨0, by simp, by simpa using h⟩
        · exact ⟨r + 1, by simpa using hr, by simpa [Nat.add_assoc, Nat.add_comm 1] using h⟩

/-- Drawing keeps the grid's shape, whatever the sizes (R30). -/
theorem Canvas.shaped_drawRows (bs : List Byte) {c : Canvas} (s : c.disp.shaped p = true) (x0 y0 : Nat) :
    (c.drawRows p x0 y0 bs).disp.shaped p = true := by
  induction bs generalizing c y0 with
  | nil => exact s
  | cons b bs ih =>
    refine ih ?_ (y0 + 1)
    unfold Canvas.drawRow
    induction List.range 8 generalizing c with
    | nil => exact s
    | cons k ks ihk =>
      rw [List.foldl_cons]
      refine ihk ?_
      split
      · exact Display.shaped_toggle s _ _
      · exact s

end Sys2Proof.Machine
end

