-- ==== Sys2Proof/Laws/Loader.lean ====
section
/-!
SUPPORT. What construction can do: the font in place, the image copied, nothing else (spec
70_reset_and_hazards.md R310, R311).
-/

namespace Sys2Proof.Machine

open Sys2Proof.Config

/-- The machine before its image: every address reads as the font byte or zero (R35). -/
theorem State.readMem_initial (p : Params) (a : Nat) :
    (State.initial p).readMem a = if p.fontBase ≤ a then p.fontData.getD (a - p.fontBase) 0 else 0 := rfl

/-- With admitted parameters it has its form (R29, R30). -/
theorem State.wf_initial {p : Params} (h : p.lawful = true) : (State.initial p).wf = true :=
  State.wf_iff.2 ⟨h, rfl, State.shaped_initial p⟩

/-- Construction answers the loaded machine, or LOAD_ERROR, or no machine for parameters R7 shuts out (R310,
R311). -/
theorem construct_eq (now : Nat) (img : List Byte) (p : Params) :
    construct now img p =
      if p.lawful then
        if img.length ≤ p.memSize - p.loadAddr then
          .next { (State.initial p).writeBytes p.loadAddr img with tInstr := now, tTimer := now }
        else .refused (.loadTooLarge img.length)
      else .refused .unlawfulParams := by
  simp only [construct, imageFits, decide_eq_true_eq]

/-- The machine construction answers (R310). -/
theorem construct_eq_next {now : Nat} {img : List Byte} {p : Params} {t : State}
    (h : construct now img p = .next t) : p.lawful = true ∧ p.loadAddr + img.length ≤ p.memSize ∧
      t = { (State.initial p).writeBytes p.loadAddr img with tInstr := now, tTimer := now } := by
  rw [construct_eq] at h
  split at h
  · next l =>
    split at h
    · next fit =>
      have := (Params.lawful_iff.1 l).2.2.2.1
      cases h
      exact ⟨l, by omega, rfl⟩
    · cases h
  · cases h

/-- What the constructed machine reads at an address: the image, the font, or zero (R313). -/
theorem State.readMem_constructed {p : Params} {img : List Byte} (fit : p.loadAddr + img.length ≤ p.memSize)
    (a : Nat) : ((State.initial p).writeBytes p.loadAddr img).readMem a =
      if lt : p.loadAddr ≤ a ∧ a < p.loadAddr + img.length then img[a - p.loadAddr]'(by omega)
      else if p.fontBase ≤ a then p.fontData.getD (a - p.fontBase) 0 else 0 :=
  State.readMem_writeBytes (s := State.initial p) rfl p.loadAddr img fit a

end Sys2Proof.Machine
end

