-- ==== Sys2Proof/Laws/PerInstr.lean ====
section
/-!
SUPPORT. One statement per instruction, about the instruction as syntax: the word the encoder writes
carries the fixed bits of the instruction's own row of the opcode map (spec 30_encoding.md R74).
-/

namespace Sys2Proof.Laws.RowSelects

/-- The row of an instruction selects the word the encoder writes for it. -/
def Statement (i : Instr) : Prop := i.row.selects (encode i) = true

/-- Masking the family tag alone. -/
theorem family_NNN (f : Nibble) (nnn : Addr12) :
    packNNN f nnn &&& 0xF000 = packNNN f 0 := by
  apply BitVec.eq_of_getLsbD_eq; intro i hi
  interval_cases i <;>
    simp only [packNNN, BitVec.getLsbD_append, BitVec.getLsbD_and] <;> simp

/-- Masking the family tag alone. -/
theorem family_XNN (f x : Nibble) (nn : Byte) :
    packXNN f x nn &&& 0xF000 = packXNN f 0 0 := by
  apply BitVec.eq_of_getLsbD_eq; intro i hi
  interval_cases i <;>
    simp only [packXNN, BitVec.getLsbD_append, BitVec.getLsbD_and] <;> simp

/-- Masking the family tag alone. -/
theorem family_XYN (f x y n : Nibble) :
    packXYN f x y n &&& 0xF000 = packXYN f 0 0 0 := by
  apply BitVec.eq_of_getLsbD_eq; intro i hi
  interval_cases i <;>
    simp only [packXYN, BitVec.getLsbD_append, BitVec.getLsbD_and] <;> simp

/-- Masking the family tag and N. -/
theorem family_N (f x y n : Nibble) :
    packXYN f x y n &&& 0xF00F = packXYN f 0 0 n := by
  apply BitVec.eq_of_getLsbD_eq; intro i hi
  interval_cases i <;>
    simp only [packXYN, BitVec.getLsbD_append, BitVec.getLsbD_and] <;> simp

/-- Masking the family tag and NN. -/
theorem family_NN (f x : Nibble) (nn : Byte) :
    packXNN f x nn &&& 0xF0FF = packXNN f 0 nn := by
  apply BitVec.eq_of_getLsbD_eq; intro i hi
  interval_cases i <;>
    simp only [packXNN, BitVec.getLsbD_append, BitVec.getLsbD_and] <;> simp

theorem cls : Statement .cls :=
  rfl
theorem ret : Statement .ret :=
  rfl
theorem jp (nnn : Addr12) : Statement (.jp nnn) :=
  by simp only [Statement, Instr.row, Row.selects, encode, family_NNN]; rfl
theorem call (nnn : Addr12) : Statement (.call nnn) :=
  by simp only [Statement, Instr.row, Row.selects, encode, family_NNN]; rfl
theorem seImm (x : Nibble) (nn : Byte) : Statement (.seImm x nn) :=
  by simp only [Statement, Instr.row, Row.selects, encode, family_XNN]; rfl
theorem sneImm (x : Nibble) (nn : Byte) : Statement (.sneImm x nn) :=
  by simp only [Statement, Instr.row, Row.selects, encode, family_XNN]; rfl
theorem seReg (x : Nibble) (y : Nibble) : Statement (.seReg x y) :=
  by simp only [Statement, Instr.row, Row.selects, encode, family_N]; rfl
theorem ldImm (x : Nibble) (nn : Byte) : Statement (.ldImm x nn) :=
  by simp only [Statement, Instr.row, Row.selects, encode, family_XNN]; rfl
theorem addImm (x : Nibble) (nn : Byte) : Statement (.addImm x nn) :=
  by simp only [Statement, Instr.row, Row.selects, encode, family_XNN]; rfl
theorem ldReg (x : Nibble) (y : Nibble) : Statement (.ldReg x y) :=
  by simp only [Statement, Instr.row, Row.selects, encode, family_N]; rfl
theorem orReg (x : Nibble) (y : Nibble) : Statement (.orReg x y) :=
  by simp only [Statement, Instr.row, Row.selects, encode, family_N]; rfl
theorem andReg (x : Nibble) (y : Nibble) : Statement (.andReg x y) :=
  by simp only [Statement, Instr.row, Row.selects, encode, family_N]; rfl
theorem xorReg (x : Nibble) (y : Nibble) : Statement (.xorReg x y) :=
  by simp only [Statement, Instr.row, Row.selects, encode, family_N]; rfl
theorem addReg (x : Nibble) (y : Nibble) : Statement (.addReg x y) :=
  by simp only [Statement, Instr.row, Row.selects, encode, family_N]; rfl
theorem subReg (x : Nibble) (y : Nibble) : Statement (.subReg x y) :=
  by simp only [Statement, Instr.row, Row.selects, encode, family_N]; rfl
theorem shr (x : Nibble) (y : Nibble) : Statement (.shr x y) :=
  by simp only [Statement, Instr.row, Row.selects, encode, family_N]; rfl
theorem subnReg (x : Nibble) (y : Nibble) : Statement (.subnReg x y) :=
  by simp only [Statement, Instr.row, Row.selects, encode, family_N]; rfl
theorem shl (x : Nibble) (y : Nibble) : Statement (.shl x y) :=
  by simp only [Statement, Instr.row, Row.selects, encode, family_N]; rfl
theorem sneReg (x : Nibble) (y : Nibble) : Statement (.sneReg x y) :=
  by simp only [Statement, Instr.row, Row.selects, encode, family_N]; rfl
theorem ldI (nnn : Addr12) : Statement (.ldI nnn) :=
  by simp only [Statement, Instr.row, Row.selects, encode, family_NNN]; rfl
theorem jpV0 (nnn : Addr12) : Statement (.jpV0 nnn) :=
  by simp only [Statement, Instr.row, Row.selects, encode, family_NNN]; rfl
theorem rnd (x : Nibble) (nn : Byte) : Statement (.rnd x nn) :=
  by simp only [Statement, Instr.row, Row.selects, encode, family_XNN]; rfl
theorem drw (x : Nibble) (y : Nibble) (n : Nibble) : Statement (.drw x y n) :=
  by simp only [Statement, Instr.row, Row.selects, encode, family_XYN]; rfl
theorem skp (x : Nibble) : Statement (.skp x) :=
  by simp only [Statement, Instr.row, Row.selects, encode, family_NN]; rfl
theorem sknp (x : Nibble) : Statement (.sknp x) :=
  by simp only [Statement, Instr.row, Row.selects, encode, family_NN]; rfl
theorem ldVxDt (x : Nibble) : Statement (.ldVxDt x) :=
  by simp only [Statement, Instr.row, Row.selects, encode, family_NN]; rfl
theorem ldVxK (x : Nibble) : Statement (.ldVxK x) :=
  by simp only [Statement, Instr.row, Row.selects, encode, family_NN]; rfl
theorem ldDtVx (x : Nibble) : Statement (.ldDtVx x) :=
  by simp only [Statement, Instr.row, Row.selects, encode, family_NN]; rfl
theorem ldStVx (x : Nibble) : Statement (.ldStVx x) :=
  by simp only [Statement, Instr.row, Row.selects, encode, family_NN]; rfl
theorem addIVx (x : Nibble) : Statement (.addIVx x) :=
  by simp only [Statement, Instr.row, Row.selects, encode, family_NN]; rfl
theorem ldFVx (x : Nibble) : Statement (.ldFVx x) :=
  by simp only [Statement, Instr.row, Row.selects, encode, family_NN]; rfl
theorem ldBVx (x : Nibble) : Statement (.ldBVx x) :=
  by simp only [Statement, Instr.row, Row.selects, encode, family_NN]; rfl
theorem storeRegs (x : Nibble) : Statement (.storeRegs x) :=
  by simp only [Statement, Instr.row, Row.selects, encode, family_NN]; rfl
theorem loadRegs (x : Nibble) : Statement (.loadRegs x) :=
  by simp only [Statement, Instr.row, Row.selects, encode, family_NN]; rfl

end Sys2Proof.Laws.RowSelects
end

