-- ==== Sys2Proof/Laws/Step.lean ====
section
/-!
SUPPORT. What an instruction, a cycle and a step can do, said once: every one of them answers a next
state; `exec`, seen through the fields, is one of a few shapes; a step is one event.
-/

namespace Sys2Proof.Machine

open Sys2Proof.Config

/-! ### Events and the cycle -/

/-- With nothing listed, a repeating source gives its first event and lists the others. -/
theorem step_repeating {s : State} {e : Event} {es : List Event} (h : s.events = [])
    (hs : s.source = .repeating e es) : step s = applyEvent e { s with events := es } := by
  simp [step, State.nextEvent, h, hs]

/-- With nothing listed, the free source gives the next event of the free sequence. -/
theorem step_free {s : State} {n : Nat} (h : s.events = []) (hs : s.source = .free n) :
    step s = applyEvent (freeInput n) { s with source := .free (n + 1) } := by
  simp [step, State.nextEvent, h, hs]

/-- The free sequence holds the three events of R112 alone. -/
theorem freeInput_ne_pass (n now : Nat) : freeInput n ≠ .pass now := by
  unfold freeInput
  split
  · simp
  · next h => exact h now

theorem step_cons {s : State} {e : Event} {es : List Event} (h : s.events = e :: es) :
    step s = applyEvent e { s with events := es } := by
  simp [step, State.nextEvent, h]

theorem cycle_running {s : State} (h : s.run = .running) : cycle s = s.runCycle := by
  simp [cycle, h]

theorem cycle_awaiting {s : State} {x : Nibble} (h : s.run = .awaitingKey x) :
    cycle s = .next (s.keyScan x) := by simp [cycle, h]

theorem cycle_faulted {s : State} {info : FaultInfo} (h : s.run = .faulted info) :
    cycle s = .next s := by simp [cycle, h]

theorem State.fetch_in {s : State} (h : s.pc.toNat + 1 < s.params.memSize) :
    s.fetch = some (s.readWord s.pc.toNat) := if_pos h

theorem State.fetch_out {s : State} (h : s.params.memSize ≤ s.pc.toNat + 1) : s.fetch = none :=
  if_neg (by omega)

theorem dispatch_ok {a w : Word} {s : State} {i : Instr} (h : decodeWord w = .ok i) :
    dispatch a w s = exec i s := by simp [dispatch, h]

theorem dispatch_error {a w : Word} {s : State} {e : DecodeError} (h : decodeWord w = .error e) :
    dispatch a w s = .next (s.report ⟨.invalidInstruction, a, some w⟩) := by simp [dispatch, h]

/-- What a cycle does, case by case (R100 to R105, R232). -/
theorem cycle_cases (s : State) :
    (∃ info, s.run = .faulted info ∧ cycle s = .next s) ∨
    (∃ x, s.run = .awaitingKey x ∧ cycle s = .next (s.keyScan x)) ∨
    (s.run = .running ∧ s.params.memSize ≤ s.pc.toNat + 1 ∧ cycle s = .next (s.raise .fetch s.pc none)) ∨
    (s.run = .running ∧ s.pc.toNat + 1 < s.params.memSize ∧ (∃ e, decodeWord (s.readWord s.pc.toNat) = .error e) ∧
      cycle s = .next (s.advance.report ⟨.invalidInstruction, s.pc, some (s.readWord s.pc.toNat)⟩)) ∨
    ∃ i, s.run = .running ∧ s.pc.toNat + 1 < s.params.memSize ∧ decodeWord (s.readWord s.pc.toNat) = .ok i ∧
      cycle s = exec i s.advance := by
  match h : s.run with
  | .faulted info => exact .inl ⟨info, rfl, cycle_faulted h⟩
  | .awaitingKey x => exact .inr (.inl ⟨x, rfl, cycle_awaiting h⟩)
  | .running =>
    refine .inr (.inr ?_)
    rw [cycle_running h]
    by_cases lt : s.pc.toNat + 1 < s.params.memSize
    · refine .inr ?_
      simp only [State.runCycle, State.fetch_in lt]
      cases d : decodeWord (s.readWord s.pc.toNat) with
      | error e => exact .inl ⟨trivial, lt, ⟨e, rfl⟩, dispatch_error d⟩
      | ok i => exact .inr ⟨i, trivial, lt, rfl, dispatch_ok d⟩
    · have ge : s.params.memSize ≤ s.pc.toNat + 1 := by omega
      exact .inl ⟨rfl, ge, by simp only [State.runCycle, State.fetch_out ge]⟩

/-- What a step does: it applies one event, in the state with other events to come. -/
theorem step_cases (s : State) :
    ∃ e es src, step s = applyEvent e { s with events := es, source := src } := by
  cases h : s.events with
  | cons e es => exact ⟨e, es, s.source, step_cons h⟩
  | nil =>
    cases hs : s.source with
    | repeating e es => exact ⟨e, es, s.source, step_repeating h hs⟩
    | free n => exact ⟨freeInput n, s.events, .free (n + 1), step_free h hs⟩

/-! ### Key scan -/

/-- The lowest pressed key, when there is one (R232). -/
theorem State.firstKey_eq_some {s : State} {k : Nibble} (down : s.keyDown k = true)
    (low : ∀ j, j < k → s.keyDown j = false) : s.firstKey = some k := by
  have hk : k.toNat < 16 := k.isLt
  have of : BitVec.ofNat 4 k.toNat = k := by simp
  unfold State.firstKey
  rw [List.find?_eq_some_iff_append]
  refine ⟨down, (List.range k.toNat).map (BitVec.ofNat 4),
    ((List.range' (k.toNat + 1) (15 - k.toNat)).map (BitVec.ofNat 4)), ?_, ?_⟩
  · have : List.range numKeys =
        List.range k.toNat ++ k.toNat :: List.range' (k.toNat + 1) (15 - k.toNat) := by
      rw [List.range_eq_range', List.range_eq_range', ← List.range'_succ]
      have := @List.range'_append_1 0 k.toNat (15 - k.toNat + 1)
      rw [Nat.zero_add] at this
      rw [this]
      exact congrArg (List.range' 0) (show 16 = _ by omega)
    rw [this, List.map_append, List.map_cons, of]
  · intro j hj
    obtain ⟨n, hn, rfl⟩ := List.mem_map.1 hj
    rw [List.mem_range] at hn
    simp only [Bool.not_eq_eq_eq_not, Bool.not_true]
    apply low
    rw [BitVec.lt_def, BitVec.toNat_ofNat, Nat.mod_eq_of_lt (by omega)]
    exact hn

theorem State.firstKey_eq_none {s : State} (up : ∀ k, s.keyDown k = false) : s.firstKey = none := by
  simp [State.firstKey, up]

/-- A scan writes the target register and `run`, or nothing. -/
theorem State.keyScan_frame (s : State) (x : Nibble) :
    s.keyScan x = { s with v := (s.keyScan x).v, run := (s.keyScan x).run } := by
  unfold State.keyScan
  split <;> rfl

/-! ### Instructions -/

/-- What `exec` can do to the fields that only some instructions write: memory, I, pc, the stack, the
display, the timers, `run` and DIAG. V and the draw counter apart, every instruction has one of these
shapes. -/
inductive Shape (i : Instr) (s t : State) : Prop where
  /-- Registers, and the draw counter. -/
  | regs (v : Vector Byte numV) (n : Nat) (e : t = { s with v := v, draws := n })
  /-- A new pc: a skip, a jump. -/
  | pc (w : Word) (e : t = { s with pc := w })
  /-- A return with a non-empty stack. -/
  | ret (hi : i = .ret) (gt : 0 < s.sp) (e : t = { s with sp := s.sp - 1, pc := s.stackAt (s.sp - 1) })
  /-- A call with room on the stack. -/
  | call (nnn : Addr12) (hi : i = .call nnn) (lt : s.sp < s.params.stackDepth)
      (e : t = { s with
        stack := s.stack.set s.sp (s.params.stackEntry s.pc), sp := s.sp + 1, pc := zext16 nnn })
  /-- The index register. -/
  | index (hi : ∃ x nnn, i = .ldI nnn ∨ i = .addIVx x ∨ i = .ldFVx x) (w : Word)
      (e : t = { s with i := w })
  /-- The display, and VF. -/
  | display (hi : i = .cls ∨ ∃ x y n, i = .drw x y n) (v : Vector Byte numV) (d : Display)
      (hd : Display.shaped s.params s.disp = true → Display.shaped s.params d = true)
      (e : t = { s with v := v, disp := d })
  /-- The delay timer. -/
  | delay (hi : ∃ x, i = .ldDtVx x) (b : Byte) (e : t = { s with dt := b })
  /-- The sound timer. -/
  | sound (hi : ∃ x, i = .ldStVx x) (b : Byte) (e : t = { s with st := b })
  /-- The wait for a key. -/
  | wait (x : Nibble) (hi : i = .ldVxK x) (e : t = { s with run := .awaitingKey x })
  /-- A block load, and I where BLOCK_I_MODE moves it. -/
  | load (hi : ∃ x, i = .loadRegs x) (v : Vector Byte numV) (w : Word)
      (hw : w = s.i ∨ s.params.blockIMode = .advanceXPlus1) (e : t = { s with v := v, i := w })
  /-- A store inside memory, and I where BLOCK_I_MODE moves it. -/
  | store (hi : ∃ x, i = .ldBVx x ∨ i = .storeRegs x) (bs : List Byte)
      (fit : s.i.toNat + bs.length ≤ s.params.memSize) (w : Word)
      (hw : w = s.i ∨ (s.params.blockIMode = .advanceXPlus1 ∧ ∃ x, i = .storeRegs x))
      (e : t = { s.writeBytes s.i.toNat bs with i := w })
  /-- A source-defined condition, reported (R281). -/
  | report (c : DiagCode) (e : t = s.reportInstr c i)
  /-- A BoundsFault (R284). -/
  | fault (k : BoundsKind)
      (hi : (k = .draw ∧ ∃ x y n, i = .drw x y n) ∨ (k = .key ∧ ∃ x, i = .skp x ∨ i = .sknp x) ∨
        (k = .store ∧ ∃ x, i = .ldBVx x ∨ i = .storeRegs x) ∨ (k = .load ∧ ∃ x, i = .loadRegs x))
      (e : t = s.raiseInstr k i)

theorem bcdDigits_length (b : Byte) : (bcdDigits b).length = 3 := rfl

/-- Every instruction answers a next state, of one of the shapes. -/
theorem exec_shape (i : Instr) (s : State) : ∃ t, exec i s = .next t ∧ Shape i s t := by
  cases i with
  | cls => exact ⟨_, rfl, .display (.inl rfl) _ _ (fun _ => Display.shaped_blank) rfl⟩
  | ret =>
    cases h : s.pop with
    | none =>
      have e : exec .ret s = .next (s.reportInstr .stackUnderflow .ret) := by
        simp only [exec, execRet, h]
      exact ⟨_, e, .report _ rfl⟩
    | some p =>
      obtain ⟨w, t⟩ := p
      have e : exec .ret s = .next (t.setPc w) := by simp only [exec, execRet, h]
      obtain ⟨gt, rfl, rfl⟩ := State.pop_eq_some.1 h
      exact ⟨_, e, .ret rfl gt rfl⟩
  | jp nnn => exact ⟨_, rfl, .pc _ rfl⟩
  | call nnn =>
    cases h : s.push s.pc with
    | none =>
      have e : exec (.call nnn) s = .next (s.reportInstr .stackOverflow (.call nnn)) := by
        simp only [exec, execCall, h]
      exact ⟨_, e, .report _ rfl⟩
    | some t =>
      have e : exec (.call nnn) s = .next (t.setPc (zext16 nnn)) := by
        simp only [exec, execCall, h]
      obtain ⟨lt, rfl⟩ := State.push_eq_some.1 h
      exact ⟨_, e, .call nnn rfl lt rfl⟩
  | seImm x nn => exact ⟨_, rfl, .pc _ (State.skipIf_eq ..)⟩
  | sneImm x nn => exact ⟨_, rfl, .pc _ (State.skipIf_eq ..)⟩
  | seReg x y => exact ⟨_, rfl, .pc _ (State.skipIf_eq ..)⟩
  | ldImm x nn => exact ⟨_, rfl, .regs _ _ rfl⟩
  | addImm x nn => exact ⟨_, rfl, .regs _ _ rfl⟩
  | ldReg x y => exact ⟨_, rfl, .regs _ _ rfl⟩
  | orReg x y => exact ⟨_, rfl, .regs _ _ rfl⟩
  | andReg x y => exact ⟨_, rfl, .regs _ _ rfl⟩
  | xorReg x y => exact ⟨_, rfl, .regs _ _ rfl⟩
  | addReg x y => exact ⟨_, rfl, .regs _ _ (State.setRegFlag_frame ..)⟩
  | subReg x y => exact ⟨_, rfl, .regs _ _ (State.setRegFlag_frame ..)⟩
  | shr x y => exact ⟨_, rfl, .regs _ _ (State.setRegFlag_frame ..)⟩
  | subnReg x y => exact ⟨_, rfl, .regs _ _ (State.setRegFlag_frame ..)⟩
  | shl x y => exact ⟨_, rfl, .regs _ _ (State.setRegFlag_frame ..)⟩
  | sneReg x y => exact ⟨_, rfl, .pc _ (State.skipIf_eq ..)⟩
  | ldI nnn => exact ⟨_, rfl, .index ⟨0, nnn, .inl rfl⟩ _ rfl⟩
  | jpV0 nnn => exact ⟨_, rfl, .pc _ rfl⟩
  | rnd x nn => exact ⟨_, rfl, .regs _ _ rfl⟩
  | drw x y n =>
    by_cases h : inMemory s.params (s.ea 0) n.toNat = true
    · exact ⟨_, if_pos h, .display (.inr ⟨x, y, n, rfl⟩) _ _ (fun hd => Canvas.shaped_drawRows _ hd _ _) rfl⟩
    · exact ⟨_, if_neg h, .fault _ (.inl ⟨rfl, x, y, n, rfl⟩) rfl⟩
  | skp x =>
    cases h : s.keyIndex x with
    | none =>
      have e : exec (.skp x) s = .next (s.raiseInstr .key (.skp x)) := by simp only [exec, execSkp, h]
      exact ⟨_, e, .fault _ (.inr (.inl ⟨rfl, x, .inl rfl⟩)) rfl⟩
    | some k =>
      have e : exec (.skp x) s = .next (s.skipIf (s.keyDown k)) := by simp only [exec, execSkp, h]
      exact ⟨_, e, .pc _ (State.skipIf_eq ..)⟩
  | sknp x =>
    cases h : s.keyIndex x with
    | none =>
      have e : exec (.sknp x) s = .next (s.raiseInstr .key (.sknp x)) := by simp only [exec, execSknp, h]
      exact ⟨_, e, .fault _ (.inr (.inl ⟨rfl, x, .inr rfl⟩)) rfl⟩
    | some k =>
      have e : exec (.sknp x) s = .next (s.skipIf (!s.keyDown k)) := by simp only [exec, execSknp, h]
      exact ⟨_, e, .pc _ (State.skipIf_eq ..)⟩
  | ldVxDt x => exact ⟨_, rfl, .regs _ _ rfl⟩
  | ldVxK x => exact ⟨_, rfl, .wait x rfl rfl⟩
  | ldDtVx x => exact ⟨_, rfl, .delay ⟨x, rfl⟩ _ rfl⟩
  | ldStVx x => exact ⟨_, rfl, .sound ⟨x, rfl⟩ _ rfl⟩
  | addIVx x => exact ⟨_, rfl, .index ⟨x, 0, .inr (.inl rfl)⟩ _ rfl⟩
  | ldFVx x => exact ⟨_, rfl, .index ⟨x, 0, .inr (.inr rfl)⟩ _ rfl⟩
  | ldBVx x =>
    by_cases h : storeAllowed s.params (s.ea 0) 3 = true
    · refine ⟨_, if_pos h, .store ⟨x, .inl rfl⟩ (bcdDigits (s.reg x)) ?_ s.i (.inl rfl) ?_⟩
      rotate_left
      · show s.writeBytes s.i.toNat _ = _
        rw [State.writeBytes_frame]
      have lt := inMemory_succ.1 (storeAllowed_iff.1 h).1
      simp only [State.ea] at lt
      rw [bcdDigits_length]; omega
    · exact ⟨_, if_neg h,
        .fault _ (.inr (.inr (.inl ⟨rfl, x, .inl rfl⟩))) rfl⟩
  | storeRegs x =>
    by_cases h : storeAllowed s.params (s.ea 0) (x.toNat + 1) = true
    · refine ⟨_, if_pos h, .store ⟨x, .inr rfl⟩ (s.regBlock x) ?_ _ ?_ (State.blockEnd_eq ..)⟩
      rotate_left
      · rw [State.writeBytes_params, State.writeBytes_frame]
        by_cases m : s.params.blockIMode = .advanceXPlus1
        · exact .inr ⟨m, x, rfl⟩
        · exact .inl (if_neg m)
      have lt := inMemory_succ.1 (storeAllowed_iff.1 h).1
      simp only [State.ea] at lt
      rw [State.regBlock_length]; omega
    · exact ⟨_, if_neg h,
        .fault _ (.inr (.inr (.inl ⟨rfl, x, .inr rfl⟩))) rfl⟩
  | loadRegs x =>
    by_cases h : inMemory s.params (s.ea 0) (x.toNat + 1) = true
    · refine ⟨_, if_pos h, .load ⟨x, rfl⟩ _ _ ?_
        ((State.blockEnd_eq ..).trans (by rw [State.loadBlock_frame]))⟩
      by_cases m : s.params.blockIMode = .advanceXPlus1
      · exact .inr m
      · exact .inl (if_neg m)
    · exact ⟨_, if_neg h,
        .fault _ (.inr (.inr (.inr ⟨rfl, x, rfl⟩))) rfl⟩

/-- The shape of a given next state. -/
theorem shape_of_exec {i : Instr} {s t : State} (h : exec i s = .next t) : Shape i s t := by
  obtain ⟨u, hu, sh⟩ := exec_shape i s
  rw [h] at hu
  cases hu
  exact sh

/-- No instruction writes the parameters (R7). -/
theorem exec_params {i : Instr} {s t : State} (h : exec i s = .next t) : t.params = s.params := by
  cases shape_of_exec h with
  | store hi bs fit w hw e => rw [e]; exact State.writeBytes_params ..
  | fault k hi e => subst e; rfl
  | report c e => subst e; rfl
  | _ => subst_vars; rfl

/-- Every instruction keeps the stack's and the display's shape (R28, R29, R30). -/
theorem exec_shaped {i : Instr} {s t : State} (w : s.shaped = true) (h : exec i s = .next t) :
    t.shaped = true := by
  obtain ⟨len, le, fits, grid⟩ := State.shaped_iff.1 w
  cases shape_of_exec h with
  | store hi bs fit w' hw e => rw [e, State.writeBytes_frame]; exact w
  | fault k hi e => subst e; exact w
  | report c e => subst e; exact w
  | ret hi gt e => subst e; exact State.shaped_iff.2 ⟨len, (Nat.sub_le ..).trans le, fits, grid⟩
  | call nnn hi lt e =>
    subst e
    refine State.shaped_iff.2 ⟨List.length_set.trans len, lt, fun x hx => ?_, grid⟩
    rcases List.mem_or_eq_of_mem_set hx with hx | hx
    · exact fits x hx
    · rw [hx, Params.stackEntry_toNat]; exact Nat.mod_lt _ (Nat.two_pow_pos _)
  | display hi v d hd e => subst e; exact State.shaped_iff.2 ⟨len, le, fits, hd grid⟩
  | _ => subst_vars; exact w

/-- When a store of `n + 1` bytes at I faults, in the terms of its check (R51, R56). -/
theorem storeFaults_iff {s : State} {n : Nat} :
    Safety.StoreFaults s (n + 1) ↔ ¬storeAllowed s.params (s.ea 0) (n + 1) = true := by
  rw [storeAllowed_iff, inMemory_succ, Safety.StoreFaults]
  simp only [State.ea, Nat.add_zero, Nat.add_sub_cancel]
  constructor
  · rintro (h | ⟨h, k, hk, h1⟩) ⟨a, b⟩
    · omega
    · exact b h k hk h1
  · intro h
    by_cases a : s.i.toNat + n < s.params.memSize
    · refine .inr ?_
      by_contra no
      exact h ⟨a, fun f k hk hh => no ⟨f, k, hk, hh⟩⟩
    · exact .inl (by omega)

/-! ### Completion -/

/-- Every cycle answers a next state. -/
theorem cycle_next (s : State) : ∃ t, cycle s = .next t := by
  rcases cycle_cases s with ⟨_, _, e⟩ | ⟨_, _, e⟩ | ⟨_, _, e⟩ | ⟨_, _, _, e⟩ | ⟨i, _, _, _, e⟩
  · exact ⟨_, e⟩
  · exact ⟨_, e⟩
  · exact ⟨_, e⟩
  · exact ⟨_, e⟩
  · obtain ⟨t, h, -⟩ := exec_shape i s.advance
    exact ⟨t, e.trans h⟩

/-- Every event answers a next state. -/
theorem applyEvent_next (e : Event) (s : State) : ∃ t, applyEvent e s = .next t := by
  cases e with
  | cycle => exact cycle_next s
  | tick => exact ⟨_, rfl⟩
  | keySet k b => exact ⟨_, rfl⟩
  | pass now => exact ⟨_, rfl⟩

/-! ### What no event looks at -/

/-- The state with other scheduler references, emitted diagnostics and inputs to come. -/
def State.outer (s : State) (a b : Nat) (d : List Diag) (e : List Event)
    (f : Source) : State :=
  { s with tInstr := a, tTimer := b, diag := d, events := e, source := f }

theorem State.writeBytes_outer (s : State) (m : Nat) (bs : List Byte) (a b : Nat) (d : List Diag)
    (e : List Event) (f : Source) :
    (s.outer a b d e f).writeBytes m bs = (s.writeBytes m bs).outer a b d e f := by
  induction bs generalizing s m with
  | nil => rfl
  | cons c bs ih => exact ih (s.writeMem m c) (m + 1)

theorem State.loadBlock_outer (s : State) (m n : Nat) (a b : Nat) (d : List Diag) (e : List Event)
    (f : Source) :
    (s.outer a b d e f).loadBlock m n = (s.loadBlock m n).outer a b d e f := by
  induction n with
  | zero => rfl
  | succ n ih => rw [State.loadBlock_succ, State.loadBlock_succ, ih]; rfl

theorem State.blockEnd_outer (s : State) (x : Nibble) (a b : Nat) (d : List Diag) (e : List Event)
    (f : Source) : (s.outer a b d e f).blockEnd x = (s.blockEnd x).outer a b d e f := by
  rw [State.blockEnd_eq, State.blockEnd_eq]
  rfl

theorem State.drawing_outer (s : State) (x y n : Nibble) (a b : Nat) (d : List Diag) (e : List Event)
    (f : Source) : (s.outer a b d e f).drawing x y n = s.drawing x y n := by
  simp only [State.drawing, State.reg_coordSource]
  rfl

theorem State.setRegFlag_outer (s : State) (x : Nibble) (r g : Byte) (a b : Nat) (d : List Diag)
    (e : List Event) (f : Source) :
    (s.outer a b d e f).setRegFlag x r g = (s.setRegFlag x r g).outer a b d e f := by
  simp only [State.setRegFlag, State.outer]
  cases s.params.flagOrder <;> rfl

/-- An instruction looks at none of the outer fields and passes them on; it emits at most one diagnostic,
whose address is its own (R20, R282, R283). -/
theorem exec_outer {i : Instr} {s t : State} (h : exec i s = .next t) :
    ∃ ds, t.diag = s.diag ++ ds ∧ ds.length ≤ 1 ∧ (∀ d ∈ ds, d.addr = s.instrAddr) ∧ ∀ a b d e f,
      exec i (s.outer a b d e f) = .next (t.outer a b (d ++ ds) e f) := by
  cases i with
  | ret =>
    simp only [exec, execRet] at h ⊢
    cases p : s.pop with
    | none =>
      rw [p] at h; cases h
      refine ⟨[_], rfl, by simp, by simp [State.instrAddr], fun a b d e f => ?_⟩
      have z : s.sp = 0 := State.pop_eq_none.1 p
      rw [show (s.outer a b d e f).pop = none from State.pop_eq_none.2 z]; rfl
    | some q =>
      obtain ⟨w, u⟩ := q
      rw [p] at h; cases h
      obtain ⟨gt, rfl, rfl⟩ := State.pop_eq_some.1 p
      refine ⟨[], by simp, by simp, by simp, fun a b d e f => ?_⟩
      simp [State.pop, State.outer, gt, State.setPc, State.stackAt]
  | call nnn =>
    simp only [exec, execCall] at h ⊢
    cases p : s.push s.pc with
    | none =>
      rw [p] at h; cases h
      refine ⟨[_], rfl, by simp, by simp [State.instrAddr], fun a b d e f => ?_⟩
      have z : s.params.stackDepth ≤ s.sp := State.push_eq_none.1 p
      rw [show (s.outer a b d e f).push (s.outer a b d e f).pc = none from State.push_eq_none.2 z]; rfl
    | some q =>
      rw [p] at h; cases h
      obtain ⟨gt, rfl⟩ := State.push_eq_some.1 p
      refine ⟨[], by simp, by simp, by simp, fun a b d e f => ?_⟩
      simp [State.push, State.outer, gt, State.setPc]
  | drw x y n =>
    simp only [exec, execDrw] at h ⊢
    by_cases c : inMemory s.params (s.ea 0) n.toNat = true
    · rw [if_pos c] at h; cases h
      refine ⟨[], by simp, by simp, by simp, fun a b d e f => ?_⟩
      rw [if_pos (show inMemory (s.outer a b d e f).params ((s.outer a b d e f).ea 0) n.toNat = true from c), List.append_nil,
        State.drawing_outer]; rfl
    · rw [if_neg c] at h; cases h
      refine ⟨[_], rfl, by simp, by simp [State.instrAddr], fun a b d e f => ?_⟩
      rw [if_neg (show ¬ inMemory (s.outer a b d e f).params ((s.outer a b d e f).ea 0) n.toNat = true from c)]; rfl
  | skp x =>
    simp only [exec, execSkp] at h ⊢
    cases p : s.keyIndex x with
    | none =>
      rw [p] at h; cases h
      refine ⟨[_], rfl, by simp, by simp [State.instrAddr], fun a b d e f => ?_⟩
      rw [show (s.outer a b d e f).keyIndex x = none from p]; rfl
    | some k =>
      rw [p] at h; cases h
      refine ⟨[], by simp [State.skipIf_eq], by simp, by simp, fun a b d e f => ?_⟩
      rw [show (s.outer a b d e f).keyIndex x = some k from p]
      simp [State.skipIf_eq, State.outer, State.keyDown]
  | sknp x =>
    simp only [exec, execSknp] at h ⊢
    cases p : s.keyIndex x with
    | none =>
      rw [p] at h; cases h
      refine ⟨[_], rfl, by simp, by simp [State.instrAddr], fun a b d e f => ?_⟩
      rw [show (s.outer a b d e f).keyIndex x = none from p]; rfl
    | some k =>
      rw [p] at h; cases h
      refine ⟨[], by simp [State.skipIf_eq], by simp, by simp, fun a b d e f => ?_⟩
      rw [show (s.outer a b d e f).keyIndex x = some k from p]
      simp [State.skipIf_eq, State.outer, State.keyDown]
  | ldBVx x =>
    simp only [exec, execLdBVx] at h ⊢
    by_cases c : storeAllowed s.params (s.ea 0) 3 = true
    · rw [if_pos c] at h; cases h
      refine ⟨[], by rw [State.writeBytes_frame]; simp, by simp, by simp, fun a b d e f => ?_⟩
      rw [if_pos (show storeAllowed (s.outer a b d e f).params ((s.outer a b d e f).ea 0) 3 = true from c), List.append_nil]
      exact congrArg _ (State.writeBytes_outer ..)
    · rw [if_neg c] at h; cases h
      refine ⟨[_], rfl, by simp, by simp [State.instrAddr], fun a b d e f => ?_⟩
      rw [if_neg (show ¬ storeAllowed (s.outer a b d e f).params ((s.outer a b d e f).ea 0) 3 = true from c)]; rfl
  | storeRegs x =>
    simp only [exec, execStoreRegs] at h ⊢
    by_cases c : storeAllowed s.params (s.ea 0) (x.toNat + 1) = true
    · rw [if_pos c] at h; cases h
      refine ⟨[], by rw [State.blockEnd_eq, State.writeBytes_frame]; simp, by simp, by simp, fun a b d e f => ?_⟩
      rw [if_pos (show storeAllowed (s.outer a b d e f).params ((s.outer a b d e f).ea 0) (x.toNat + 1) = true from c), List.append_nil]
      exact congrArg _ (by rw [← State.blockEnd_outer, ← State.writeBytes_outer]; rfl)
    · rw [if_neg c] at h; cases h
      refine ⟨[_], rfl, by simp, by simp [State.instrAddr], fun a b d e f => ?_⟩
      rw [if_neg (show ¬ storeAllowed (s.outer a b d e f).params ((s.outer a b d e f).ea 0) (x.toNat + 1) = true from c)]; rfl
  | loadRegs x =>
    simp only [exec, execLoadRegs] at h ⊢
    by_cases c : inMemory s.params (s.ea 0) (x.toNat + 1) = true
    · rw [if_pos c] at h; cases h
      refine ⟨[], by rw [State.blockEnd_eq, State.loadBlock_frame]; simp, by simp, by simp, fun a b d e f => ?_⟩
      rw [if_pos (show inMemory (s.outer a b d e f).params ((s.outer a b d e f).ea 0) (x.toNat + 1) = true from c), List.append_nil]
      exact congrArg _ (by rw [← State.blockEnd_outer, ← State.loadBlock_outer]; rfl)
    · rw [if_neg c] at h; cases h
      refine ⟨[_], rfl, by simp, by simp [State.instrAddr], fun a b d e f => ?_⟩
      rw [if_neg (show ¬ inMemory (s.outer a b d e f).params ((s.outer a b d e f).ea 0) (x.toNat + 1) = true from c)]; rfl
  | seImm x nn => cases h; exact ⟨[], by simp [State.skipIf_eq], by simp, by simp, fun a b d e f => by
      simp [exec, execSeImm, State.skipIf_eq, State.outer, State.reg]⟩
  | sneImm x nn => cases h; exact ⟨[], by simp [State.skipIf_eq], by simp, by simp, fun a b d e f => by
      simp [exec, execSneImm, State.skipIf_eq, State.outer, State.reg]⟩
  | seReg x y => cases h; exact ⟨[], by simp [State.skipIf_eq], by simp, by simp, fun a b d e f => by
      simp [exec, execSeReg, State.skipIf_eq, State.outer, State.reg]⟩
  | sneReg x y => cases h; exact ⟨[], by simp [State.skipIf_eq], by simp, by simp, fun a b d e f => by
      simp [exec, execSneReg, State.skipIf_eq, State.outer, State.reg]⟩
  | addReg x y | subReg x y | shr x y | subnReg x y | shl x y =>
    cases h
    exact ⟨[], by rw [State.setRegFlag_frame]; simp, by simp, by simp, fun a b d e f => by
      rw [List.append_nil, ← State.setRegFlag_outer]; rfl⟩
  | _ => cases h; exact ⟨[], (List.append_nil _).symm, by simp, by simp, fun a b d e f => by
      rw [List.append_nil]; rfl⟩

end Sys2Proof.Machine
end

