-- ==== Sys2Proof/Tests/Slice0.lean ====
section
/-!
SUPPORT. Tests of one step each, expected results from spec/95_test_vectors.md (the vector's name stands
in each comment), decode tests of words written out from spec/30_encoding.md R74, ill-formed words that
are refused, and for every obligation with hypotheses states that meet them.
-/

namespace Sys2Proof.Tests

open Sys2Proof.Machine Sys2Proof.Safety Sys2Proof.Config

/-! ### Helpers -/

/-- The reset state with some registers set. -/
def regs (l : List (Nibble × Byte)) : State := l.foldl (fun s p => s.setReg p.1 p.2) State.reset

/-- Stepping the instruction word `w` from `s` gives a next state that `p` holds of. -/
def gives (s : State) (w : Nat) (p : State → Bool) : Bool :=
  match step (s.withFetchWord 16 w) with
  | .next t => p t
  | _ => false

/-- The states of the vectors: I and a sprite byte at 0x300. -/
def sprite (b : Byte) (l : List (Nibble × Byte)) : State := ((regs l).setI 0x300).writeMem 0x300 b

/-- Some pixels lit. -/
def lit (s : State) (l : List (Nat × Nat)) : State :=
  s.setDisp (l.foldl (fun d p => Display.toggle d p.1 p.2) s.disp)

/-- The other value of each behaviour parameter (R7). -/
def otherParams : Params :=
  { defaults with
    flagOrder := .resultLast
    drawVfOrder := .readFirst
    blockIMode := .advanceXPlus1
    reservedWrite := .fault
    rateBounds := .between 2 3 }

/-- A machine with them. -/
def other : State := State.initial otherParams

/-- Other sizes, which R7 admits too. -/
def smallParams : Params :=
  { defaults with
    memSize := 0x600
    loadAddr := 0x300
    stackDepth := 1
    stackEntryW := 12
    dispW := 8
    dispH := 15
    timerHz := 2
    instrHz := 3
    fontBase := 0x050
    glyphBytes := 2
    fontData := List.replicate 32 0x55 }

/-- A machine with them. -/
def small : State := State.initial smallParams

/-- What a BoundsFault leaves (R284). -/
def faultedWith (k : BoundsKind) (a w : Word) (t : State) : Bool :=
  t.run == .faulted ⟨k, a, some w⟩ && t.diag == [⟨.bounds k, a, some w⟩] && t.pc == a + 2

/-! ### Ill-formed words are refused (R75, R76): one for each check -/

/-- Family 0 names 00E0 and 00EE alone (R77; CY5, CY6). -/
theorem test_refused_family0 : wellFormedWord 0x0000 = false ∧ wellFormedWord 0x01E0 = false ∧
    wellFormedWord 0x0123 = false := by decide

/-- Family 5 wants a zero low nibble (CF14). -/
theorem test_refused_family5 : wellFormedWord 0x5121 = false := by decide

/-- Family 9 wants a zero low nibble (CF17). -/
theorem test_refused_family9 : wellFormedWord 0x912F = false := by decide

/-- Family 8 has no row for 8 to D and F (AL26, AL27). -/
theorem test_refused_family8 : wellFormedWord 0x8128 = false ∧ wellFormedWord 0x812F = false := by
  decide

/-- Family E (KT7). -/
theorem test_refused_familyE : wellFormedWord 0xE39F = false := by decide

/-- Family F (KT18). -/
theorem test_refused_familyF : wellFormedWord 0xF3FF = false := by decide

/-- Half an instruction is no instruction (R70). -/
theorem test_refused_half : (decode [0x12]).toOption = none ∧ (decode []).toOption = none := by decide

/-- The decoder refuses the same words, by name. -/
theorem test_decoder_refuses : decodeWord 0x0000 = .error (.invalidWord 0x0000) ∧
    decodeWord 0x5121 = .error (.invalidWord 0x5121) ∧
    decodeWord 0x912F = .error (.invalidWord 0x912F) ∧
    decodeWord 0x8128 = .error (.invalidWord 0x8128) ∧
    decodeWord 0xE39F = .error (.invalidWord 0xE39F) ∧
    decodeWord 0xF3FF = .error (.invalidWord 0xF3FF) := ⟨rfl, rfl, rfl, rfl, rfl, rfl⟩

/-! ### Decoding, one word of every row written out from R74 -/

theorem test_decode_control :
    decodeTableWord 16 0x00E0 = some .cls ∧ decodeTableWord 16 0x00EE = some .ret ∧
    decodeTableWord 16 0x1ABC = some (.jp 0xABC) ∧ decodeTableWord 16 0x2DEF = some (.call 0xDEF) ∧
    decodeTableWord 16 0x3342 = some (.seImm 0x3 0x42) ∧
    decodeTableWord 16 0x4A51 = some (.sneImm 0xA 0x51) ∧
    decodeTableWord 16 0x5120 = some (.seReg 0x1 0x2) ∧
    decodeTableWord 16 0x9CD0 = some (.sneReg 0xC 0xD) ∧
    decodeTableWord 16 0xB123 = some (.jpV0 0x123) := by decide

theorem test_decode_alu :
    decodeTableWord 16 0x6A3C = some (.ldImm 0xA 0x3C) ∧
    decodeTableWord 16 0x7F01 = some (.addImm 0xF 0x01) ∧
    decodeTableWord 16 0x8120 = some (.ldReg 0x1 0x2) ∧
    decodeTableWord 16 0x8341 = some (.orReg 0x3 0x4) ∧
    decodeTableWord 16 0x8562 = some (.andReg 0x5 0x6) ∧
    decodeTableWord 16 0x8783 = some (.xorReg 0x7 0x8) ∧
    decodeTableWord 16 0x8AB4 = some (.addReg 0xA 0xB) ∧
    decodeTableWord 16 0x8CD5 = some (.subReg 0xC 0xD) ∧
    decodeTableWord 16 0x8EF6 = some (.shr 0xE 0xF) ∧
    decodeTableWord 16 0x8017 = some (.subnReg 0x0 0x1) ∧
    decodeTableWord 16 0x823E = some (.shl 0x2 0x3) ∧
    decodeTableWord 16 0xC30F = some (.rnd 0x3 0x0F) := by decide

theorem test_decode_rest :
    decodeTableWord 16 0xA9F1 = some (.ldI 0x9F1) ∧
    decodeTableWord 16 0xD125 = some (.drw 0x1 0x2 0x5) ∧
    decodeTableWord 16 0xE39E = some (.skp 0x3) ∧ decodeTableWord 16 0xE4A1 = some (.sknp 0x4) ∧
    decodeTableWord 16 0xFB07 = some (.ldVxDt 0xB) ∧ decodeTableWord 16 0xF30A = some (.ldVxK 0x3) ∧
    decodeTableWord 16 0xFA15 = some (.ldDtVx 0xA) ∧ decodeTableWord 16 0xF218 = some (.ldStVx 0x2) ∧
    decodeTableWord 16 0xF61E = some (.addIVx 0x6) ∧ decodeTableWord 16 0xF729 = some (.ldFVx 0x7) ∧
    decodeTableWord 16 0xF033 = some (.ldBVx 0x0) ∧
    decodeTableWord 16 0xF855 = some (.storeRegs 0x8) ∧
    decodeTableWord 16 0xFC65 = some (.loadRegs 0xC) := by decide

/-- The fields of D125 (W1). -/
theorem test_fields : fieldF 0xD125 = 0xD ∧ fieldX 0xD125 = 1 ∧ fieldY 0xD125 = 2 ∧
    fieldN 0xD125 = 5 ∧ fieldNN 0xD125 = 0x25 ∧ fieldNNN 0xD125 = 0x125 := by decide

/-! ### One step each: control flow -/

/-- CF1. -/
theorem test_ret : gives { State.reset with stack := State.reset.stack.set 0 0x0346, sp := 1 } 0x00EE
    (fun t => t.pc == 0x0346 && t.sp == 0) = true := by decide

/-- CF2. -/
theorem test_ret_underflow : gives State.reset 0x00EE
    (fun t => t.pc == 0x0202 && t.diag == [⟨.stackUnderflow, 0x0200, some 0x00EE⟩] &&
      t.run == .running) = true := by decide

/-- CF4: an odd target. -/
theorem test_jp_odd : gives State.reset 0x1203 (fun t => t.pc == 0x0203) = true := by decide

/-- CF5. -/
theorem test_call : gives { State.reset with pc := 0x0250, sp := 3 } 0x2400
    (fun t => t.pc == 0x0400 && t.sp == 4 && t.stackAt 3 == 0x0252) = true := by decide

/-- CF6. -/
theorem test_call_overflow : gives { State.reset with pc := 0x0250, sp := 16 } 0x2400
    (fun t => t.pc == 0x0252 && t.sp == 16 && t.stackAt 15 == 0 &&
      t.diag == [⟨.stackOverflow, 0x0250, some 0x2400⟩]) = true := by decide

/-- CF8, CF9. -/
theorem test_seImm : gives (regs [(3, 0x42)]) 0x3342 (fun t => t.pc == 0x0204) = true ∧
    gives (regs [(3, 0x43)]) 0x3342 (fun t => t.pc == 0x0202) = true := by decide

/-- CF10, CF11. -/
theorem test_sneImm : gives (regs [(3, 0x42)]) 0x4342 (fun t => t.pc == 0x0202) = true ∧
    gives (regs [(3, 0x43)]) 0x4342 (fun t => t.pc == 0x0204) = true := by decide

/-- CF12, CF13. -/
theorem test_seReg : gives (regs [(1, 7), (2, 7)]) 0x5120 (fun t => t.pc == 0x0204) = true ∧
    gives (regs [(1, 7), (2, 8)]) 0x5120 (fun t => t.pc == 0x0202) = true := by decide

/-- CF15, CF16. -/
theorem test_sneReg : gives (regs [(1, 7), (2, 7)]) 0x9120 (fun t => t.pc == 0x0202) = true ∧
    gives (regs [(1, 7), (2, 8)]) 0x9120 (fun t => t.pc == 0x0204) = true := by decide

/-- CF19: the largest reachable pc. -/
theorem test_jpV0 : gives (regs [(0, 0xFF)]) 0xBFFF (fun t => t.pc == 0x10FE) = true := by decide

/-- CF20: a skip past the end of memory. -/
theorem test_skip_past_end : gives { State.reset with pc := 0x0FFC } 0x3000
    (fun t => t.pc == 0x1000 && t.run == .running) = true := by decide

/-! ### One step each: ALU -/

/-- AL1. -/
theorem test_ldImm : gives State.reset 0x6A3C (fun t => t.reg 0xA == 0x3C) = true := by decide

/-- AL2, AL3. -/
theorem test_addImm : gives (regs [(0, 0xFF), (0xF, 0x55)]) 0x7001
      (fun t => t.reg 0 == 0 && t.reg 0xF == 0x55) = true ∧
    gives (regs [(0xF, 0x10)]) 0x7F01 (fun t => t.reg 0xF == 0x11) = true := by decide

/-- AL4. -/
theorem test_ldReg : gives (regs [(2, 0x99)]) 0x8120 (fun t => t.reg 1 == 0x99) = true := by decide

/-- AL5. -/
theorem test_orReg : gives (regs [(1, 0xF0), (2, 0x0F), (0xF, 0x55)]) 0x8121
    (fun t => t.reg 1 == 0xFF && t.reg 0xF == 0x55) = true := by decide

/-- AL6. -/
theorem test_andReg : gives (regs [(1, 0xF0), (2, 0x3C)]) 0x8122 (fun t => t.reg 1 == 0x30) = true := by
  decide

/-- AL7, AL8. -/
theorem test_xorReg : gives (regs [(1, 0xF0), (2, 0x3C)]) 0x8123 (fun t => t.reg 1 == 0xCC) = true ∧
    gives (regs [(1, 0x5A)]) 0x8113 (fun t => t.reg 1 == 0) = true := by decide

/-- W4. -/
theorem test_addReg : gives (regs [(1, 0xFF), (2, 1)]) 0x8124
      (fun t => t.reg 1 == 0 && t.reg 0xF == 1) = true ∧
    gives (regs [(1, 1), (2, 1)]) 0x8124 (fun t => t.reg 1 == 2 && t.reg 0xF == 0) = true := by decide

/-- AL10, AL11: VF as X, VF as Y. -/
theorem test_addReg_vf : gives (regs [(0xF, 0xFF), (1, 2)]) 0x8F14 (fun t => t.reg 0xF == 1) = true ∧
    gives (regs [(1, 0x10), (0xF, 1)]) 0x81F4
      (fun t => t.reg 1 == 0x11 && t.reg 0xF == 0) = true := by decide

/-- W5. -/
theorem test_subReg : gives (regs [(1, 5), (2, 3)]) 0x8125
      (fun t => t.reg 1 == 2 && t.reg 0xF == 1) = true ∧
    gives (regs [(1, 3), (2, 5)]) 0x8125 (fun t => t.reg 1 == 0xFE && t.reg 0xF == 0) = true := by decide

/-- AL12: equal operands do not borrow. -/
theorem test_subReg_equal : gives (regs [(1, 0x80)]) 0x8115
    (fun t => t.reg 1 == 0 && t.reg 0xF == 1) = true := by decide

/-- AL17: Y is ignored. -/
theorem test_shr : gives (regs [(1, 0x80), (2, 0xFF)]) 0x8126
    (fun t => t.reg 1 == 0x40 && t.reg 0xF == 0 && t.reg 2 == 0xFF) = true := by decide

/-- AL18. -/
theorem test_shr_vf : gives (regs [(0xF, 3)]) 0x8FF6 (fun t => t.reg 0xF == 1) = true := by decide

/-- AL19, AL20. -/
theorem test_subnReg : gives (regs [(1, 3), (2, 5)]) 0x8127
      (fun t => t.reg 1 == 2 && t.reg 0xF == 1) = true ∧
    gives (regs [(1, 5), (2, 3)]) 0x8127 (fun t => t.reg 1 == 0xFE && t.reg 0xF == 0) = true := by decide

/-- AL22, AL24. -/
theorem test_shl : gives (regs [(1, 0x81)]) 0x810E (fun t => t.reg 1 == 2 && t.reg 0xF == 1) = true ∧
    gives (regs [(1, 0x7F)]) 0x810E (fun t => t.reg 1 == 0xFE && t.reg 0xF == 0) = true := by decide

/-- AL23: Y is ignored. -/
theorem test_shl_ignores_y : gives (regs [(1, 0x80), (2, 1)]) 0x812E
    (fun t => t.reg 1 == 0 && t.reg 0xF == 1 && t.reg 2 == 1) = true := by decide

/-- AL29: whatever the random byte. -/
theorem test_rnd_zero_mask : ∃ t, exec (.rnd 3 0) State.reset = .next t ∧ t.reg 3 = 0 ∧ t.draws = 1 :=
  ⟨_, rfl, by simp [State.reg, State.setReg], rfl⟩

/-! ### One step each: display -/

/-- DS1. -/
theorem test_cls : gives (lit State.reset [(0, 0), (63, 31)]) 0x00E0
    (fun t => t.pixel 0 0 == false && t.pixel 63 31 == false && t.pc == 0x0202) = true := by decide

/-- DS5: wrap across the right edge. -/
theorem test_drw_wraps : gives (sprite 0x81 [(0, 60), (1, 31)]) 0xD011
    (fun t => t.pixel 60 31 && t.pixel 3 31 && !t.pixel 61 31 && !t.pixel 4 31 &&
      t.reg 0xF == 0) = true := by decide

/-- DS8: a pixel goes out and one stays. -/
theorem test_drw_collides : gives (lit (sprite 0xC0 []) [(1, 0), (5, 0)]) 0xD011
    (fun t => t.pixel 0 0 && t.pixel 5 0 && !t.pixel 1 0 && t.reg 0xF == 1) = true := by decide

/-- DS7: VF as X gives the coordinate 0. -/
theorem test_drw_vf : gives (sprite 0x80 [(0xF, 9)]) 0xDF01
    (fun t => t.pixel 0 0 && !t.pixel 9 0 && t.reg 0xF == 0) = true := by decide

/-- DS9. -/
theorem test_drw_fault : gives ((regs [(0xF, 7)]).setI 0x0FFF) 0xD012
    (fun t => faultedWith .draw 0x0200 0xD012 t && t.reg 0xF == 7) = true := by decide

/-! ### One step each: keypad and timers -/

/-- KT1, KT2. -/
theorem test_skp : gives ((regs [(3, 7)]).setKey 7 true) 0xE39E (fun t => t.pc == 0x0204) = true ∧
    gives (regs [(3, 7)]) 0xE39E (fun t => t.pc == 0x0202) = true := by decide

/-- KT5. -/
theorem test_skp_fault : gives (regs [(3, 0x10)]) 0xE39E (faultedWith .key 0x0200 0xE39E) = true := by
  decide

/-- KT3, KT4. -/
theorem test_sknp : gives (regs [(3, 7)]) 0xE3A1 (fun t => t.pc == 0x0204) = true ∧
    gives ((regs [(3, 7)]).setKey 7 true) 0xE3A1 (fun t => t.pc == 0x0202) = true := by decide

/-- KT6: the index is not masked. -/
theorem test_sknp_fault : gives (regs [(3, 0x17)]) 0xE3A1 (faultedWith .key 0x0200 0xE3A1) = true := by
  decide

/-- KT8. -/
theorem test_ldVxDt : gives { State.reset with dt := 0x3A } 0xFB07 (fun t => t.reg 0xB == 0x3A) = true := by
  decide

/-- KT9. -/
theorem test_ldVxK : gives State.reset 0xF30A
    (fun t => t.run == .awaitingKey 3 && t.pc == 0x0202 && t.reg 3 == 0) = true := by decide

/-- KT11: the lowest pressed key. -/
theorem test_keyScan : ((((State.reset.setRun (.awaitingKey 3)).setKey 0xA true).setKey 2 true).keyScan
    3).reg 3 = 2 := by decide

/-- KT13. -/
theorem test_ldDtVx : gives (regs [(0xA, 0x3C)]) 0xFA15 (fun t => t.dt == 0x3C && t.st == 0) = true := by
  decide

/-- KT14. -/
theorem test_ldStVx : gives (regs [(2, 5)]) 0xF218 (fun t => t.st == 5 && t.sound && t.dt == 0) = true := by
  decide

/-- W8: one TICK. -/
theorem test_tick : ({ State.reset with dt := 2, st := 1 }).tick.dt = 1 ∧
    ({ State.reset with dt := 2, st := 1 }).tick.st = 0 := by decide

/-! ### One step each: index register and memory -/

/-- IM1. -/
theorem test_ldI : gives State.reset 0xA300 (fun t => t.i == 0x0300) = true := by decide

/-- IM3, IM4. -/
theorem test_addIVx : gives ((regs [(2, 1)]).setI 0xFFFF) 0xF21E (fun t => t.i == 0) = true ∧
    gives ((regs [(2, 1), (0xF, 0x77)]).setI 0x0FFF) 0xF21E
      (fun t => t.i == 0x1000 && t.reg 0xF == 0x77) = true := by decide

/-- IM6, IM7. -/
theorem test_ldFVx : gives (regs [(0, 0x1A)]) 0xF029 (fun t => t.i == 0x0032) = true ∧
    gives (regs [(0, 0x0F)]) 0xF029 (fun t => t.i == 0x004B) = true := by decide

/-- W7 and IM12. -/
theorem test_ldBVx : gives ((regs [(0, 156)]).setI 0x300) 0xF033
      (fun t => t.readMem 0x300 == 1 && t.readMem 0x301 == 5 && t.readMem 0x302 == 6 &&
        t.i == 0x300) = true ∧
    gives ((regs [(0, 123)]).setI 0xFFD) 0xF033
      (fun t => t.readMem 0xFFD == 1 && t.readMem 0xFFF == 3) = true := by decide

/-- IM13. -/
theorem test_ldBVx_fault : gives ((regs [(0, 123)]).setI 0xFFE) 0xF033
    (fun t => faultedWith .store 0x0200 0xF033 t && t.readMem 0xFFE == 0) = true := by decide

/-- IM14. -/
theorem test_storeRegs : gives ((regs [(0, 0x11), (1, 0x22), (2, 0x33)]).setI 0x400) 0xF155
    (fun t => t.readMem 0x400 == 0x11 && t.readMem 0x401 == 0x22 && t.readMem 0x402 == 0 &&
      t.i == 0x400) = true := by decide

/-- IM17. -/
theorem test_storeRegs_fault : gives ((regs [(0, 9)]).setI 0xFFF) 0xF155
    (fun t => faultedWith .store 0x0200 0xF155 t && t.readMem 0xFFF == 0) = true := by decide

/-- IM19: the first byte of glyph 0. -/
theorem test_loadRegs : gives State.reset 0xF065 (fun t => t.reg 0 == 0xF0 && t.reg 1 == 0) = true := by
  decide

/-- IM20. -/
theorem test_loadRegs_fault : gives ((regs [(3, 1)]).setI 0xFFD) 0xF365
    (fun t => faultedWith .load 0x0200 0xF365 t && t.reg 3 == 1) = true := by decide

/-! ### Fetch and loading -/

/-- CY1. -/
theorem test_fetch_fault :
    ({ State.reset with pc := 0x0FFF } : State).fetch = none ∧
    ({ State.reset with pc := 0xFFFE } : State).fetch = none := by decide

/-- CY4: an odd fetch. -/
theorem test_fetch_odd : gives { State.reset with pc := 0x0201 } 0x6123
    (fun t => t.reg 1 == 0x23 && t.pc == 0x0203) = true := by decide

/-- CF14: an invalid word is reported and no skip happens. -/
theorem test_invalid : gives (regs [(1, 7), (2, 7)]) 0x5121
    (fun t => t.pc == 0x0202 && t.diag == [⟨.invalidInstruction, 0x0200, some 0x5121⟩] &&
      t.run == .running) = true := by decide

/-- A loaded program's bytes stand from 0x200 up, the font at 0 (R310). -/
theorem test_construct : (match construct 7 [0x12, 0x00] with
    | .next t => t.readMem 0x200 == 0x12 && t.readMem 0x201 == 0 && t.readMem 0x04F == 0x80 &&
        t.tInstr == 7
    | _ => false) = true := by decide

/-! ### Witnesses: states that meet the hypotheses of the obligations, clause by clause -/

theorem witness_EncodeOfDecode : decodeWord 0xD125 = .ok (.drw 0x1 0x2 0x5) := rfl

theorem witness_DecoderFollows : wellFormedWord 0x00E0 = true ∧ wellFormedWord 0xFF65 = true ∧
    wellFormedWord 0x00E1 = false ∧
    (Instr.row .cls ∈ opcodeTable ∧ (Instr.row .cls).selects 0x00E0 = true) := by decide

theorem witness_SecondaryDispatch : fieldF 0x00EE = 0x0 ∧ fieldF 0x9120 = 0x9 ∧ fieldN 0x9120 = 0x0 ∧
    (fieldN 0x823E).toNat ∈ [0, 1, 2, 3, 4, 5, 6, 7, 0xE] ∧ (fieldNN 0xE4A1).toNat ∈ [0x9E, 0xA1] ∧
    (fieldNN 0xFC65).toNat ∈ [0x07, 0x0A, 0x15, 0x18, 0x1E, 0x29, 0x33, 0x55, 0x65] := by decide

theorem witness_StepTakesTheNextEvent : State.reset.events = [] ∧
    State.reset.source = .repeating .cycle [] ∧
    ({ State.reset with events := [.tick] } : State).events = [.tick] ∧
    ({ State.reset with source := .free 0 } : State).source = .free 0 := ⟨rfl, rfl, rfl, rfl⟩

/-- A source that repeats a CYCLE and a TICK: the TICK comes in the second step. -/
theorem test_repeating : (match step { State.reset with source := .repeating .cycle [.tick], dt := 3 } with
    | .next t => t.dt == 3 && t.events == [.tick] &&
      (match step t with
        | .next u => u.dt == 2 && u.events == []
        | _ => false)
    | _ => false) = true := by decide

/-- 1200 at 0x0FFE, the last address a word can be fetched from (CY2). -/
def atTheEnd : State := ({ State.reset with pc := 0x0FFE } : State).writeBytes 0x0FFE [0x12, 0x00]

theorem witness_StepRuns : atTheEnd.run = .running ∧ atTheEnd.pc.toNat + 1 < defaults.memSize ∧
    atTheEnd.events = [] ∧ atTheEnd.source = .repeating .cycle [] ∧
    atTheEnd.nextEvent = (.cycle, atTheEnd) ∧
    decode [atTheEnd.readMem atTheEnd.pc.toNat, atTheEnd.readMem (atTheEnd.pc.toNat + 1)] =
      .ok (.jp 0x200, []) := ⟨rfl, by decide, rfl, rfl, rfl, rfl⟩

theorem witness_StepRuns_event : ({ atTheEnd with events := [.cycle] } : State).events = [.cycle] := rfl

theorem witness_Fetch_out : ({ State.reset with pc := 0x0FFF } : State).run = .running ∧
    defaults.memSize ≤ ({ State.reset with pc := 0x0FFF } : State).pc.toNat + 1 := by decide

theorem witness_Fetch_in : atTheEnd.run = .running ∧ atTheEnd.pc.toNat + 1 < defaults.memSize := by decide

/-- The zero word at 0x200 (CY5). -/
theorem witness_InvalidWord : State.reset.run = .running ∧ State.reset.pc.toNat + 1 < defaults.memSize ∧
    wellFormedWord (State.reset.readMem State.reset.pc.toNat ++
      State.reset.readMem (State.reset.pc.toNat + 1)) = false := by decide

theorem witness_KeyScan_none : (State.reset.setRun (.awaitingKey 0xF)).run = .awaitingKey 0xF ∧
    ∀ k, (State.reset.setRun (.awaitingKey 0xF)).keyDown k = false := by decide

/-- Key 0 down, and key 0xF alone down: the ends of the range. -/
theorem witness_KeyScan_some : (State.reset.setKey 0 true).keyDown 0 = true ∧
    (∀ j, j < (0 : Nibble) → (State.reset.setKey 0 true).keyDown j = false) ∧
    (State.reset.setKey 0xF true).keyDown 0xF = true ∧
    ∀ j, j < (0xF : Nibble) → (State.reset.setKey 0xF true).keyDown j = false := by decide

theorem witness_Faulted : (State.reset.setRun (.faulted ⟨.key, 0x200, some 0xE39E⟩)).run =
    .faulted ⟨.key, 0x200, some 0xE39E⟩ := rfl

/-- The four cases of a scheduler pass, at the readings where they meet. -/
theorem witness_SchedulerPass :
    (State.reset.schedulerPass 500).events = [.cycle, .tick] ∧
    (State.reset.schedulerPass 499).events = [.cycle] ∧
    (State.reset.schedulerPass 60).events = [.cycle] ∧
    (State.reset.schedulerPass 59).events = [] ∧
    (State.schedulerPass { State.reset with tInstr := 441 } 500).events = [.tick] := by decide

/-- The largest image that fits, and the smallest that does not (CY9, CY10), for the defaults, which R7
admits; and a choice R7 shuts out. -/
theorem witness_Construction : defaults.lawful = true ∧
    (List.replicate 3584 (0 : Byte)).length ≤ defaults.memSize - defaults.loadAddr ∧
    defaults.memSize - defaults.loadAddr < (List.replicate 3585 (0 : Byte)).length ∧
    ({ defaults with memSize := 65537 } : Params).lawful = false := by
  rw [List.length_replicate, List.length_replicate]; decide

theorem witness_Ret : State.reset.sp = 0 ∧ 0 < ({ State.reset with sp := 1 } : State).sp ∧
    0 < ({ State.reset with sp := 16 } : State).sp := by decide

/-- A full stack, one entry of room, an empty stack, and a stack of one entry, full and empty; a pc the entries
hold. -/
theorem witness_Call :
    ({ State.reset with sp := 16 } : State).params.stackDepth ≤ ({ State.reset with sp := 16 } : State).sp ∧
    ({ State.reset with sp := 15 } : State).shaped = true ∧
    ({ State.reset with sp := 15 } : State).sp < defaults.stackDepth ∧ State.reset.shaped = true ∧
    State.reset.sp < State.reset.params.stackDepth ∧ small.shaped = true ∧
    small.sp < small.params.stackDepth ∧ small.params.stackDepth ≤ ({ small with sp := 1 } : State).sp ∧
    State.reset.pc.toNat < 2 ^ State.reset.params.stackEntryW ∧
    small.pc.toNat < 2 ^ small.params.stackEntryW := by decide

/-- The callee's own state has the call's stack. -/
theorem witness_ReturnComesBack : ∃ t, exec (.call 0x400) State.reset = .next t ∧
    ∃ u : State, u.stack = t.stack ∧ u.sp = t.sp ∧ u.sp = 1 := ⟨_, rfl, _, rfl, rfl, rfl⟩

theorem witness_Skips_badNibble : (1 : Nibble) ≠ 0 ∧ (0xF : Nibble) ≠ 0 := by decide

/-- Another destination than VF, and each order of FLAG_ORDER for VF itself. -/
theorem witness_Writes_otherRegister : (0xE : Nibble) ≠ 0xF ∧ (0 : Nibble) ≠ 0xF ∧
    State.reset.params.flagOrder = .flagLast ∧ other.params.flagOrder = .resultLast := by decide

/-- No row, at any I; one row at the last byte; fifteen rows up to the last byte; on the default grid, and on one
of eight columns and fifteen rows, the least for any sprite. -/
theorem witness_Draw_in :
    (∀ r, r < (0 : Nibble).toNat → (State.reset.setI 0xFFFF).i.toNat + r < defaults.memSize) ∧
    (∀ r, r < (1 : Nibble).toNat → (State.reset.setI 0x0FFF).i.toNat + r < defaults.memSize) ∧
    (∀ r, r < (0xF : Nibble).toNat → (State.reset.setI 0x0FF1).i.toNat + r < defaults.memSize) ∧
    State.reset.shaped = true ∧ 8 ≤ State.reset.params.dispW ∧
    (0xF : Nibble).toNat ≤ State.reset.params.dispH ∧ small.shaped = true ∧ 8 ≤ small.params.dispW ∧
    (0xF : Nibble).toNat ≤ small.params.dispH ∧
    ∀ r, r < (0xF : Nibble).toNat → (small.setI 0x500).i.toNat + r < small.params.memSize := by decide

/-- A covered pixel that was set (DS3). -/
theorem witness_Draw_hit : SpriteCovers (lit (sprite 0x80 []) [(0, 0)])
      (drawCoord (lit (sprite 0x80 []) [(0, 0)]) 0) (drawCoord (lit (sprite 0x80 []) [(0, 0)]) 1)
      (1 : Nibble).toNat 0 0 ∧ (lit (sprite 0x80 []) [(0, 0)]).pixel 0 0 = true :=
  ⟨⟨0, by decide, 0, by decide, by decide, by decide, by decide⟩, by decide⟩

/-- On a clear grid no covered pixel was set (DS2). -/
theorem witness_Draw_noHit : ∀ px py, (sprite 0x80 []).pixel px py = false := fun px py =>
  Display.get_blank (p := defaults) px py

/-- The second row, or the first, outside memory (DS9). -/
theorem witness_Draw_out :
    (1 < (2 : Nibble).toNat ∧ defaults.memSize ≤ (State.reset.setI 0x0FFF).i.toNat + 1) ∧
    0 < (1 : Nibble).toNat ∧ defaults.memSize ≤ (State.reset.setI 0x1000).i.toNat + 0 := by decide

/-- Drawn twice (W6): one row in memory, a clear grid, a covered pixel; either order of DRAW_VF_ORDER. -/
theorem witness_DrawTwice : (sprite 0x80 []).shaped = true ∧ 8 ≤ (sprite 0x80 []).params.dispW ∧
    (1 : Nibble).toNat ≤ (sprite 0x80 []).params.dispH ∧
    (sprite 0x80 []).params.drawVfOrder = .clearFirst ∧
    (other.params.drawVfOrder = .readFirst ∧ (0 : Nibble) ≠ 0xF) ∧
    (∀ r, r < (1 : Nibble).toNat → (sprite 0x80 []).i.toNat + r < defaults.memSize) ∧
    (∀ px py, (sprite 0x80 []).pixel px py = false) ∧
    ∃ px py, SpriteCovers (sprite 0x80 []) (drawCoord (sprite 0x80 []) 0)
      (drawCoord (sprite 0x80 []) 1) (1 : Nibble).toNat px py :=
  ⟨by decide, by decide, by decide, rfl, by decide, by decide, witness_Draw_noHit,
    0, 0, ⟨0, by decide, 0, by decide, by decide, by decide, by decide⟩⟩

/-- The largest key index, and the smallest that faults. -/
theorem witness_KeySkips : (regs [(3, 0x0F)]).reg 3 = 0x0#4 ++ 0xF#4 ∧ State.reset.reg 3 = 0x0#4 ++ 0x0#4 ∧
    0xF < ((regs [(3, 0x10)]).reg 3).toNat := by decide

/-- The last three bytes of memory, one further; with RESERVED_WRITE = FAULT the first three bytes above the
reserved region, and one lower. -/
theorem witness_StoreBcd : Memory.wf defaults (State.reset.setI 0x0FFD).mem = true ∧
    ¬StoreFaults (State.reset.setI 0x0FFD) 3 ∧ StoreFaults (State.reset.setI 0x0FFE) 3 ∧
    ¬StoreFaults (other.setI 0x200) 3 ∧ StoreFaults (other.setI 0x1FF) 3 :=
  ⟨rfl, by simp [StoreFaults, State.reset, State.initial, defaults], .inl (by decide),
    by simp [StoreFaults, other, State.initial, otherParams, defaults]; omega,
    .inr ⟨rfl, 0, by decide, by decide, by decide⟩⟩

/-- X = 0 at the last byte; X = 15 up to the last byte, and one further; each value of BLOCK_I_MODE. -/
theorem witness_Block : Memory.wf defaults (State.reset.setI 0x0FFF).mem = true ∧
    ¬StoreFaults (State.reset.setI 0x0FFF) ((0 : Nibble).toNat + 1) ∧
    ¬StoreFaults (State.reset.setI 0x0FF0) ((0xF : Nibble).toNat + 1) ∧
    StoreFaults (State.reset.setI 0x0FF1) ((0xF : Nibble).toNat + 1) ∧
    StoreFaults (other.setI 0x1FE) ((1 : Nibble).toNat + 1) ∧
    (0xF : Nibble) ≤ 0xF ∧ ¬(0xF : Nibble) ≤ 0xE ∧ State.reset.params.blockIMode = .unchanged ∧
    other.params.blockIMode = .advanceXPlus1 :=
  ⟨rfl, by simp [StoreFaults, State.reset, State.initial, defaults],
    by simp [StoreFaults, State.reset, State.initial, defaults], .inl (by decide),
    .inr ⟨rfl, 0, by decide, by decide, by decide⟩, by decide, by decide, rfl, rfl⟩

theorem witness_BlockLoad : (State.reset.setI 0x0FFF).i.toNat + (0 : Nibble).toNat < defaults.memSize ∧
    (State.reset.setI 0x0FF0).i.toNat + (0xF : Nibble).toNat < defaults.memSize ∧
    defaults.memSize ≤ (State.reset.setI 0x0FF1).i.toNat + (0xF : Nibble).toNat := by decide

/-- The state after the store, with I as it was, has the stored memory and the same parameters. -/
theorem witness_BlockLoadUndoes : ∃ t, exec (.storeRegs 1) ((regs [(1, 5)]).setI 0x300) = .next t ∧
    ∃ u : State, u.params = t.params ∧ u.mem = t.mem ∧ u.i = ((regs [(1, 5)]).setI 0x300).i :=
  ⟨_, rfl, _, rfl, rfl, rfl⟩

/-- FF55 with I = 0x200 over the word at pc = 0x202. -/
theorem witness_StoredCode : (2 : Nibble) < 0xF ∧
    Memory.wf defaults ({ State.reset with i := 0x200, pc := 0x202 } : State).mem = true ∧
    ¬StoreFaults { State.reset with i := 0x200, pc := 0x202 } ((0xF : Nibble).toNat + 1) ∧
    ({ State.reset with i := 0x200, pc := 0x202 } : State).pc.toNat =
      ({ State.reset with i := 0x200, pc := 0x202 } : State).i.toNat + (2 : Nibble).toNat :=
  ⟨by decide, rfl, by simp [StoreFaults, State.reset, State.initial, defaults], by decide⟩

/-- An instruction has a next state: the hypothesis of the whole-machine rules. -/
theorem witness_RunIsWritten : ∃ t, exec (.skp 3) (regs [(3, 0x10)]) = .next t ∧
    t.run = .faulted ⟨.key, 0x01FE, some 0xE39E⟩ := ⟨_, rfl, rfl⟩

theorem witness_AtMostOneDiagnostic : ∃ t, cycle State.reset = .next t ∧ t.diag.length = 1 :=
  ⟨_, rfl, rfl⟩

theorem witness_VfWriters : mayWriteVf (.ldImm 0xE 1) = false ∧
    ∃ t, exec (.ldImm 0xE 1) State.reset = .next t := ⟨rfl, _, rfl⟩

/-- An instruction that is none of an element's writers. -/
theorem witness_ElementWriters : (∀ nnn, Instr.jp 0x300 ≠ .call nnn) ∧ Instr.jp 0x300 ≠ .ret ∧
    Instr.jp 0x300 ≠ .cls ∧ (∀ x y n, Instr.jp 0x300 ≠ .drw x y n) ∧
    (∀ x, Instr.jp 0x300 ≠ .ldBVx x ∧ Instr.jp 0x300 ≠ .storeRegs x) ∧
    (∀ x nnn, Instr.jp 0x300 ≠ .ldI nnn ∧ Instr.jp 0x300 ≠ .addIVx x ∧ Instr.jp 0x300 ≠ .ldFVx x) ∧
    (∀ x, Instr.jp 0x300 ≠ .storeRegs x ∧ Instr.jp 0x300 ≠ .loadRegs x) ∧
    (∀ x, Instr.jp 0x300 ≠ .ldDtVx x) ∧ (∀ x, Instr.jp 0x300 ≠ .ldStVx x) ∧
    ∃ t, exec (.jp 0x300) State.reset = .next t := by
  refine ⟨?_, ?_, ?_, ?_, ?_, ?_, ?_, ?_, ?_, _, rfl⟩ <;> simp

theorem witness_NoInstructionReads : ∃ t, exec (.ldStVx 2) (regs [(2, 5)]) = .next t ∧ t.st = 5 :=
  ⟨_, rfl, rfl⟩

theorem witness_FaultedIsTerminal :
    ∃ t, step (State.reset.setRun (.faulted ⟨.key, 0x200, some 0xE39E⟩)) = .next t := ⟨_, rfl⟩

/-- Two states that differ in what has been emitted, over a list with a TICK and a CYCLE. -/
theorem witness_NotObserved : (∀ e ∈ [Event.tick, .cycle], ∀ now, e ≠ .pass now) ∧
    SameArch State.reset (State.reset.report ⟨.stackOverflow, 0, none⟩) ∧
    State.reset.draws = (State.reset.report ⟨.stackOverflow, 0, none⟩).draws ∧
    ∃ s', runEvents [.tick, .cycle] State.reset = .next s' :=
  ⟨by simp, ⟨rfl, rfl, rfl, rfl, rfl, rfl, rfl, rfl, rfl, rfl, rfl, rfl⟩, rfl, _, rfl⟩

theorem witness_StepsRefine : ∀ e ∈ [Event.keySet 7 true, .cycle, .tick], ∀ now, e ≠ .pass now := by simp

theorem witness_StepsRefine_free : ({ State.reset with source := .free 0 } : State).events = [] ∧
    ({ State.reset with source := .free 0 } : State).source = .free 0 := ⟨rfl, rfl⟩

/-- TICK and CYCLE in turn. -/
def inTurn (n : Nat) : Event := if n % 2 = 0 then .tick else .cycle

theorem witness_WeaklyFair : WeaklyFair inTurn :=
  ⟨fun n => ⟨2 * n, by omega, by simp [inTurn]⟩, fun n => ⟨2 * n + 1, by omega, by simp [inTurn]⟩⟩

/-- A Faulted core whose delay timer runs out at the first TICK. -/
def faultedRun (n : Nat) : State :=
  (State.reset.setRun (.faulted ⟨.key, 0x200, some 0xE39E⟩)).setDt (if n = 0 then 1 else 0)

theorem witness_FairRuns_faulted : InfiniteRun inTurn faultedRun ∧
    (faultedRun 0).run = .faulted ⟨.key, 0x200, some 0xE39E⟩ := by
  refine ⟨fun n => ?_, rfl⟩
  match n with
  | 0 => rfl
  | n + 1 =>
    have e : faultedRun (n + 1 + 1) = faultedRun (n + 1) := rfl
    rw [e, inTurn]
    split
    · rfl
    · rfl

/-- 1200 at 0x200 and key 0xF held. -/
def heldKey : State := (State.reset.placeWord 0x1200).setKey 0xF true

/-- A wait for V[3] with the key held: it ends in the CYCLE at position 1, and the core then jumps to
itself for ever. -/
def heldKeyRun : Nat → State
  | 0 => heldKey.setRun (.awaitingKey 3)
  | 1 => heldKey.setRun (.awaitingKey 3)
  | _ + 2 => heldKey.setReg 3 0x0F

theorem heldKey_cycle : applyEvent .cycle (heldKey.setReg 3 0x0F) = .next (heldKey.setReg 3 0x0F) := by
  have hf : (heldKey.setReg 3 0x0F).fetch = some 0x1200 := by decide
  have hd : decodeWord 0x1200 = .ok (.jp 0x200) := rfl
  have hc : cycle (heldKey.setReg 3 0x0F) = (heldKey.setReg 3 0x0F).runCycle := rfl
  rw [applyEvent, hc, State.runCycle, hf]
  simp only [dispatch, hd]
  rfl

theorem witness_FairRuns_wait : InfiniteRun inTurn heldKeyRun ∧
    (heldKeyRun 0).run = .awaitingKey 3 ∧ ∀ n, (heldKeyRun n).keyDown 0xF = true := by
  refine ⟨fun n => ?_, rfl, fun n => ?_⟩
  · match n with
    | 0 => rfl
    | 1 => rfl
    | n + 2 =>
      rw [inTurn]
      split
      · rfl
      · exact heldKey_cycle
  · match n with
    | 0 => rfl
    | 1 => rfl
    | n + 2 => rfl

/-- Two consecutive TICKs, in a list and in a sequence; a machine without bounds and one with. -/
theorem witness_RateBounds : State.reset.params.rateBounds = defaults.rateBounds ∧
    other.params.rateBounds = .between 2 3 ∧
    [Event.tick, .cycle, .tick] = [] ++ .tick :: ([.cycle] ++ .tick :: []) ∧
    Event.tick ∉ [Event.cycle] ∧ inTurn 0 = .tick ∧ inTurn (0 + 1 + 1) = .tick ∧
    ∀ j, j < 1 → inTurn (0 + 1 + j) ≠ .tick := by
  refine ⟨rfl, rfl, rfl, by decide, rfl, rfl, by decide⟩

/-- 1200 at 0x200. -/
theorem witness_SelfLoop : (State.reset.placeWord 0x1200).run = .running ∧
    (State.reset.placeWord 0x1200).pc.toNat = (0x200 : Addr12).toNat ∧
    (State.reset.placeWord 0x1200).fetch = some (0x1#4 ++ 0x200#12) := by decide

theorem witness_StateForm : State.reset.wf = true ∧ (State.reset.placeWord 0x1200).wf = true ∧
    small.wf = true ∧ other.wf = true ∧ ∃ t, step State.reset = .next t :=
  ⟨by decide, by decide, by decide, by decide, _, rfl⟩

/-- Both bounds met with equality, with the default MEM_SIZE. -/
theorem witness_PcBound : PcBounded
    { State.reset with pc := 0x10FE, stack := State.reset.stack.set 15 0x1000 } ∧
    State.reset.params.memSize = defaults.memSize := by
  refine ⟨⟨by decide, fun k => ?_⟩, rfl⟩
  refine (congrArg BitVec.toNat (getD_set (l := State.reset.stack) (by decide) 0x1000 k)).trans_le ?_
  split
  · decide
  · have z : ∀ w ∈ State.reset.stack, w = 0 := fun w hw => List.eq_of_mem_replicate hw
    rw [List.getD_eq_getElem?_getD]
    cases h : State.reset.stack[k]? with
    | none => decide
    | some w => rw [Option.getD_some, z w (List.mem_of_getElem? h)]; decide

theorem witness_InvariantsAtReset : ∃ t, construct 0 [0x12, 0x00] = .next t := ⟨_, rfl⟩

/-- The end of a run (R116): a self-loop is one, a Faulted state is a fault, reset is neither. -/
theorem test_ending : (ending (State.reset.placeWord 0x1200)).isSome = true ∧
    (ending State.reset).isNone = true ∧
    (match ending (State.reset.setRun (.faulted ⟨.key, 0x200, none⟩)) with
      | some (.fault (.boundsFault f)) => f.kind == .key
      | _ => false) = true := by decide

/-- Rate bounds 2 to 3 refuse one CYCLE between two TICKs and admit two (R112). -/
theorem test_rate : admits (.between 2 3) [.tick, .cycle, .tick] = false ∧
    admits (.between 2 3) [.tick, .cycle, .cycle, .tick] = true ∧
    admits .unbounded [.tick, .tick] = true := by decide

/-- Glyphs A and F where FX29 points (R54, R55; IM5, IM7). -/
theorem test_font : ((List.range 5).map fun k => State.reset.readMem (0x032 + k)) =
      [0xF0, 0x90, 0xF0, 0x90, 0x90] ∧
    ((List.range 5).map fun k => State.reset.readMem (0x04B + k)) =
      [0xF0, 0x80, 0xF0, 0x80, 0x80] ∧ State.reset.readMem 0x050 = 0 := by decide

/-- Another FONT_DATA: a session constructed with it holds it at FONT_BASE (R55). -/
theorem test_other_font : (match construct 0 [0x12]
      { defaults with fontData := List.replicate 80 0xAA } with
    | .next t => t.readMem 0 == 0xAA && t.readMem 0x04F == 0xAA && t.readMem 0x050 == 0 &&
        t.readMem 0x200 == 0x12
    | _ => false) = true := by decide

/-! ### Other parameters (R7): expected results from the rules that name each one -/

/-- RESULT_LAST: with X = F the sum stays in VF (R162; AL10's operands). -/
theorem test_result_last : gives (other.setReg 0xF 0xFF |>.setReg 1 2) 0x8F14
    (fun t => t.reg 0xF == 1) = true ∧
    gives (other.setReg 0xF 0xF0 |>.setReg 1 2) 0x8F14 (fun t => t.reg 0xF == 0xF2) = true := by decide

/-- READ_FIRST: VF gives its old value as a coordinate (R201; DS7's operands). -/
theorem test_read_first : gives (((other.setReg 0xF 9).setI 0x300).writeMem 0x300 0x80) 0xDF01
    (fun t => t.pixel 9 0 && !t.pixel 0 0 && t.reg 0xF == 0) = true := by decide

/-- ADVANCE_X_PLUS_1: FX55 and FX65 add X + 1 to I (R254, R255). -/
theorem test_advance : gives (other.setI 0x400) 0xF155 (fun t => t.i == 0x402) = true ∧
    gives (other.setI 0x400) 0xF065 (fun t => t.i == 0x401) = true := by decide

/-- RESERVED_WRITE = FAULT: a store that meets the reserved region faults before any write (R56). -/
theorem test_reserved_fault : gives (other.setI 0x1FF) 0xF155
    (fun t => faultedWith .store 0x0200 0xF155 t && t.readMem 0x1FF == 0) = true ∧
    gives (other.setI 0x200) 0xF055 (fun t => t.run == .running) = true := by decide

/-- FX29 and memory with the font at 0x050 and glyphs of two bytes (R54, R252). -/
theorem test_small_font : gives (small.setReg 0 0x1A) 0xF029 (fun t => t.i == 0x0064) = true ∧
    small.readMem 0x04F = 0 ∧ small.readMem 0x050 = 0x55 ∧ small.readMem 0x06F = 0x55 ∧
    small.readMem 0x070 = 0 := by decide

/-- A stack of one entry: the second call overflows (R132). -/
theorem test_small_stack : gives small 0x2400
      (fun t => t.pc == 0x400 && t.sp == 1 && t.stackAt 0 == 0x0302) = true ∧
    gives { small with sp := 1 } 0x2400
      (fun t => t.pc == 0x302 && t.diag == [⟨.stackOverflow, 0x300, some 0x2400⟩]) = true := by decide

/-- A grid of eight columns and fifteen rows wraps at its own edges (R201). -/
theorem test_small_grid : gives (((small.setI 0x300).writeMem 0x310 0x81).setI 0x310 |>.setReg 0 15) 0xD001
    (fun t => t.pixel 7 0 && t.pixel 6 0 && !t.pixel 0 0) = true := by decide

/-- Memory of 0x600 bytes: the fetch and a load fault at its end (R51, R103). -/
theorem test_small_memory : ({ small with pc := 0x5FF } : State).fetch = none ∧
    gives (small.setI 0x5FF) 0xF165 (fun t => faultedWith .load 0x300 0xF165 t) = true := by decide

/-- TIMER_HZ = 2 and INSTR_HZ = 3: periods of 2 and 3 units of 1/6 s (R110). -/
theorem test_small_rates : (small.schedulerPass 2).events = [.cycle] ∧
    (small.schedulerPass 3).events = [.cycle, .tick] ∧ (small.schedulerPass 1).events = [] := by decide

end Sys2Proof.Tests
end

section
/-!
PROOFS of the scope family (spec 00_scope.md): the state's form, the parameters, the writers of each element, reset.
-/

namespace Sys2Proof.Machine

open Sys2Proof.Config Sys2Proof.Safety

/-! ### What a run of byte writes leaves alone -/

@[simp] theorem State.writeBytes_stack (s : State) (a : Nat) (bs : List Byte) :
    (s.writeBytes a bs).stack = s.stack := by rw [State.writeBytes_frame]

@[simp] theorem State.writeBytes_sp (s : State) (a : Nat) (bs : List Byte) :
    (s.writeBytes a bs).sp = s.sp := by rw [State.writeBytes_frame]

@[simp] theorem State.writeBytes_disp (s : State) (a : Nat) (bs : List Byte) :
    (s.writeBytes a bs).disp = s.disp := by rw [State.writeBytes_frame]

@[simp] theorem State.writeBytes_key (s : State) (a : Nat) (bs : List Byte) :
    (s.writeBytes a bs).key = s.key := by rw [State.writeBytes_frame]

@[simp] theorem State.writeBytes_dt (s : State) (a : Nat) (bs : List Byte) :
    (s.writeBytes a bs).dt = s.dt := by rw [State.writeBytes_frame]

@[simp] theorem State.writeBytes_st (s : State) (a : Nat) (bs : List Byte) :
    (s.writeBytes a bs).st = s.st := by rw [State.writeBytes_frame]

@[simp] theorem State.writeBytes_pc (s : State) (a : Nat) (bs : List Byte) :
    (s.writeBytes a bs).pc = s.pc := by rw [State.writeBytes_frame]

/-! ### What a step that executes no instruction leaves alone -/

/-- The fields that the form of a state looks at, and the parameters, are the same in both states. -/
structure SameForm (s t : State) : Prop where
  params : t.params = s.params
  mem : t.mem = s.mem
  stack : t.stack = s.stack
  sp : t.sp = s.sp
  disp : t.disp = s.disp

/-- States with the same such fields have the form together. -/
theorem SameForm.wf_eq {s t : State} (h : SameForm s t) : t.wf = s.wf :=
  State.wf_congr h.params h.mem h.stack h.sp h.disp

theorem SameForm.keyScan (s : State) (x : Nibble) : SameForm s (s.keyScan x) := by
  rw [State.keyScan_frame]
  exact ⟨rfl, rfl, rfl, rfl, rfl⟩

/-- A cycle executes one instruction, after the fetch's advance, or leaves these fields alone (R100 to R105). -/
theorem cycle_exec_or_sameForm {s t : State} (h : cycle s = .next t) :
    (∃ i, exec i s.advance = .next t) ∨ SameForm s t := by
  rcases cycle_cases s with ⟨-, -, e⟩ | ⟨x, -, e⟩ | ⟨-, -, e⟩ | ⟨-, -, -, e⟩ | ⟨i, -, -, -, e⟩
  case inr.inr.inr.inr => exact .inl ⟨i, e ▸ h⟩
  all_goals
    right
    cases e.symm.trans h
  · exact ⟨rfl, rfl, rfl, rfl, rfl⟩
  · exact .keyScan s x
  · exact ⟨rfl, rfl, rfl, rfl, rfl⟩
  · exact ⟨rfl, rfl, rfl, rfl, rfl⟩

/-- An event executes one instruction, which only a CYCLE does, or leaves these fields alone (R45, R112). -/
theorem applyEvent_exec_or_sameForm {e : Event} {s t : State} (h : applyEvent e s = .next t) :
    (∃ i, exec i s.advance = .next t) ∨ SameForm s t := by
  cases e with
  | cycle => exact cycle_exec_or_sameForm h
  | tick | keySet | pass => cases h; exact .inr ⟨rfl, rfl, rfl, rfl, rfl⟩

/-- A step executes one instruction, in a state with these fields as they were, or leaves them alone. -/
theorem step_exec_or_sameForm {s t : State} (h : step s = .next t) :
    (∃ i u, SameForm s u ∧ exec i u = .next t) ∨ SameForm s t := by
  obtain ⟨e, es, src, he⟩ := step_cases s
  rcases applyEvent_exec_or_sameForm (he ▸ h) with ⟨i, hi⟩ | ⟨hp, hm, hk, hs, hd⟩
  · refine .inl ⟨i, _, ?_, hi⟩
    exact ⟨rfl, rfl, rfl, rfl, rfl⟩
  · exact .inr ⟨hp, hm, hk, hs, hd⟩

/-! ### What every instruction and every step keeps -/

/-- Every instruction keeps memory's canonical form: a store that is performed lies inside memory (R68). -/
theorem exec_memory_wf {i : Instr} {s t : State} (w : Memory.wf s.params s.mem = true)
    (h : exec i s = .next t) : Memory.wf t.params t.mem = true := by
  rw [exec_params h]
  cases shape_of_exec h with
  | store _ bs fit _ _ e => subst e; exact State.wf_writeBytes w _ bs fit
  | _ => subst_eqs; exact w

/-- Every instruction keeps the form of a state. -/
theorem exec_wf {i : Instr} {s t : State} (w : s.wf = true) (h : exec i s = .next t) : t.wf = true := by
  obtain ⟨lawful, mem, shaped⟩ := State.wf_iff.1 w
  exact State.wf_iff.2 ⟨by rwa [exec_params h], exec_memory_wf mem h, exec_shaped shaped h⟩

/-- No step writes the parameters (R7). -/
theorem step_params {s t : State} (h : step s = .next t) : t.params = s.params := by
  rcases step_exec_or_sameForm h with ⟨i, u, same, hi⟩ | same
  · exact (exec_params hi).trans same.params
  · exact same.params

/-- Every step keeps the form of a state. -/
theorem step_wf {s t : State} (w : s.wf = true) (h : step s = .next t) : t.wf = true := by
  rcases step_exec_or_sameForm h with ⟨i, u, same, hi⟩ | same
  · exact exec_wf (same.wf_eq.trans w) hi
  · exact same.wf_eq.trans w

/-! ### The writers of each element -/

section Writers

variable {i : Instr} {s t : State}

/-- The call stack is written by CALL and RET alone (R28). -/
theorem Shape.stack_unchanged (sh : Shape i s t) (hcall : ∀ nnn, i ≠ .call nnn) (hret : i ≠ .ret) :
    Unchanged s t .stack := by
  cases sh with
  | ret hi => exact absurd hi hret
  | call nnn hi => exact absurd hi (hcall nnn)
  | _ => subst_eqs; simp [Unchanged]

/-- The display is written by 00E0 and DXYN alone (R204). -/
theorem Shape.display_unchanged (sh : Shape i s t) (hcls : i ≠ .cls) (hdrw : ∀ x y n, i ≠ .drw x y n) :
    Unchanged s t .display := by
  cases sh with
  | display hi =>
    obtain hi | ⟨x, y, n, hi⟩ := hi
    · exact absurd hi hcls
    · exact absurd hi (hdrw x y n)
  | _ => subst_eqs; simp [Unchanged, State.pixel]

/-- Memory is written by FX33 and FX55 alone (R50). -/
theorem Shape.memory_unchanged (sh : Shape i s t) (hst : ∀ x, i ≠ .ldBVx x ∧ i ≠ .storeRegs x) :
    Unchanged s t .memory := by
  cases sh with
  | store hi =>
    obtain ⟨x, hi | hi⟩ := hi
    · exact absurd hi (hst x).1
    · exact absurd hi (hst x).2
  | _ => subst_eqs; simp [Unchanged, State.readMem]

/-- I is written by ANNN, FX1E and FX29, and by FX55 and FX65 only where BLOCK_I_MODE moves it (R24). -/
theorem Shape.index_unchanged (sh : Shape i s t)
    (hix : ∀ x nnn, i ≠ .ldI nnn ∧ i ≠ .addIVx x ∧ i ≠ .ldFVx x)
    (hblock : (∀ x, i ≠ .storeRegs x ∧ i ≠ .loadRegs x) ∨ s.params.blockIMode = .unchanged) :
    Unchanged s t .index := by
  have still {x : Nibble} (hi : i = .storeRegs x ∨ i = .loadRegs x) :
      s.params.blockIMode ≠ .advanceXPlus1 := by
    rcases hblock with no | mode
    · exact absurd hi (not_or.2 (no x))
    · simp [mode]
  cases sh with
  | index hi =>
    obtain ⟨x, nnn, hi⟩ := hi
    obtain ⟨h1, h2, h3⟩ := hix x nnn
    exact absurd hi (by simp [h1, h2, h3])
  | load hi v w hw e =>
    obtain ⟨x, hi⟩ := hi
    subst e
    exact hw.resolve_right (still (.inr hi))
  | store hi bs fit w hw e =>
    subst e
    exact hw.resolve_right fun ⟨mode, x, hx⟩ => still (.inl hx) mode
  | _ => subst_eqs; simp [Unchanged]

/-- DT is written by FX15 alone (R32). -/
theorem Shape.delay_unchanged (sh : Shape i s t) (hdt : ∀ x, i ≠ .ldDtVx x) : Unchanged s t .delay := by
  cases sh with
  | delay hi => obtain ⟨x, hi⟩ := hi; exact absurd hi (hdt x)
  | _ => subst_eqs; simp [Unchanged]

/-- ST is written by FX18 alone (R33). -/
theorem Shape.sound_unchanged (sh : Shape i s t) (hst : ∀ x, i ≠ .ldStVx x) : Unchanged s t .sound := by
  cases sh with
  | sound hi => obtain ⟨x, hi⟩ := hi; exact absurd hi (hst x)
  | _ => subst_eqs; simp [Unchanged]

/-- No instruction writes the keypad (R31). -/
theorem Shape.keypad_unchanged (sh : Shape i s t) : Unchanged s t .keypad := by
  cases sh with
  | _ => subst_eqs; simp [Unchanged, State.keyDown]

end Writers

/-! ### The machine that construction answers -/

/-- With admitted parameters and an image that fits, it has the form of a state (R310, R313). -/
theorem construct_wf {now : Nat} {img : List Byte} {p : Params} {t : State}
    (h : construct now img p = .next t) : t.wf = true := by
  obtain ⟨lawful, fit, rfl⟩ := construct_eq_next h
  have mem : Memory.wf p ((State.initial p).writeBytes p.loadAddr img).mem = true :=
    State.wf_writeBytes (s := State.initial p) rfl p.loadAddr img fit
  rw [State.writeBytes_frame]
  exact State.wf_iff.2 ⟨lawful, mem, State.shaped_initial p⟩

/-- Its pc is LOAD_ADDR, below MEM_SIZE, and its stack entries are zero (R27, R313). -/
theorem construct_pcBounded {now : Nat} {img : List Byte} {p : Params} {t : State}
    (h : construct now img p = .next t) : PcBounded t := by
  obtain ⟨lawful, -, rfl⟩ := construct_eq_next h
  obtain ⟨-, -, -, load, -⟩ := Params.lawful_iff.1 lawful
  constructor
  · have le : p.loadAddr % 2 ^ 16 ≤ p.loadAddr := Nat.mod_le ..
    simp only [State.writeBytes_pc, State.writeBytes_params, State.initial, BitVec.toNat_ofNat]
    omega
  · intro k
    have zero : (List.replicate p.stackDepth (0 : Word)).getD k 0 = 0 := by
      rw [List.getD_eq_getElem?_getD, List.getElem?_replicate]
      split <;> rfl
    simp only [State.stackAt, State.writeBytes_stack, State.initial, zero]
    exact Nat.zero_le _

end Sys2Proof.Machine
end

section
/-!
The obligations of the scope family.
-/

namespace Sys2Proof.Proofs

open Sys2Proof.Machine Sys2Proof.Config

/-- Settles O58: a step executes one instruction, which keeps the form, or touches nothing the form looks at. -/
theorem stateFormIsInvariant : Obligations.StateFormIsInvariant := by
  unfold Obligations.StateFormIsInvariant
  exact fun _ _ => step_wf

/-- Settles O17: the defaults by evaluation, R7's constraints one by one, and the frames of construction and step. -/
theorem parametersAreArgumentsWithTheirDefaults :
    Obligations.ParametersAreArgumentsWithTheirDefaults := by
  unfold Obligations.ParametersAreArgumentsWithTheirDefaults
  refine ⟨by decide, fun _ => Params.lawful_iff, defaults_lawful, fun now img p t h => ?_,
    fun _ _ => step_params⟩
  obtain ⟨-, -, rfl⟩ := construct_eq_next h
  exact State.writeBytes_params ..

/-- Settles O49: each element is written in the shapes of its named writers alone. -/
theorem eachElementHasOnlyItsNamedWriters : Obligations.EachElementHasOnlyItsNamedWriters := by
  unfold Obligations.EachElementHasOnlyItsNamedWriters
  intro i s t h
  have sh := shape_of_exec h
  exact ⟨sh.stack_unchanged, sh.display_unchanged, sh.memory_unchanged, sh.index_unchanged,
    sh.delay_unchanged, sh.sound_unchanged, sh.keypad_unchanged, exec_params h⟩

/-- Settles O20: the empty image fits and writes nothing; unlawful parameters are refused before the image is
looked at. -/
theorem resetIsTheEmptyImage : Obligations.ResetIsTheEmptyImage := by
  unfold Obligations.ResetIsTheEmptyImage
  refine ⟨?_, rfl, fun now img p h => ?_⟩
  · rw [construct_eq, if_pos defaults_lawful]; rfl
  · rw [construct_eq, h]; rfl

/-- Settles O60: both invariants hold of every constructed machine, and State.reset is one (O20). -/
theorem invariantsHoldAtReset : Obligations.InvariantsHoldAtReset := by
  unfold Obligations.InvariantsHoldAtReset
  obtain ⟨reset, -, -⟩ := resetIsTheEmptyImage
  exact ⟨⟨construct_wf reset, construct_pcBounded reset⟩,
    fun _ _ _ _ h => ⟨construct_wf h, construct_pcBounded h⟩⟩

end Sys2Proof.Proofs
end

section
/-!
PROOFS of the state family (spec 10_state.md): what an instruction does on each of its branches, to pc, to VF and
to `run`; what no instruction and no event looks at; steps as runs of event lists.
-/

namespace Sys2Proof.Machine

open Sys2Proof.Config Sys2Proof.Safety

/-! ### The branches of an instruction, an equation each -/

theorem exec_ret_pop {s : State} (h : 0 < s.sp) :
    exec .ret s = .next { s with sp := s.sp - 1, pc := s.stackAt (s.sp - 1) } := by
  simp only [exec, execRet, State.pop_eq_some.2 ⟨h, rfl, rfl⟩]
  rfl

theorem exec_ret_empty {s : State} (h : s.sp = 0) :
    exec .ret s = .next (s.reportInstr .stackUnderflow .ret) := by
  simp only [exec, execRet, State.pop_eq_none.2 h]

theorem exec_call_push {s : State} (nnn : Addr12) (h : s.sp < s.params.stackDepth) :
    exec (.call nnn) s = .next { s with
      stack := s.stack.set s.sp (s.params.stackEntry s.pc), sp := s.sp + 1, pc := zext16 nnn } := by
  simp only [exec, execCall, State.push_eq_some.2 ⟨h, rfl⟩]
  rfl

theorem exec_call_full {s : State} (nnn : Addr12) (h : ¬s.sp < s.params.stackDepth) :
    exec (.call nnn) s = .next (s.reportInstr .stackOverflow (.call nnn)) := by
  simp only [exec, execCall, State.push_eq_none.2 (Nat.le_of_not_lt h)]

theorem exec_skp_key {s : State} {x k : Nibble} (h : s.keyIndex x = some k) :
    exec (.skp x) s = .next (s.skipIf (s.keyDown k)) := by
  simp only [exec, execSkp, h]

theorem exec_skp_fault {s : State} {x : Nibble} (h : s.keyIndex x = none) :
    exec (.skp x) s = .next (s.raiseInstr .key (.skp x)) := by
  simp only [exec, execSkp, h]

theorem exec_sknp_key {s : State} {x k : Nibble} (h : s.keyIndex x = some k) :
    exec (.sknp x) s = .next (s.skipIf (!s.keyDown k)) := by
  simp only [exec, execSknp, h]

theorem exec_sknp_fault {s : State} {x : Nibble} (h : s.keyIndex x = none) :
    exec (.sknp x) s = .next (s.raiseInstr .key (.sknp x)) := by
  simp only [exec, execSknp, h]

theorem exec_drw_in {s : State} (x y : Nibble) {n : Nibble} (h : inMemory s.params (s.ea 0) n.toNat = true) :
    exec (.drw x y n) s = .next
      ((s.setDisp (s.drawing x y n).disp).setReg vf (if (s.drawing x y n).hit then 1 else 0)) :=
  if_pos h

theorem exec_drw_fault {s : State} (x y : Nibble) {n : Nibble} (h : ¬inMemory s.params (s.ea 0) n.toNat = true) :
    exec (.drw x y n) s = .next (s.raiseInstr .draw (.drw x y n)) :=
  if_neg h

theorem exec_ldBVx_in {s : State} (x : Nibble) (h : storeAllowed s.params (s.ea 0) 3 = true) :
    exec (.ldBVx x) s = .next (s.writeBytes (s.ea 0) (bcdDigits (s.reg x))) :=
  if_pos h

theorem exec_ldBVx_fault {s : State} (x : Nibble) (h : ¬storeAllowed s.params (s.ea 0) 3 = true) :
    exec (.ldBVx x) s = .next (s.raiseInstr .store (.ldBVx x)) :=
  if_neg h

theorem exec_storeRegs_in {s : State} {x : Nibble} (h : storeAllowed s.params (s.ea 0) (x.toNat + 1) = true) :
    exec (.storeRegs x) s = .next ((s.writeBytes (s.ea 0) (s.regBlock x)).blockEnd x) :=
  if_pos h

theorem exec_storeRegs_fault {s : State} {x : Nibble}
    (h : ¬storeAllowed s.params (s.ea 0) (x.toNat + 1) = true) :
    exec (.storeRegs x) s = .next (s.raiseInstr .store (.storeRegs x)) :=
  if_neg h

theorem exec_loadRegs_in {s : State} {x : Nibble} (h : inMemory s.params (s.ea 0) (x.toNat + 1) = true) :
    exec (.loadRegs x) s = .next ((s.loadBlock (s.ea 0) (x.toNat + 1)).blockEnd x) :=
  if_pos h

theorem exec_loadRegs_fault {s : State} {x : Nibble} (h : ¬inMemory s.params (s.ea 0) (x.toNat + 1) = true) :
    exec (.loadRegs x) s = .next (s.raiseInstr .load (.loadRegs x)) :=
  if_neg h

/-! ### Fields that the composed operations leave alone -/

@[simp] theorem State.setRegFlag_pc (s : State) (x : Nibble) (r f : Byte) : (s.setRegFlag x r f).pc = s.pc := by
  rw [State.setRegFlag_frame]

@[simp] theorem State.loadBlock_pc (s : State) (a n : Nat) : (s.loadBlock a n).pc = s.pc := by
  rw [State.loadBlock_frame]

@[simp] theorem State.blockEnd_pc (s : State) (x : Nibble) : (s.blockEnd x).pc = s.pc := by
  rw [State.blockEnd_eq]

@[simp] theorem State.reg_blockEnd (s : State) (x y : Nibble) : (s.blockEnd x).reg y = s.reg y := by
  rw [State.blockEnd_eq]; rfl

@[simp] theorem State.reg_writeBytes (s : State) (a : Nat) (bs : List Byte) (y : Nibble) :
    (s.writeBytes a bs).reg y = s.reg y := by rw [State.writeBytes_frame]; rfl

@[simp] theorem State.reg_skipIf (s : State) (c : Bool) (y : Nibble) : (s.skipIf c).reg y = s.reg y := by
  rw [State.skipIf_eq]; rfl

/-! ### The program counter and the stacked return addresses -/

/-- The largest target of a jump is JP V0's 0xFFF + 0xFF (R27, R137). -/
theorem jumpTarget_le (nnn : Addr12) (b : Byte) : (zext16 nnn + zext16 b).toNat ≤ 0x10FE := by
  have hn := nnn.isLt
  have hb := b.isLt
  simp only [zext16, BitVec.toNat_add, BitVec.toNat_setWidth]
  omega

theorem zext16_addr_le (nnn : Addr12) : (zext16 nnn).toNat ≤ 0x10FE := by
  have hn := nnn.isLt
  simp only [zext16, BitVec.toNat_setWidth]
  omega

/-- Where the sum wraps it is smaller still (R25). -/
theorem toNat_add_two_le (w : Word) : (w + 2).toNat ≤ w.toNat + 2 := by
  rw [BitVec.toNat_add]; exact Nat.mod_le ..

/-- What an instruction can leave in pc: what stood there, a skip's advance, a jump's target, or the top of the
stack (R27). -/
inductive NextPc (s : State) (w : Word) : Prop where
  | same (e : w = s.pc)
  | skip (e : w = s.pc + 2)
  | jump (le : w.toNat ≤ 0x10FE)
  | ret (e : w = s.stackAt (s.sp - 1))

theorem State.nextPc_skipIf (s : State) (c : Bool) : NextPc s (s.skipIf c).pc := by
  cases c
  · exact .same rfl
  · exact .skip rfl

theorem exec_nextPc {i : Instr} {s t : State} (h : exec i s = .next t) : NextPc s t.pc := by
  cases i with
  | jp nnn => cases h; exact .jump (zext16_addr_le nnn)
  | jpV0 nnn => cases h; exact .jump (jumpTarget_le nnn _)
  | ret =>
    rcases Nat.eq_zero_or_pos s.sp with c | c
    · cases (exec_ret_empty c).symm.trans h; exact .same rfl
    · cases (exec_ret_pop c).symm.trans h; exact .ret rfl
  | call nnn =>
    by_cases c : s.sp < s.params.stackDepth
    · cases (exec_call_push nnn c).symm.trans h; exact .jump (zext16_addr_le nnn)
    · cases (exec_call_full nnn c).symm.trans h; exact .same rfl
  | seImm | sneImm | seReg | sneReg => cases h; exact s.nextPc_skipIf _
  | skp x =>
    cases c : s.keyIndex x with
    | some k => cases (exec_skp_key c).symm.trans h; exact s.nextPc_skipIf _
    | none => cases (exec_skp_fault c).symm.trans h; exact .same rfl
  | sknp x =>
    cases c : s.keyIndex x with
    | some k => cases (exec_sknp_key c).symm.trans h; exact s.nextPc_skipIf _
    | none => cases (exec_sknp_fault c).symm.trans h; exact .same rfl
  | drw x y n =>
    by_cases c : inMemory s.params (s.ea 0) n.toNat = true
    · cases (exec_drw_in x y c).symm.trans h; exact .same rfl
    · cases (exec_drw_fault x y c).symm.trans h; exact .same rfl
  | ldBVx x =>
    by_cases c : storeAllowed s.params (s.ea 0) 3 = true
    · cases (exec_ldBVx_in x c).symm.trans h; exact .same (by simp)
    · cases (exec_ldBVx_fault x c).symm.trans h; exact .same rfl
  | storeRegs x =>
    by_cases c : storeAllowed s.params (s.ea 0) (x.toNat + 1) = true
    · cases (exec_storeRegs_in c).symm.trans h; exact .same (by simp)
    · cases (exec_storeRegs_fault c).symm.trans h; exact .same rfl
  | loadRegs x =>
    by_cases c : inMemory s.params (s.ea 0) (x.toNat + 1) = true
    · cases (exec_loadRegs_in c).symm.trans h; exact .same (by simp)
    · cases (exec_loadRegs_fault c).symm.trans h; exact .same rfl
  | addReg | subReg | shr | subnReg | shl => cases h; exact .same (by simp)
  | _ => cases h; exact .same rfl

/-- An entry of a stack after one was set is that one or what it was. -/
theorem getD_set_le {l : List Word} {n bound : Nat} {w : Word} (hw : w.toNat ≤ bound)
    (hl : ∀ k, (l.getD k 0).toNat ≤ bound) (k : Nat) : ((l.set n w).getD k 0).toNat ≤ bound := by
  by_cases lt : n < l.length
  · rw [getD_set lt]
    split
    · exact hw
    · exact hl k
  · rw [List.set_eq_of_length_le (Nat.le_of_not_lt lt)]
    exact hl k

/-- A bound on pc and on every stack entry still bounds every entry after an instruction: a call pushes pc (R132). -/
theorem Shape.stackAt_le {i : Instr} {s t : State} (sh : Shape i s t) {bound : Nat} (hpc : s.pc.toNat ≤ bound)
    (hs : ∀ k, (s.stackAt k).toNat ≤ bound) (k : Nat) : (t.stackAt k).toNat ≤ bound := by
  have kept (e : t.stack = s.stack) : (t.stackAt k).toNat ≤ bound := by
    rw [State.stackAt, e]; exact hs k
  cases sh with
  | call nnn hi lt e =>
    subst e
    exact getD_set_le ((Params.stackEntry_le ..).trans hpc) hs k
  | _ => apply kept; subst_eqs; simp

/-- An instruction fetched from inside memory keeps the bounds: the address after it is at most MEM_SIZE, and a skip
adds 2 (R27, R138). -/
theorem exec_pcBounded {i : Instr} {s t : State} (fetched : s.pc.toNat ≤ s.params.memSize) (b : PcBounded s)
    (h : exec i s = .next t) : PcBounded t := by
  obtain ⟨-, stack⟩ := b
  refine ⟨?_, ?_⟩ <;> rw [exec_params h]
  · cases exec_nextPc h with
    | same e => rw [e]; omega
    | skip e =>
      have le := toNat_add_two_le s.pc
      rw [e]; omega
    | jump le => omega
    | ret e => have := stack (s.sp - 1); rw [e]; omega
  · exact (shape_of_exec h).stackAt_le fetched stack

/-- The bounds look at the parameters, pc and the stack alone. -/
theorem pcBounded_congr {s t : State} (b : PcBounded s) (hp : t.params = s.params) (hpc : t.pc = s.pc)
    (hs : t.stack = s.stack) : PcBounded t := by
  simpa only [PcBounded, State.stackAt, hp, hpc, hs] using b

theorem cycle_pcBounded {s t : State} (b : PcBounded s) (h : cycle s = .next t) : PcBounded t := by
  have ⟨_, stack⟩ := b
  have advanced (lt : s.pc.toNat + 1 < s.params.memSize) : s.advance.pc.toNat ≤ s.params.memSize := by
    have le := toNat_add_two_le s.pc
    rw [State.advance_pc]; omega
  have advance (lt : s.pc.toNat + 1 < s.params.memSize) : PcBounded s.advance :=
    have le := advanced lt
    ⟨by rw [State.advance_params]; omega, stack⟩
  rcases cycle_cases s with ⟨-, -, e⟩ | ⟨x, -, e⟩ | ⟨-, -, e⟩ | ⟨-, lt, -, e⟩ | ⟨i, -, lt, -, e⟩
  · cases e.symm.trans h; exact b
  · cases e.symm.trans h
    rw [State.keyScan_frame]
    exact pcBounded_congr b rfl rfl rfl
  · cases e.symm.trans h; exact pcBounded_congr b rfl rfl rfl
  · cases e.symm.trans h; exact pcBounded_congr (advance lt) rfl rfl rfl
  · exact exec_pcBounded (advanced lt) (advance lt) (e ▸ h)

theorem applyEvent_pcBounded {e : Event} {s t : State} (b : PcBounded s) (h : applyEvent e s = .next t) :
    PcBounded t := by
  cases e with
  | cycle => exact cycle_pcBounded b h
  | tick | keySet | pass => cases h; exact pcBounded_congr b rfl rfl rfl

theorem step_pcBounded {s t : State} (b : PcBounded s) (h : step s = .next t) : PcBounded t := by
  obtain ⟨e, es, src, he⟩ := step_cases s
  have b' : PcBounded { s with events := es, source := src } := pcBounded_congr b rfl rfl rfl
  exact applyEvent_pcBounded b' (he ▸ h)

/-! ### VF -/

/-- A block load that stops short of VF leaves it alone (R255). -/
theorem State.reg_vf_loadBlock (s : State) (a : Nat) {x : Nibble} (ne : x ≠ vf) :
    (s.loadBlock a (x.toNat + 1)).reg vf = s.reg vf := by
  have lt := x.isLt
  have ne' : x.toNat ≠ 15 := fun e => ne (BitVec.eq_of_toNat_eq e)
  rw [State.reg_loadBlock _ _ _ (by omega), if_neg]
  show ¬15 < x.toNat + 1
  omega

/-- VF is kept by every instruction that is not one of its writers (R22). -/
theorem exec_reg_vf {i : Instr} {s t : State} (h : exec i s = .next t) (w : mayWriteVf i = false) :
    t.reg vf = s.reg vf := by
  cases i with
  | addReg | subReg | shr | subnReg | shl | drw => cases w
  | ldImm x | addImm x | rnd x | ldReg x | orReg x | andReg x | xorReg x | ldVxDt x =>
    have ne : x ≠ vf := by simpa [mayWriteVf] using w
    cases h
    exact (State.reg_setReg ..).trans (if_neg ne.symm)
  | loadRegs x =>
    have ne : x ≠ vf := by simpa [mayWriteVf] using w
    by_cases c : inMemory s.params (s.ea 0) (x.toNat + 1) = true
    · cases (exec_loadRegs_in c).symm.trans h
      rw [State.reg_blockEnd, State.reg_vf_loadBlock _ _ ne]
    · cases (exec_loadRegs_fault c).symm.trans h; rfl
  | seImm | sneImm | seReg | sneReg => cases h; simp
  | ret =>
    rcases Nat.eq_zero_or_pos s.sp with c | c
    · cases (exec_ret_empty c).symm.trans h; rfl
    · cases (exec_ret_pop c).symm.trans h; rfl
  | call nnn =>
    by_cases c : s.sp < s.params.stackDepth
    · cases (exec_call_push nnn c).symm.trans h; rfl
    · cases (exec_call_full nnn c).symm.trans h; rfl
  | skp x =>
    cases c : s.keyIndex x with
    | some k => cases (exec_skp_key c).symm.trans h; simp
    | none => cases (exec_skp_fault c).symm.trans h; rfl
  | sknp x =>
    cases c : s.keyIndex x with
    | some k => cases (exec_sknp_key c).symm.trans h; simp
    | none => cases (exec_sknp_fault c).symm.trans h; rfl
  | ldBVx x =>
    by_cases c : storeAllowed s.params (s.ea 0) 3 = true
    · cases (exec_ldBVx_in x c).symm.trans h; simp
    · cases (exec_ldBVx_fault x c).symm.trans h; rfl
  | storeRegs x =>
    by_cases c : storeAllowed s.params (s.ea 0) (x.toNat + 1) = true
    · cases (exec_storeRegs_in c).symm.trans h; simp
    · cases (exec_storeRegs_fault c).symm.trans h; rfl
  | _ => cases h; rfl

/-! ### `run` -/

/-- A BoundsFault emits its diagnostic and writes `run`, and nothing else (R284). -/
theorem State.onlyChanges_raiseInstr (s : State) (k : BoundsKind) (i : Instr) :
    OnlyChanges [.run, .diagnostics] s (s.raiseInstr k i) := by
  intro p hp
  cases p with
  | run | diagnostics => simp at hp
  | _ => simp [Unchanged]

/-- What each shape does to `run`: only the wait's and the fault's write it (R34). -/
theorem Shape.run_cases {i : Instr} {s t : State} (sh : Shape i s t) :
    t.run = s.run ∨ (∃ x, i = .ldVxK x ∧ t.run = .awaitingKey x) ∨
    ∃ k, t = s.raiseInstr k i ∧
      ((k = .draw ∧ ∃ x y n, i = .drw x y n) ∨ (k = .key ∧ ∃ x, i = .skp x ∨ i = .sknp x) ∨
       (k = .store ∧ ∃ x, i = .ldBVx x ∨ i = .storeRegs x) ∨ (k = .load ∧ ∃ x, i = .loadRegs x)) := by
  cases sh with
  | wait x hi e => subst e; exact .inr (.inl ⟨x, hi, rfl⟩)
  | fault k hi e => exact .inr (.inr ⟨k, e, hi⟩)
  | store hi bs fit w hw e => left; rw [e, State.writeBytes_frame]
  | _ => left; subst_eqs; rfl

/-! ### Keypad -/

/-- KEY_SET writes the keypad alone (R45). -/
theorem State.onlyChanges_setKey (s : State) (k : Nibble) (b : Bool) :
    OnlyChanges [.keypad] s (s.setKey k b) := by
  intro p hp
  cases p with
  | keypad => simp at hp
  | _ => simp [Unchanged]

/-! ### What no instruction looks at: ST and `run` -/

/-- The state with another ST and another `run`. -/
def State.withSoundRun (s : State) (b : Byte) (r : Run) : State := (s.setSt b).setRun r

section SoundRun

variable (s : State) (b : Byte) (r : Run)

theorem State.onlyChanges_withSoundRun : OnlyChanges [.sound, .run] s (s.withSoundRun b r) := by
  intro p hp
  cases p with
  | sound | run => simp at hp
  | _ => simp [Unchanged, State.withSoundRun]

theorem State.skipIf_withSoundRun (c : Bool) :
    (s.withSoundRun b r).skipIf c = (s.skipIf c).withSoundRun b r := by
  cases c <;> rfl

theorem State.setRegFlag_withSoundRun (x : Nibble) (v f : Byte) :
    (s.withSoundRun b r).setRegFlag x v f = (s.setRegFlag x v f).withSoundRun b r := by
  simp only [State.setRegFlag, show (s.withSoundRun b r).params = s.params from rfl]
  cases s.params.flagOrder <;> rfl

theorem State.drawing_withSoundRun (x y n : Nibble) :
    (s.withSoundRun b r).drawing x y n = s.drawing x y n := by
  simp only [State.drawing, State.reg_coordSource]
  rfl

theorem State.writeBytes_withSoundRun (a : Nat) (bs : List Byte) :
    (s.withSoundRun b r).writeBytes a bs = (s.writeBytes a bs).withSoundRun b r := by
  induction bs generalizing s a with
  | nil => rfl
  | cons c bs ih => exact ih (s.writeMem a c) (a + 1)

theorem State.loadBlock_withSoundRun (a n : Nat) :
    (s.withSoundRun b r).loadBlock a n = (s.loadBlock a n).withSoundRun b r := by
  induction n with
  | zero => rfl
  | succ n ih => rw [State.loadBlock_succ, State.loadBlock_succ, ih]; rfl

theorem State.blockEnd_withSoundRun (x : Nibble) :
    (s.withSoundRun b r).blockEnd x = (s.blockEnd x).withSoundRun b r := by
  rw [State.blockEnd_eq, State.blockEnd_eq]; rfl

end SoundRun

/-- What an instruction answers from `s.withSoundRun b r`, when from `s` it answers `t`: `t` with an ST that is t's, or
the given one where the instruction left ST alone, and so for `run`. -/
def AnswersBesideSoundRun (b : Byte) (r : Run) (i : Instr) (s t : State) : Prop :=
  ∃ b' r', exec i (s.withSoundRun b r) = .next (t.withSoundRun b' r') ∧
    (b' = t.st ∨ (t.st = s.st ∧ b' = b)) ∧ (r' = t.run ∨ (t.run = s.run ∧ r' = r))

/-- An instruction that leaves both alone passes both on. -/
theorem AnswersBesideSoundRun.kept {b : Byte} {r : Run} {i : Instr} {s t : State}
    (h : exec i (s.withSoundRun b r) = .next (t.withSoundRun b r)) (hst : t.st = s.st) (hrun : t.run = s.run) :
    AnswersBesideSoundRun b r i s t :=
  ⟨b, r, h, .inr ⟨hst, rfl⟩, .inr ⟨hrun, rfl⟩⟩

/-- An instruction that faults passes ST on and writes `run`. -/
theorem AnswersBesideSoundRun.raised {b : Byte} {r : Run} {i : Instr} {s : State} {k : BoundsKind}
    (h : exec i (s.withSoundRun b r) = .next ((s.withSoundRun b r).raiseInstr k i)) :
    AnswersBesideSoundRun b r i s (s.raiseInstr k i) :=
  ⟨b, _, h, .inr ⟨rfl, rfl⟩, .inl rfl⟩

/-- No instruction reads ST or `run` (R33, R34). -/
theorem exec_besideSoundRun {i : Instr} {s t : State} (b : Byte) (r : Run) (h : exec i s = .next t) :
    AnswersBesideSoundRun b r i s t := by
  cases i with
  | ldStVx x => cases h; exact ⟨_, r, rfl, .inl rfl, .inr ⟨rfl, rfl⟩⟩
  | ldVxK x => cases h; exact ⟨b, _, rfl, .inr ⟨rfl, rfl⟩, .inl rfl⟩
  | seImm | sneImm | seReg | sneReg =>
    cases h
    exact .kept (congrArg _ (s.skipIf_withSoundRun b r _)) (by rw [State.skipIf_eq]) (by rw [State.skipIf_eq])
  | addReg | subReg | shr | subnReg | shl =>
    cases h
    exact .kept (congrArg _ (s.setRegFlag_withSoundRun b r ..)) (by rw [State.setRegFlag_frame])
      (by rw [State.setRegFlag_frame])
  | ret =>
    rcases Nat.eq_zero_or_pos s.sp with c | c
    · cases (exec_ret_empty c).symm.trans h
      exact .kept (exec_ret_empty (s := s.withSoundRun b r) c) rfl rfl
    · cases (exec_ret_pop c).symm.trans h
      exact .kept (exec_ret_pop (s := s.withSoundRun b r) c) rfl rfl
  | call nnn =>
    by_cases c : s.sp < s.params.stackDepth
    · cases (exec_call_push nnn c).symm.trans h
      exact .kept (exec_call_push (s := s.withSoundRun b r) nnn c) rfl rfl
    · cases (exec_call_full nnn c).symm.trans h
      exact .kept (exec_call_full (s := s.withSoundRun b r) nnn c) rfl rfl
  | skp x =>
    cases c : s.keyIndex x with
    | some k =>
      cases (exec_skp_key c).symm.trans h
      refine .kept ((exec_skp_key (s := s.withSoundRun b r) c).trans ?_) ?_ ?_
      · exact congrArg _ (s.skipIf_withSoundRun b r _)
      all_goals rw [State.skipIf_eq]
    | none =>
      cases (exec_skp_fault c).symm.trans h
      exact .raised (exec_skp_fault (s := s.withSoundRun b r) c)
  | sknp x =>
    cases c : s.keyIndex x with
    | some k =>
      cases (exec_sknp_key c).symm.trans h
      refine .kept ((exec_sknp_key (s := s.withSoundRun b r) c).trans ?_) ?_ ?_
      · exact congrArg _ (s.skipIf_withSoundRun b r _)
      all_goals rw [State.skipIf_eq]
    | none =>
      cases (exec_sknp_fault c).symm.trans h
      exact .raised (exec_sknp_fault (s := s.withSoundRun b r) c)
  | drw x y n =>
    by_cases c : inMemory s.params (s.ea 0) n.toNat = true
    · cases (exec_drw_in x y c).symm.trans h
      refine .kept ((exec_drw_in (s := s.withSoundRun b r) x y c).trans ?_) rfl rfl
      rw [State.drawing_withSoundRun]; rfl
    · cases (exec_drw_fault x y c).symm.trans h
      exact .raised (exec_drw_fault (s := s.withSoundRun b r) x y c)
  | ldBVx x =>
    by_cases c : storeAllowed s.params (s.ea 0) 3 = true
    · cases (exec_ldBVx_in x c).symm.trans h
      refine .kept ((exec_ldBVx_in (s := s.withSoundRun b r) x c).trans ?_) ?_ ?_
      · exact congrArg _ (s.writeBytes_withSoundRun b r ..)
      all_goals rw [State.writeBytes_frame]
    · cases (exec_ldBVx_fault x c).symm.trans h
      exact .raised (exec_ldBVx_fault (s := s.withSoundRun b r) x c)
  | storeRegs x =>
    by_cases c : storeAllowed s.params (s.ea 0) (x.toNat + 1) = true
    · cases (exec_storeRegs_in c).symm.trans h
      refine .kept ((exec_storeRegs_in (s := s.withSoundRun b r) c).trans ?_) ?_ ?_
      · rw [← State.blockEnd_withSoundRun, ← State.writeBytes_withSoundRun]; rfl
      all_goals rw [State.blockEnd_eq, State.writeBytes_frame]
    · cases (exec_storeRegs_fault c).symm.trans h
      exact .raised (exec_storeRegs_fault (s := s.withSoundRun b r) c)
  | loadRegs x =>
    by_cases c : inMemory s.params (s.ea 0) (x.toNat + 1) = true
    · cases (exec_loadRegs_in c).symm.trans h
      refine .kept ((exec_loadRegs_in (s := s.withSoundRun b r) c).trans ?_) ?_ ?_
      · rw [← State.blockEnd_withSoundRun, ← State.loadBlock_withSoundRun]; rfl
      all_goals rw [State.blockEnd_eq, State.loadBlock_frame]
    · cases (exec_loadRegs_fault c).symm.trans h
      exact .raised (exec_loadRegs_fault (s := s.withSoundRun b r) c)
  | _ => cases h; exact .kept rfl rfl rfl

/-! ### What no event but a scheduler pass looks at -/

theorem State.keyScan_outer (s : State) (x : Nibble) (a b : Nat) (d : List Diag) (e : List Event) (f : Source) :
    (s.outer a b d e f).keyScan x = (s.keyScan x).outer a b d e f := by
  simp only [State.keyScan, show (s.outer a b d e f).firstKey = s.firstKey from rfl]
  cases s.firstKey <;> rfl

theorem cycle_fetch_out {s : State} (run : s.run = .running) (out : s.params.memSize ≤ s.pc.toNat + 1) :
    cycle s = .next (s.raise .fetch s.pc none) := by
  simp only [cycle_running run, State.runCycle, State.fetch_out out]

theorem cycle_fetch_in {s : State} (run : s.run = .running) (lt : s.pc.toNat + 1 < s.params.memSize) :
    cycle s = dispatch s.pc (s.readWord s.pc.toNat) s.advance := by
  simp only [cycle_running run, State.runCycle, State.fetch_in lt]

/-- A cycle looks at none of the outer fields and passes them on, with what it has emitted (R20, R282). -/
theorem cycle_outer {s t : State} (h : cycle s = .next t) :
    ∃ ds, t.diag = s.diag ++ ds ∧
      ∀ a b d e f, cycle (s.outer a b d e f) = .next (t.outer a b (d ++ ds) e f) := by
  rcases cycle_cases s with ⟨info, run, c⟩ | ⟨x, run, c⟩ | ⟨run, out, c⟩ | ⟨run, lt, ⟨err, dec⟩, c⟩ |
    ⟨i, run, lt, dec, c⟩
  · cases c.symm.trans h
    refine ⟨[], (List.append_nil _).symm, fun a b d e f => ?_⟩
    rw [List.append_nil]
    exact cycle_faulted (s := s.outer a b d e f) run
  · cases c.symm.trans h
    refine ⟨[], by rw [State.keyScan_frame, List.append_nil], fun a b d e f => ?_⟩
    rw [List.append_nil, ← State.keyScan_outer]
    exact cycle_awaiting (s := s.outer a b d e f) run
  · cases c.symm.trans h
    exact ⟨_, rfl, fun a b d e f => cycle_fetch_out (s := s.outer a b d e f) run out⟩
  · cases c.symm.trans h
    refine ⟨_, rfl, fun a b d e f => ?_⟩
    exact (cycle_fetch_in (s := s.outer a b d e f) run lt).trans (dispatch_error dec)
  · obtain ⟨ds, diag, -, -, same⟩ := exec_outer (c.symm.trans h)
    refine ⟨ds, diag, fun a b d e f => ?_⟩
    rw [cycle_fetch_in (s := s.outer a b d e f) run lt]
    exact (dispatch_ok dec).trans (same a b d e f)

/-- And so does every event but a scheduler pass (R20, R112). -/
theorem applyEvent_outer {ev : Event} {s t : State} (untimed : ∀ now, ev ≠ .pass now)
    (h : applyEvent ev s = .next t) : ∃ ds, t.diag = s.diag ++ ds ∧
      ∀ a b d e f, applyEvent ev (s.outer a b d e f) = .next (t.outer a b (d ++ ds) e f) := by
  cases ev with
  | cycle => exact cycle_outer h
  | pass now => exact absurd rfl (untimed now)
  | tick | keySet =>
    cases h
    exact ⟨[], (List.append_nil _).symm, fun a b d e f => by rw [List.append_nil]; rfl⟩

/-- The state with other inputs to come. -/
def State.withInputs (s : State) (es : List Event) (src : Source) : State :=
  { s with events := es, source := src }

/-- With other inputs to come such an event does the same, and passes them on. -/
theorem applyEvent_withInputs {ev : Event} {s t : State} (untimed : ∀ now, ev ≠ .pass now)
    (h : applyEvent ev s = .next t) (es : List Event) (src : Source) :
    applyEvent ev (s.withInputs es src) = .next (t.withInputs es src) := by
  obtain ⟨ds, diag, same⟩ := applyEvent_outer untimed h
  have self : t = t.outer s.tInstr s.tTimer t.diag s.events s.source := by
    rw [diag]
    exact Host.Outcome.next.inj (h.symm.trans (same s.tInstr s.tTimer s.diag s.events s.source))
  rw [self, diag]
  exact same s.tInstr s.tTimer s.diag es src

/-- Such an event keeps the inputs to come. -/
theorem applyEvent_keeps_inputs {ev : Event} {s t : State} (untimed : ∀ now, ev ≠ .pass now)
    (h : applyEvent ev s = .next t) : t.events = s.events ∧ t.source = s.source := by
  rw [Host.Outcome.next.inj (h.symm.trans (applyEvent_withInputs untimed h s.events s.source))]
  exact ⟨rfl, rfl⟩

/-! ### Runs of event lists -/

theorem runEvents_cons {e : Event} {es : List Event} {s t : State} (h : applyEvent e s = .next t) :
    runEvents (e :: es) s = runEvents es t := by
  simp only [runEvents, h]

theorem coreRun_succ {k : Nat} {s t : State} (h : step s = .next t) :
    Host.Core.run core (k + 1) s = Host.Core.run core k t := by
  simp only [Host.Core.run, show core.step s = .next t from h]

/-- A run of events without scheduler passes looks at none of the outer fields (R20, R107). -/
theorem runEvents_outer {es : List Event} {s t : State} (untimed : ∀ e ∈ es, ∀ now, e ≠ .pass now)
    (h : runEvents es s = .next t) (a b : Nat) (d : List Diag) (e : List Event) (f : Source) :
    ∃ d', runEvents es (s.outer a b d e f) = .next (t.outer a b d' e f) := by
  induction es generalizing s d with
  | nil => cases h; exact ⟨d, rfl⟩
  | cons ev es ih =>
    obtain ⟨hev, hes⟩ := List.forall_mem_cons.1 untimed
    obtain ⟨u, hu⟩ := applyEvent_next ev s
    obtain ⟨ds, -, same⟩ := applyEvent_outer hev hu
    rw [runEvents_cons hu] at h
    rw [runEvents_cons (same a b d e f)]
    exact ih hes h (d ++ ds)

/-- Two states of one tuple and one draw counter differ in the outer fields alone (R20). -/
theorem eq_outer_of_sameArch {s t : State} (same : SameArch s t) (draws : s.draws = t.draws) :
    t = s.outer t.tInstr t.tTimer t.diag t.events t.source := by
  cases s
  cases t
  cases same
  simp_all [State.outer]

theorem sameArch_outer (s : State) (a b : Nat) (d : List Diag) (e : List Event) (f : Source) :
    SameArch s (s.outer a b d e f) :=
  ⟨rfl, rfl, rfl, rfl, rfl, rfl, rfl, rfl, rfl, rfl, rfl, rfl⟩

/-- Stepping with a list of events to come, none of them a scheduler pass, runs that list (R112). -/
theorem coreRun_listed {es : List Event} (untimed : ∀ e ∈ es, ∀ now, e ≠ .pass now) {s : State}
    (quiet : s.events = []) : ∃ t, runEvents es s = .next t ∧
      Host.Core.run core es.length (s.withInputs es s.source) = .next t := by
  induction es generalizing s with
  | nil => exact ⟨s, rfl, by rw [List.length_nil, ← quiet]; rfl⟩
  | cons e es ih =>
    obtain ⟨he, hes⟩ := List.forall_mem_cons.1 untimed
    obtain ⟨u, hu⟩ := applyEvent_next e s
    have hstep : step (s.withInputs (e :: es) s.source) = .next (u.withInputs es s.source) :=
      (step_cons rfl).trans (applyEvent_withInputs he hu es s.source)
    obtain ⟨hev, hsrc⟩ := applyEvent_keeps_inputs he hu
    rw [runEvents_cons hu, List.length_cons, coreRun_succ hstep, ← hsrc]
    exact ih hes (hev.trans quiet)

/-- Stepping with nothing listed and the free source runs the free sequence, and moves the source on (R112). -/
theorem coreRun_free (k n : Nat) {s : State} (quiet : s.events = []) :
    ∃ t, runEvents ((List.range k).map fun j => freeInput (n + j)) s = .next t ∧
      Host.Core.run core k (s.withInputs [] (.free n)) = .next { t with source := .free (n + k) } := by
  induction k generalizing n s with
  | zero => exact ⟨s, rfl, by rw [← quiet]; rfl⟩
  | succ k ih =>
    obtain ⟨u, hu⟩ := applyEvent_next (freeInput n) s
    have hstep : step (s.withInputs [] (.free n)) = .next (u.withInputs [] (.free (n + 1))) :=
      (step_free rfl rfl).trans (applyEvent_withInputs (freeInput_ne_pass n) hu [] (.free (n + 1)))
    obtain ⟨hev, -⟩ := applyEvent_keeps_inputs (freeInput_ne_pass n) hu
    have hlist : ((List.range (k + 1)).map fun j => freeInput (n + j)) =
        freeInput n :: (List.range k).map fun j => freeInput (n + 1 + j) := by
      simp [List.range_succ_eq_map, Function.comp_def, Nat.add_assoc, Nat.add_comm 1]
    rw [hlist, runEvents_cons hu, coreRun_succ hstep, show n + (k + 1) = n + 1 + k by omega]
    exact ih (n + 1) (hev.trans quiet)

end Sys2Proof.Machine
end

section
/-!
The obligations of the state family.
-/

namespace Sys2Proof.Proofs

open Sys2Proof.Machine Sys2Proof.Config Sys2Proof.Safety

/-- Settles O59: what an instruction can leave in pc is within the bound, and a call stacks an address at most
MEM_SIZE; the figures are those of the default MEM_SIZE. -/
theorem pcBoundIsInvariant : Obligations.PcBoundIsInvariant := by
  unfold Obligations.PcBoundIsInvariant
  refine ⟨fun _ _ => step_pcBounded, fun s mem ⟨pc, stack⟩ => ?_⟩
  rw [mem] at pc stack
  exact ⟨pc, stack⟩

/-- Settles O46: of the shapes an instruction's result can have, only the wait's and the BoundsFault's write `run`. -/
theorem runIsWrittenOnlyByWaitAndFault : Obligations.RunIsWrittenOnlyByWaitAndFault := by
  unfold Obligations.RunIsWrittenOnlyByWaitAndFault
  intro i s t h
  rcases (shape_of_exec h).run_cases with same | wait | ⟨k, rfl, own⟩
  · exact .inl same
  · exact .inr (.inl wait)
  · exact .inr (.inr ⟨k, rfl, rfl, s.onlyChanges_raiseInstr k i, own⟩)

/-- Settles O48: instruction by instruction, VF is not the register written. -/
theorem vfHasOnlyItsNamedWriters : Obligations.VfHasOnlyItsNamedWriters := by
  unfold Obligations.VfHasOnlyItsNamedWriters
  exact fun _ _ _ => exec_reg_vf

/-- Settles O15: the event is one write of the keypad. -/
theorem keySetWritesOneFlag : Obligations.KeySetWritesOneFlag := by
  unfold Obligations.KeySetWritesOneFlag
  intro s k b
  refine ⟨s.setKey k b, rfl, by simp, fun j ne => ?_, s.onlyChanges_setKey k b⟩
  rw [State.keyDown_setKey, if_neg ne]

/-- Settles O50: the state answered is the same one, with the given ST and `run` wherever the instruction wrote none. -/
theorem noInstructionReadsSoundOrRun : Obligations.NoInstructionReadsSoundOrRun := by
  unfold Obligations.NoInstructionReadsSoundOrRun
  intro i s t b r h
  obtain ⟨b', r', same, st, run⟩ := exec_besideSoundRun b r h
  exact ⟨t.withSoundRun b' r', same, t.onlyChanges_withSoundRun b' r', st, run⟩

/-- Settles O52: the two states differ in fields that no event of the list looks at. -/
theorem outputsAndInputsToComeAreNotObserved : Obligations.OutputsAndInputsToComeAreNotObserved := by
  unfold Obligations.OutputsAndInputsToComeAreNotObserved
  intro es s t s' untimed same draws h
  rw [eq_outer_of_sameArch same draws]
  obtain ⟨d', run⟩ := runEvents_outer untimed h t.tInstr t.tTimer t.diag t.events t.source
  exact ⟨_, run, sameArch_outer .., rfl⟩

/-- Settles O53: both clauses by induction, an event at a time; the free sequence holds no scheduler pass. -/
theorem stepsRefineTheEventSequence : Obligations.StepsRefineTheEventSequence := by
  unfold Obligations.StepsRefineTheEventSequence
  refine ⟨fun es s untimed => coreRun_listed untimed (s := { s with events := [] }) rfl, freeInput_ne_pass,
    fun k n s quiet source => ?_⟩
  rw [show s = s.withInputs [] (.free n) by rw [← quiet, ← source]; rfl]
  exact coreRun_free k n rfl

end Sys2Proof.Proofs
end

section
/-!
PROOFS of the memory family (spec 20_memory.md): what a block store leaves in memory, read back by a block load and by
the next fetch.
-/

namespace Sys2Proof.Machine

open Sys2Proof.Config Sys2Proof.Safety

@[simp] theorem State.blockEnd_params (s : State) (x : Nibble) : (s.blockEnd x).params = s.params := by
  rw [State.blockEnd_eq]

@[simp] theorem State.readMem_blockEnd (s : State) (x : Nibble) (a : Nat) :
    (s.blockEnd x).readMem a = s.readMem a := by
  rw [State.blockEnd_eq]; rfl

/-- Reading memory looks at the parameters and the memory alone. -/
theorem State.readMem_congr {s t : State} (hp : t.params = s.params) (hm : t.mem = s.mem) (a : Nat) :
    t.readMem a = s.readMem a := by
  rw [State.readMem, State.readMem, hp, hm]

/-- The last byte of a store that does not fault lies in memory (R51). -/
theorem lt_memSize_of_not_storeFaults {s : State} {n : Nat} (h : ¬StoreFaults s (n + 1)) :
    s.i.toNat + n < s.params.memSize :=
  Nat.lt_of_not_le fun out => h (.inl out)

/-- The bytes of a register block that fits in memory are the registers (R254). -/
theorem State.readMem_writeBytes_regBlock {s : State} {a : Nat} {x k : Nibble}
    (h : Memory.wf s.params s.mem = true) (fit : a + x.toNat < s.params.memSize) (le : k ≤ x) :
    (s.writeBytes a (s.regBlock x)).readMem (a + k.toNat) = s.reg k := by
  have hk : k.toNat ≤ x.toNat := le
  have inside : a ≤ a + k.toNat ∧ a + k.toNat < a + (s.regBlock x).length := by
    rw [State.regBlock_length]; omega
  rw [State.readMem_writeBytes h a _ (by rw [State.regBlock_length]; omega), dif_pos inside,
    State.regBlock_getElem, Nat.add_sub_cancel_left, BitVec.ofNat_toNat, BitVec.setWidth_eq]

/-- A block store that does not fault puts register k at I + k, and leaves the parameters and pc alone (R254). -/
theorem exec_storeRegs_stored {s : State} {x : Nibble} (h : Memory.wf s.params s.mem = true)
    (ok : ¬StoreFaults s (x.toNat + 1)) :
    ∃ t, exec (.storeRegs x) s = .next t ∧ t.params = s.params ∧ t.pc = s.pc ∧
      ∀ k : Nibble, k ≤ x → t.readMem (s.i.toNat + k.toNat) = s.reg k := by
  have allowed := Decidable.not_not.1 (storeFaults_iff.not.1 ok)
  refine ⟨_, exec_storeRegs_in allowed, by simp, by simp, fun k le => ?_⟩
  rw [State.readMem_blockEnd]
  exact State.readMem_writeBytes_regBlock h (lt_memSize_of_not_storeFaults ok) le

/-- A block load inside memory answers the byte at I + k in register k (R255). -/
theorem exec_loadRegs_loaded {s : State} {x : Nibble} (fit : s.i.toNat + x.toNat < s.params.memSize) :
    ∃ t, exec (.loadRegs x) s = .next t ∧
      ∀ k : Nibble, k ≤ x → t.reg k = s.readMem (s.i.toNat + k.toNat) := by
  refine ⟨_, exec_loadRegs_in (inMemory_succ.2 fit), fun k le => ?_⟩
  rw [State.reg_blockEnd, State.reg_loadBlock _ _ _ x.isLt, if_pos (Nat.lt_succ_of_le le)]
  rfl

end Sys2Proof.Machine
end

section
/-!
The obligations of the memory family.
-/

namespace Sys2Proof.Proofs

open Sys2Proof.Machine Sys2Proof.Config Sys2Proof.Safety

/-- Settles O42: the store puts register k at I + k, inside memory, and the load reads register k from there. -/
theorem blockLoadUndoesBlockStore : Obligations.BlockLoadUndoesBlockStore := by
  unfold Obligations.BlockLoadUndoesBlockStore
  intro s x canonical ok
  obtain ⟨t, store, params, -, stored⟩ := exec_storeRegs_stored canonical ok
  refine ⟨t, store, fun u hp hm hi => ?_⟩
  have fit : u.i.toNat + x.toNat < u.params.memSize := by
    rw [hi, hp, params]; exact lt_memSize_of_not_storeFaults ok
  obtain ⟨r, load, loaded⟩ := exec_loadRegs_loaded fit
  refine ⟨r, load, fun k le => ?_⟩
  calc r.reg k = u.readMem (u.i.toNat + k.toNat) := loaded k le
    _ = t.readMem (s.i.toNat + k.toNat) := by rw [hi, State.readMem_congr hp hm]
    _ = s.reg k := stored k le

/-- Settles O43: pc and pc + 1 are I + k and I + (k + 1), where the store has put registers k and k + 1. -/
theorem storedCodeIsFetchedNext : Obligations.StoredCodeIsFetchedNext := by
  unfold Obligations.StoredCodeIsFetchedNext
  intro s x k canonical ok lt at_pc
  obtain ⟨t, store, params, pc, stored⟩ := exec_storeRegs_stored canonical ok
  have hlt : k.toNat < x.toNat := lt
  have succ : (k + 1).toNat = k.toNat + 1 := BitVec.toNat_add_of_lt (Nat.lt_of_le_of_lt hlt x.isLt)
  have succ_le : k + 1 ≤ x := BitVec.le_def.2 (succ ▸ hlt)
  have fetchable : t.pc.toNat + 1 < t.params.memSize := by
    have := lt_memSize_of_not_storeFaults ok
    rw [pc, params]; omega
  refine ⟨t, store, ?_⟩
  rw [State.fetch_in fetchable, State.readWord, pc, at_pc, stored k (Nat.le_of_lt hlt), Nat.add_assoc,
    ← succ, stored (k + 1) succ_le]
  rfl

end Sys2Proof.Proofs
end

section
/-!
PROOFS of the encoding family (spec 30_encoding.md): a word from its fields, the decoder and the encoder as inverses,
which words each family accepts, and the rows of the opcode map.
-/

namespace Sys2Proof

/-! ### A word from its fields -/

theorem fieldX_append_fieldNN (w : Word) : fieldX w ++ fieldNN w = fieldNNN w :=
  BitVec.extractLsb'_append_extractLsb'_eq_extractLsb' (start₁ := 0) rfl

theorem fieldY_append_fieldN (w : Word) : fieldY w ++ fieldN w = fieldNN w :=
  BitVec.extractLsb'_append_extractLsb'_eq_extractLsb' (start₁ := 0) rfl

/-- w = F ‖ NNN (R71). -/
theorem packNNN_fields (w : Word) : packNNN (fieldF w) (fieldNNN w) = w :=
  (BitVec.extractLsb'_append_extractLsb'_eq_extractLsb' (start₁ := 0) rfl).trans
    BitVec.extractLsb'_eq_self

/-- w = F ‖ X ‖ NN (R71). -/
theorem packXNN_fields (w : Word) : packXNN (fieldF w) (fieldX w) (fieldNN w) = w := by
  calc packXNN (fieldF w) (fieldX w) (fieldNN w)
    _ = packNNN (fieldF w) (fieldX w ++ fieldNN w) := BitVec.append_assoc
    _ = packNNN (fieldF w) (fieldNNN w) := by rw [fieldX_append_fieldNN]
    _ = w := packNNN_fields w

/-- w = F ‖ X ‖ Y ‖ N (R83). -/
theorem packXYN_fields (w : Word) : packXYN (fieldF w) (fieldX w) (fieldY w) (fieldN w) = w := by
  calc packXYN (fieldF w) (fieldX w) (fieldY w) (fieldN w)
    _ = packXNN (fieldF w) (fieldX w) (fieldY w ++ fieldN w) := BitVec.append_assoc
    _ = packXNN (fieldF w) (fieldX w) (fieldNN w) := by rw [fieldY_append_fieldN]
    _ = w := packXNN_fields w

theorem nibble_cases (f : Nibble) :
    f = 0x0 ∨ f = 0x1 ∨ f = 0x2 ∨ f = 0x3 ∨ f = 0x4 ∨ f = 0x5 ∨ f = 0x6 ∨ f = 0x7 ∨
    f = 0x8 ∨ f = 0x9 ∨ f = 0xA ∨ f = 0xB ∨ f = 0xC ∨ f = 0xD ∨ f = 0xE ∨ f = 0xF := by
  revert f
  decide

/-! ### Decoding what the encoder writes -/

/-- The fields of the packed word lead the decoder back to the instruction (R74). -/
theorem decodeWord_encode (i : Instr) : decodeWord (encode i) = .ok i := by
  cases i with
  | cls | ret => rfl
  | jp | call | seImm | sneImm | ldImm | addImm | ldI | jpV0 | rnd | drw => simp [encode, decodeWord]
  | seReg | sneReg => simp [encode, decodeWord, decodeLowNibbleZero]
  | ldReg | orReg | andReg | xorReg | addReg | subReg | shr | subnReg | shl =>
    simp [encode, decodeWord, decodeFamily8]
  | skp | sknp => simp [encode, decodeWord, decodeFamilyE]
  | ldVxDt | ldVxK | ldDtVx | ldStVx | addIVx | ldFVx | ldBVx | storeRegs | loadRegs =>
    simp [encode, decodeWord, decodeFamilyF]

theorem decode_encodeBytes (i : Instr) (rest : List Byte) :
    decode (encodeBytes i ++ rest) = .ok (i, rest) := by
  rw [encodeBytes, decode_bytesOfWord, decodeWord_encode]
  rfl

/-! ### What the decoder answers -/

/-- An answer that is true to the word: an instruction that the encoder writes as this word, or the refusal of
this word (R76, R83). -/
def Faithful (w : Word) : Except DecodeError Instr → Prop
  | .ok i => encode i = w
  | .error e => e = .invalidWord w

section Faithful

variable {w : Word} {f n : Nibble} {nn : Byte}

theorem packNNN_eq (hF : fieldF w = f) : packNNN f (fieldNNN w) = w := by
  rw [← hF, packNNN_fields]

theorem packXNN_eq (hF : fieldF w = f) (hNN : fieldNN w = nn) : packXNN f (fieldX w) nn = w := by
  rw [← hF, ← hNN, packXNN_fields]

theorem packXYN_eq (hF : fieldF w = f) (hN : fieldN w = n) :
    packXYN f (fieldX w) (fieldY w) n = w := by
  rw [← hF, ← hN, packXYN_fields]

theorem faithful_decodeFamily0 : Faithful w (decodeFamily0 w) := by
  unfold decodeFamily0
  split_ifs with hcls hret
  · exact hcls.symm
  · exact hret.symm
  · rfl

theorem faithful_decodeLowNibbleZero {i : Instr} (hi : fieldN w = 0x0 → encode i = w) :
    Faithful w (decodeLowNibbleZero w i) := by
  unfold decodeLowNibbleZero
  split_ifs with hN
  · exact hi hN
  · rfl

theorem faithful_decodeFamily8 (hF : fieldF w = 0x8) : Faithful w (decodeFamily8 w) := by
  unfold decodeFamily8
  split
  case h_10 => rfl
  all_goals exact packXYN_eq hF ‹_›

theorem faithful_decodeFamilyE (hF : fieldF w = 0xE) : Faithful w (decodeFamilyE w) := by
  unfold decodeFamilyE
  split
  case h_3 => rfl
  all_goals exact packXNN_eq hF ‹_›

theorem faithful_decodeFamilyF (hF : fieldF w = 0xF) : Faithful w (decodeFamilyF w) := by
  unfold decodeFamilyF
  split
  case h_10 => rfl
  all_goals exact packXNN_eq hF ‹_›

theorem faithful_decodeWord (w : Word) : Faithful w (decodeWord w) := by
  rcases nibble_cases (fieldF w) with
    hF | hF | hF | hF | hF | hF | hF | hF | hF | hF | hF | hF | hF | hF | hF | hF
  all_goals simp only [decodeWord, hF]
  · exact faithful_decodeFamily0
  · exact packNNN_eq hF
  · exact packNNN_eq hF
  · exact packXNN_eq hF rfl
  · exact packXNN_eq hF rfl
  · exact faithful_decodeLowNibbleZero (packXYN_eq hF)
  · exact packXNN_eq hF rfl
  · exact packXNN_eq hF rfl
  · exact faithful_decodeFamily8 hF
  · exact faithful_decodeLowNibbleZero (packXYN_eq hF)
  · exact packNNN_eq hF
  · exact packNNN_eq hF
  · exact packXNN_eq hF rfl
  · exact packXYN_eq hF rfl
  · exact faithful_decodeFamilyE hF
  · exact faithful_decodeFamilyF hF

theorem encode_of_decodeWord_ok {i : Instr} (h : decodeWord w = .ok i) : encode i = w := by
  have answer := faithful_decodeWord w
  rwa [h] at answer

theorem eq_invalidWord_of_decodeWord_error {e : DecodeError} (h : decodeWord w = .error e) :
    e = .invalidWord w := by
  have answer := faithful_decodeWord w
  rwa [h] at answer

end Faithful

/-! ### Which words each family accepts -/

section Families

variable {w : Word}

theorem decodeFamily0_ok_iff : (∃ i, decodeFamily0 w = .ok i) ↔ w = 0x00E0 ∨ w = 0x00EE := by
  unfold decodeFamily0
  split_ifs <;> simp_all

theorem decodeLowNibbleZero_ok_iff {i : Instr} :
    (∃ j, decodeLowNibbleZero w i = .ok j) ↔ fieldN w = 0x0 := by
  unfold decodeLowNibbleZero
  split_ifs <;> simp_all

theorem decodeFamily8_ok_iff :
    (∃ i, decodeFamily8 w = .ok i) ↔ (fieldN w).toNat ∈ [0, 1, 2, 3, 4, 5, 6, 7, 0xE] := by
  unfold decodeFamily8
  split <;> simp_all [← BitVec.toNat_inj]

theorem decodeFamilyE_ok_iff : (∃ i, decodeFamilyE w = .ok i) ↔ (fieldNN w).toNat ∈ [0x9E, 0xA1] := by
  unfold decodeFamilyE
  split <;> simp_all [← BitVec.toNat_inj]

theorem decodeFamilyF_ok_iff : (∃ i, decodeFamilyF w = .ok i) ↔
    (fieldNN w).toNat ∈ [0x07, 0x0A, 0x15, 0x18, 0x1E, 0x29, 0x33, 0x55, 0x65] := by
  unfold decodeFamilyF
  split <;> simp_all [← BitVec.toNat_inj]

/-- The words of each family that are instructions, by the field the family dispatches on (R75). -/
def ValidInFamily (w : Word) : Prop :=
  (fieldF w = 0x0 ∧ (w = 0x00E0 ∨ w = 0x00EE)) ∨
  (fieldF w = 0x5 ∨ fieldF w = 0x9) ∧ fieldN w = 0x0 ∨
  fieldF w = 0x8 ∧ (fieldN w).toNat ∈ [0, 1, 2, 3, 4, 5, 6, 7, 0xE] ∨
  fieldF w = 0xE ∧ (fieldNN w).toNat ∈ [0x9E, 0xA1] ∨
  fieldF w = 0xF ∧ (fieldNN w).toNat ∈ [0x07, 0x0A, 0x15, 0x18, 0x1E, 0x29, 0x33, 0x55, 0x65] ∨
  (fieldF w).toNat ∈ [0x1, 0x2, 0x3, 0x4, 0x6, 0x7, 0xA, 0xB, 0xC, 0xD]

/-- Family by family, the decoder accepts the valid words (R75). -/
theorem decodeWord_ok_iff (w : Word) : (∃ i, decodeWord w = .ok i) ↔ ValidInFamily w := by
  rcases nibble_cases (fieldF w) with
    hF | hF | hF | hF | hF | hF | hF | hF | hF | hF | hF | hF | hF | hF | hF | hF
  all_goals simp [decodeWord, ValidInFamily, hF, decodeFamily0_ok_iff, decodeLowNibbleZero_ok_iff,
    decodeFamily8_ok_iff, decodeFamilyE_ok_iff, decodeFamilyF_ok_iff]

end Families

/-! ### The rows of the opcode map -/

section Rows

variable {w : Word} {r q : Row}

theorem Row.selects_iff : r.selects w = true ↔ w &&& r.mask = r.pattern := by
  simp [Row.selects]

theorem row_mem_opcodeTable (i : Instr) : i.row ∈ opcodeTable := by
  cases i <;> simp [Instr.row, opcodeTable]

/-- Two rows of the table differ in a bit that both fix (R74). -/
theorem opcodeTable_disjoint : ∀ r ∈ opcodeTable, ∀ q ∈ opcodeTable, r ≠ q →
    r.pattern &&& q.mask ≠ q.pattern &&& r.mask := by decide

/-- At most one row selects a word (R74). -/
theorem eq_of_selects (hr : r ∈ opcodeTable) (hq : q ∈ opcodeTable) (selr : r.selects w = true)
    (selq : q.selects w = true) : r = q := by
  by_contra ne
  refine opcodeTable_disjoint r hr q hq ne ?_
  rw [← Row.selects_iff.1 selr, ← Row.selects_iff.1 selq, BitVec.and_assoc, BitVec.and_assoc,
    BitVec.and_comm r.mask]

theorem wellFormedWord_of_selects (hr : r ∈ opcodeTable) (sel : r.selects w = true) :
    wellFormedWord w = true :=
  List.any_eq_true.2 ⟨r, hr, sel⟩

/-- A row of the table fixes the field that its family dispatches on, to a valid value (R74, R75). -/
theorem opcodeTable_fixes : ∀ r ∈ opcodeTable, fieldF r.mask = 0xF ∧ ValidInFamily r.pattern ∧
    (fieldF r.pattern = 0x0 → r.mask = 0xFFFF) ∧
    ((fieldF r.pattern = 0x5 ∨ fieldF r.pattern = 0x9) ∨ fieldF r.pattern = 0x8 → fieldN r.mask = 0xF) ∧
    (fieldF r.pattern = 0xE ∨ fieldF r.pattern = 0xF → fieldNN r.mask = 0xFF) := by
  unfold ValidInFamily
  decide

/-- Where every bit is fixed, a selected word has the row's bits (R74). -/
theorem extractLsb'_of_selects {k len : Nat} (sel : r.selects w = true)
    (fixed : r.mask.extractLsb' k len = BitVec.allOnes len) :
    r.pattern.extractLsb' k len = w.extractLsb' k len := by
  rw [← Row.selects_iff.1 sel, BitVec.extractLsb'_and, fixed, BitVec.and_allOnes]

theorem eq_of_selects_of_mask (sel : r.selects w = true) (fixed : r.mask = 0xFFFF) : r.pattern = w := by
  rw [← Row.selects_iff.1 sel, fixed]
  exact BitVec.and_allOnes

/-- A selected word has the row's value of that field, so it is valid as the row's pattern is (R74, R75). -/
theorem validInFamily_of_selects (hr : r ∈ opcodeTable) (sel : r.selects w = true) : ValidInFamily w := by
  obtain ⟨fixF, valid, fixAll, fixN, fixNN⟩ := opcodeTable_fixes r hr
  have hF : fieldF r.pattern = fieldF w := extractLsb'_of_selects sel fixF
  have hN (fixed) : fieldN r.pattern = fieldN w := extractLsb'_of_selects sel (fixN fixed)
  have hNN (fixed) : fieldNN r.pattern = fieldNN w := extractLsb'_of_selects sel (fixNN fixed)
  unfold ValidInFamily at valid ⊢
  rw [hF] at valid fixAll hN hNN
  rcases valid with ⟨h0, v⟩ | ⟨h59, v⟩ | ⟨h8, v⟩ | ⟨hE, v⟩ | ⟨h15, v⟩ | v
  · rw [eq_of_selects_of_mask sel (fixAll h0)] at v
    exact .inl ⟨h0, v⟩
  · rw [hN (.inl h59)] at v
    exact .inr (.inl ⟨h59, v⟩)
  · rw [hN (.inr h8)] at v
    exact .inr (.inr (.inl ⟨h8, v⟩))
  · rw [hNN (.inl hE)] at v
    exact .inr (.inr (.inr (.inl ⟨hE, v⟩)))
  · rw [hNN (.inr h15)] at v
    exact .inr (.inr (.inr (.inr (.inl ⟨h15, v⟩))))
  · exact .inr (.inr (.inr (.inr (.inr v))))

theorem exists_decodeWord_of_wellFormed (h : wellFormedWord w = true) : ∃ i, decodeWord w = .ok i := by
  obtain ⟨r, hr, sel⟩ := List.any_eq_true.1 h
  exact (decodeWord_ok_iff w).2 (validInFamily_of_selects hr sel)

/-- An instruction's own row selects the word the encoder writes (R74). -/
theorem row_selects_encode (i : Instr) : i.row.selects (encode i) = true := by
  cases i with
  | cls => exact Laws.RowSelects.cls
  | ret => exact Laws.RowSelects.ret
  | jp nnn => exact Laws.RowSelects.jp nnn
  | call nnn => exact Laws.RowSelects.call nnn
  | seImm x nn => exact Laws.RowSelects.seImm x nn
  | sneImm x nn => exact Laws.RowSelects.sneImm x nn
  | seReg x y => exact Laws.RowSelects.seReg x y
  | ldImm x nn => exact Laws.RowSelects.ldImm x nn
  | addImm x nn => exact Laws.RowSelects.addImm x nn
  | ldReg x y => exact Laws.RowSelects.ldReg x y
  | orReg x y => exact Laws.RowSelects.orReg x y
  | andReg x y => exact Laws.RowSelects.andReg x y
  | xorReg x y => exact Laws.RowSelects.xorReg x y
  | addReg x y => exact Laws.RowSelects.addReg x y
  | subReg x y => exact Laws.RowSelects.subReg x y
  | shr x y => exact Laws.RowSelects.shr x y
  | subnReg x y => exact Laws.RowSelects.subnReg x y
  | shl x y => exact Laws.RowSelects.shl x y
  | sneReg x y => exact Laws.RowSelects.sneReg x y
  | ldI nnn => exact Laws.RowSelects.ldI nnn
  | jpV0 nnn => exact Laws.RowSelects.jpV0 nnn
  | rnd x nn => exact Laws.RowSelects.rnd x nn
  | drw x y n => exact Laws.RowSelects.drw x y n
  | skp x => exact Laws.RowSelects.skp x
  | sknp x => exact Laws.RowSelects.sknp x
  | ldVxDt x => exact Laws.RowSelects.ldVxDt x
  | ldVxK x => exact Laws.RowSelects.ldVxK x
  | ldDtVx x => exact Laws.RowSelects.ldDtVx x
  | ldStVx x => exact Laws.RowSelects.ldStVx x
  | addIVx x => exact Laws.RowSelects.addIVx x
  | ldFVx x => exact Laws.RowSelects.ldFVx x
  | ldBVx x => exact Laws.RowSelects.ldBVx x
  | storeRegs x => exact Laws.RowSelects.storeRegs x
  | loadRegs x => exact Laws.RowSelects.loadRegs x

theorem row_selects_of_decodeWord {i : Instr} (h : decodeWord w = .ok i) : i.row.selects w = true := by
  rw [← encode_of_decodeWord_ok h]
  exact row_selects_encode i

theorem decodeWord_of_not_wellFormed (h : wellFormedWord w = false) :
    decodeWord w = .error (.invalidWord w) := by
  cases dec : decodeWord w with
  | ok i =>
    have selected := wellFormedWord_of_selects (row_mem_opcodeTable i) (row_selects_of_decodeWord dec)
    exact absurd selected (by simp [h])
  | error e => rw [eq_invalidWord_of_decodeWord_error dec]

end Rows

end Sys2Proof
end

section
/-!
The obligations of the encoding family.
-/

namespace Sys2Proof.Proofs

/-- Settles O2: the fields of the packed word lead the decoder back, and the two bytes make the word again. -/
theorem decodeOfEncodeIsTheInstruction : Obligations.DecodeOfEncodeIsTheInstruction := by
  unfold Obligations.DecodeOfEncodeIsTheInstruction
  exact fun i rest => ⟨decodeWord_encode i, decode_encodeBytes i rest⟩

/-- Settles O3: every branch of the decoder answers an instruction packed from the fields it dispatched on. -/
theorem encodeOfDecodeIsTheWord : Obligations.EncodeOfDecodeIsTheWord := by
  unfold Obligations.EncodeOfDecodeIsTheWord
  exact ⟨fun _ _ => encode_of_decodeWord_ok, packXYN_fields⟩

/-- Settles O4: an accepted word is its instruction's encoding, which the instruction's row selects; a selected
word has a valid value in the field its family dispatches on; the rows are pairwise disjoint. -/
theorem decoderFollowsTheOpcodeMap : Obligations.DecoderFollowsTheOpcodeMap := by
  unfold Obligations.DecoderFollowsTheOpcodeMap
  exact ⟨fun _ i h => ⟨row_mem_opcodeTable i, row_selects_of_decodeWord h⟩,
    fun _ => exists_decodeWord_of_wellFormed, fun _ => decodeWord_of_not_wellFormed,
    fun _ _ _ => eq_of_selects⟩

/-- Settles O5: family by family, what the decoder of that family accepts. -/
theorem secondaryDispatchByFamily : Obligations.SecondaryDispatchByFamily := by
  unfold Obligations.SecondaryDispatchByFamily
  exact decodeWord_ok_iff

/-- Settles O1: the decoder evaluated on the eighteen words. -/
theorem writtenOutWordsDecode : Obligations.WrittenOutWordsDecode := by
  unfold Obligations.WrittenOutWordsDecode
  decide

end Sys2Proof.Proofs
end

section
/-!
PROOFS of the execution-cycle family (spec 40_execution_cycle.md): what a fetch, an invalid word, a timer tick and a
scheduler pass write, and what one cycle can emit.
-/

namespace Sys2Proof.Machine

open Sys2Proof.Config Sys2Proof.Safety

/-! ### Frames -/

/-- What two stretches of a run both leave alone, the whole of it leaves alone. -/
theorem unchanged_trans {s t u : State} {p : Part} (h₁ : Unchanged s t p) (h₂ : Unchanged t u p) :
    Unchanged s u p := by
  cases p with
  | regs | memory | keypad => exact fun x => (h₂ x).trans (h₁ x)
  | display => exact fun x y => (h₂ x y).trans (h₁ x y)
  | stack | scheduler | events => exact ⟨h₂.1.trans h₁.1, h₂.2.trans h₁.2⟩
  | _ => exact Eq.trans h₂ h₁

theorem onlyChanges_refl (ps : List Part) (s : State) : OnlyChanges ps s s := by
  intro p _
  cases p with
  | _ => simp [Unchanged]

theorem onlyChanges_trans {ps : List Part} {s t u : State} (h₁ : OnlyChanges ps s t) (h₂ : OnlyChanges ps t u) :
    OnlyChanges ps s u :=
  fun p hp => unchanged_trans (h₁ p hp) (h₂ p hp)

/-- The fetch's BoundsFault leaves pc alone too (R103, R284). -/
theorem State.onlyChanges_raise (s : State) (k : BoundsKind) (a : Word) (w : Option Word) :
    OnlyChanges [.run, .diagnostics] s (s.raise k a w) := by
  intro p hp
  cases p with
  | run | diagnostics => simp at hp
  | _ => simp [Unchanged]

/-- A report after the fetch's advance (R105, R282). -/
theorem State.onlyChanges_advance_report (s : State) (d : Diag) :
    OnlyChanges [.pc, .diagnostics] s (s.advance.report d) := by
  intro p hp
  cases p with
  | pc | diagnostics => simp at hp
  | _ => simp [Unchanged]

/-! ### The fetch -/

theorem State.fetch_eq_some {s : State} {w : Word} (h : s.fetch = some w) :
    s.pc.toNat + 1 < s.params.memSize ∧ s.readWord s.pc.toNat = w := by
  by_cases lt : s.pc.toNat + 1 < s.params.memSize
  · rw [State.fetch_in lt] at h; exact ⟨lt, Option.some.inj h⟩
  · rw [State.fetch_out (Nat.le_of_not_lt lt)] at h; cases h

/-- A cycle over a word that decodes runs its instruction after the fetch's advance (R103, R104). -/
theorem cycle_exec {s : State} {i : Instr} (run : s.run = .running) (lt : s.pc.toNat + 1 < s.params.memSize)
    (dec : decodeWord (s.readWord s.pc.toNat) = .ok i) : cycle s = exec i s.advance :=
  (cycle_fetch_in run lt).trans (dispatch_ok dec)

/-- A jump replaces pc alone (R131). -/
theorem exec_jp (nnn : Addr12) (s : State) : exec (.jp nnn) s = .next (s.setPc (zext16 nnn)) := rfl

/-- Two bytes that decode as an instruction are its word (R57, R70). -/
theorem decodeWord_of_decode {hi lo : Byte} {i : Instr} (h : decode [hi, lo] = .ok (i, [])) :
    decodeWord (wordOfBytes hi lo) = .ok i := by
  rw [decode] at h
  cases dec : decodeWord (wordOfBytes hi lo) with
  | ok j => rw [dec] at h; cases h; rfl
  | error e => rw [dec] at h; cases h

/-- Taking the next event changes the inputs to come alone. -/
theorem State.nextEvent_snd (s : State) : ∃ es src, s.nextEvent.2 = s.withInputs es src := by
  unfold State.nextEvent
  split
  · exact ⟨_, _, rfl⟩
  · exact ⟨_, _, rfl⟩
  · exact ⟨_, _, rfl⟩

theorem step_of_nextEvent {s s' : State} {e : Event} (h : s.nextEvent = (e, s')) : step s = applyEvent e s' := by
  rw [step, h]

/-- With other inputs to come a cycle runs the same instruction. -/
theorem cycle_withInputs {s : State} {i : Instr} (run : s.run = .running)
    (lt : s.pc.toNat + 1 < s.params.memSize) (dec : decodeWord (s.readWord s.pc.toNat) = .ok i)
    (es : List Event) (src : Source) :
    cycle (s.withInputs es src) = exec i (s.withInputs es src).advance :=
  cycle_exec (s := s.withInputs es src) run lt dec

/-- A cycle emits at most one diagnostic, from the address it started at and in Running alone (R107, R283). -/
theorem cycle_emits {s t : State} (h : cycle s = .next t) :
    t.diag = s.diag ∨ ∃ d, t.diag = s.diag ++ [d] ∧ d.addr = s.pc ∧ s.run = .running := by
  rcases cycle_cases s with ⟨-, -, e⟩ | ⟨x, -, e⟩ | ⟨run, -, e⟩ | ⟨run, -, -, e⟩ | ⟨i, run, -, -, e⟩
  · cases e.symm.trans h; exact .inl rfl
  · cases e.symm.trans h; rw [State.keyScan_frame]; exact .inl rfl
  · cases e.symm.trans h; exact .inr ⟨_, rfl, rfl, run⟩
  · cases e.symm.trans h; exact .inr ⟨_, rfl, rfl, run⟩
  · obtain ⟨ds, diag, le, addr, -⟩ := exec_outer (e.symm.trans h)
    have start : s.advance.instrAddr = s.pc := BitVec.add_sub_cancel s.pc 2
    match ds, le with
    | [], _ => exact .inl (diag.trans (List.append_nil _))
    | [d], _ => exact .inr ⟨d, diag, (addr d (List.mem_singleton_self d)).trans start, run⟩

/-! ### The timers -/

theorem toNat_decay (b : Byte) : (decay b).toNat = b.toNat - 1 := by
  unfold decay
  split
  · next zero => subst zero; rfl
  · next ne => bv_omega

@[simp] theorem State.toNat_tick_dt (s : State) : s.tick.dt.toNat = s.dt.toNat - 1 := toNat_decay s.dt
@[simp] theorem State.toNat_tick_st (s : State) : s.tick.st.toNat = s.st.toNat - 1 := toNat_decay s.st

/-- The timer-decay step writes the timers alone (R113). -/
theorem State.onlyChanges_tick (s : State) : OnlyChanges [.delay, .sound] s s.tick := by
  intro p hp
  cases p with
  | delay | sound => simp at hp
  | _ => simp [Unchanged, State.tick]

theorem runEvents_ticks (n : Nat) (s : State) : ∃ t, runEvents (List.replicate n .tick) s = .next t ∧
    t.dt.toNat = s.dt.toNat - n ∧ t.st.toNat = s.st.toNat - n ∧ OnlyChanges [.delay, .sound] s t := by
  induction n generalizing s with
  | zero => exact ⟨s, rfl, rfl, rfl, onlyChanges_refl _ s⟩
  | succ n ih =>
    obtain ⟨t, run, dt, st, frame⟩ := ih s.tick
    refine ⟨t, run, ?_, ?_, onlyChanges_trans s.onlyChanges_tick frame⟩
    · rw [dt, State.toNat_tick_dt]; omega
    · rw [st, State.toNat_tick_st]; omega

/-! ### The scheduler's pass -/

/-- What a pass does, its conditions as propositions over the parameters (R110). -/
theorem State.schedulerPass_eq (s : State) (now : Nat) : s.schedulerPass now = { s with
    tInstr := if s.tInstr + s.params.timerHz ≤ now then s.tInstr + s.params.timerHz else s.tInstr
    tTimer := if s.tTimer + s.params.instrHz ≤ now then s.tTimer + s.params.instrHz else s.tTimer
    events := (if s.tInstr + s.params.timerHz ≤ now then [Event.cycle] else []) ++
      (if s.tTimer + s.params.instrHz ≤ now then [Event.tick] else []) ++ s.events } := by
  by_cases instr : s.tInstr + s.params.timerHz ≤ now <;> by_cases timer : s.tTimer + s.params.instrHz ≤ now <;>
    simp [State.schedulerPass, State.periodInstr, State.periodTimer, instr, timer]

/-- A pass writes the references and the events to come alone (R110). -/
theorem State.onlyChanges_schedulerPass (s : State) (now : Nat) :
    OnlyChanges [.scheduler, .events] s (s.schedulerPass now) := by
  intro p hp
  cases p with
  | scheduler | events => simp at hp
  | regs | memory | keypad => exact fun _ => rfl
  | display => exact fun _ _ => rfl
  | stack => exact ⟨rfl, rfl⟩
  | _ => rfl

end Sys2Proof.Machine
end

section
/-!
PROOFS of the execution-cycle family, continued: infinite runs of events, and what weak fairness gives (R112).
-/

namespace Sys2Proof.Machine

open Sys2Proof.Config Sys2Proof.Safety

/-! ### Runs of event sequences -/

theorem runEvents_concat {es : List Event} {s t : State} (h : runEvents es s = .next t) (e : Event) :
    runEvents (es ++ [e]) s = applyEvent e t := by
  induction es generalizing s with
  | nil =>
    cases h
    obtain ⟨u, hu⟩ := applyEvent_next e t
    exact (runEvents_cons hu).trans hu.symm
  | cons e' es ih =>
    obtain ⟨u, hu⟩ := applyEvent_next e' s
    rw [runEvents_cons hu] at h
    exact (runEvents_cons hu).trans (ih h)

/-- The state after an event, which every event has (`applyEvent_eq_next_after`). -/
def State.after (s : State) (e : Event) : State :=
  match applyEvent e s with
  | .next t => t
  | _ => s

theorem applyEvent_eq_next_after (e : Event) (s : State) : applyEvent e s = .next (s.after e) := by
  obtain ⟨t, ht⟩ := applyEvent_next e s
  simp only [State.after, ht]

/-- The states that an infinite sequence of events leads through. -/
def State.trace (s : State) (σ : Nat → Event) : Nat → State
  | 0 => s
  | n + 1 => (s.trace σ n).after (σ n)

theorem State.infiniteRun_trace (s : State) (σ : Nat → Event) : InfiniteRun σ (s.trace σ) :=
  fun n => applyEvent_eq_next_after (σ n) (s.trace σ n)

section InfiniteRuns

variable {σ : Nat → Event} {ρ : Nat → State}

/-- The n-th state of a run is where the finite run of the first n events ends (R112). -/
theorem runEvents_firstEvents (run : InfiniteRun σ ρ) (n : Nat) :
    runEvents ((List.range n).map σ) (ρ 0) = .next (ρ n) := by
  induction n with
  | zero => rfl
  | succ n ih =>
    rw [List.range_succ, List.map_append]
    exact (runEvents_concat ih (σ n)).trans (run n)

/-- So the events and the first state determine a run. -/
theorem infiniteRun_unique {ρ' : Nat → State} (run : InfiniteRun σ ρ) (run' : InfiniteRun σ ρ')
    (start : ρ' 0 = ρ 0) : ρ' = ρ := by
  funext n
  have h' := runEvents_firstEvents run' n
  rw [start, runEvents_firstEvents run n] at h'
  exact (Host.Outcome.next.inj h').symm

/-- What holds at the start of a run and is kept by each of its events holds all along it. -/
theorem infiniteRun_induct {P : State → Prop} (run : InfiniteRun σ ρ) (start : P (ρ 0))
    (keep : ∀ {e s t}, P s → applyEvent e s = .next t → P t) (n : Nat) : P (ρ n) := by
  induction n with
  | zero => exact start
  | succ n ih => exact keep ih (run n)

end InfiniteRuns

/-! ### The timers of a Faulted core -/

/-- Only a CYCLE writes `run` (R34, R112). -/
theorem applyEvent_run_of_ne_cycle {e : Event} {s t : State} (ne : e ≠ .cycle) (h : applyEvent e s = .next t) :
    t.run = s.run := by
  cases e with
  | cycle => exact absurd rfl ne
  | tick | keySet | pass => cases h; rfl

/-- Nor does a CYCLE in Faulted (R101, R285). -/
theorem applyEvent_faulted {e : Event} {s t : State} {info : FaultInfo} (f : s.run = .faulted info)
    (h : applyEvent e s = .next t) : t.run = .faulted info := by
  by_cases c : e = .cycle
  · subst c; cases (cycle_faulted f).symm.trans h; exact f
  · exact (applyEvent_run_of_ne_cycle c h).trans f

/-- What is left on the two timers together: the measure that a Faulted core's run decreases. -/
def State.timersLeft (s : State) : Nat := s.dt.toNat + s.st.toNat

theorem State.timersLeft_eq_zero {s : State} : s.timersLeft = 0 ↔ s.dt = 0 ∧ s.st = 0 := by
  rw [State.timersLeft, Nat.add_eq_zero_iff, ← BitVec.toNat_inj, ← BitVec.toNat_inj]
  rfl

theorem State.timersLeft_tick_lt {s : State} (ne : s.timersLeft ≠ 0) : s.tick.timersLeft < s.timersLeft := by
  simp only [State.timersLeft, State.toNat_tick_dt, State.toNat_tick_st] at ne ⊢
  omega

/-- In Faulted no event raises a timer: no instruction runs (R114, R285). -/
theorem timersLeft_le_of_faulted {e : Event} {s t : State} {info : FaultInfo} (f : s.run = .faulted info)
    (h : applyEvent e s = .next t) : t.timersLeft ≤ s.timersLeft := by
  cases e with
  | cycle => cases (cycle_faulted f).symm.trans h; exact le_rfl
  | tick =>
    cases h
    simp only [State.timersLeft, State.toNat_tick_dt, State.toNat_tick_st]
    omega
  | keySet | pass => cases h; exact le_rfl

/-- With TICKs for ever, the timers of a Faulted core run out: where what is left on them is least, the next TICK
would make it less (R113, R114). -/
theorem exists_timersLeft_zero {σ : Nat → Event} {ρ : Nat → State} {info : FaultInfo} (run : InfiniteRun σ ρ)
    (ticks : InfinitelyOften σ .tick) (f : ∀ n, (ρ n).run = .faulted info) :
    ∃ n, ∀ m, n ≤ m → (ρ m).timersLeft = 0 := by
  have falls : Antitone fun n => (ρ n).timersLeft :=
    antitone_nat_of_succ_le fun n => timersLeft_le_of_faulted (f n) (run n)
  let n := Function.argmin fun n => (ρ n).timersLeft
  have least (m : Nat) : (ρ n).timersLeft ≤ (ρ m).timersLeft := Function.argmin_le (fun n => (ρ n).timersLeft) m
  obtain ⟨m, le, tick⟩ := ticks n
  have next : ρ (m + 1) = (ρ m).tick := by
    have h := run m
    rw [tick] at h
    exact (Host.Outcome.next.inj h).symm
  have zero : (ρ m).timersLeft = 0 := by
    by_contra ne
    have less := State.timersLeft_tick_lt ne
    have floor := least (m + 1)
    rw [next] at floor
    exact absurd (falls le) (Nat.not_le_of_lt (floor.trans_lt less))
  exact ⟨m, fun k hk => Nat.eq_zero_of_le_zero (zero ▸ falls hk)⟩

/-! ### The wait for a key -/

/-- With some key pressed the scan finds one, no higher than that (R232). -/
theorem State.exists_firstKey {s : State} {k : Nibble} (down : s.keyDown k = true) :
    ∃ j, s.firstKey = some j ∧ j.toNat ≤ k.toNat := by
  obtain ⟨j, hj, least⟩ := (measure BitVec.toNat).wf.has_min {j : Nibble | s.keyDown j = true} ⟨k, down⟩
  refine ⟨j, State.firstKey_eq_some hj fun l lt => ?_, Nat.le_of_not_lt (least k down)⟩
  exact Bool.eq_false_iff.2 fun hl => least l hl lt

/-- The scan then ends the wait, with that key's index in the target register (R232). -/
theorem State.keyScan_of_keyDown {s : State} {k : Nibble} (x : Nibble) (down : s.keyDown k = true) :
    (s.keyScan x).run = .running ∧ ((s.keyScan x).reg x).toNat ≤ k.toNat := by
  obtain ⟨j, first, le⟩ := State.exists_firstKey down
  have small := j.isLt
  have index : (j.setWidth 8).toNat = j.toNat := by
    rw [BitVec.toNat_setWidth]; omega
  simp only [State.keyScan, first]
  exact ⟨rfl, by simpa [index] using le⟩

/-- Until its first CYCLE a run keeps `run` (R34). -/
theorem run_until_cycle {σ : Nat → Event} {ρ : Nat → State} (run : InfiniteRun σ ρ) (n : Nat)
    (early : ∀ m, m < n → σ m ≠ .cycle) : (ρ n).run = (ρ 0).run := by
  induction n with
  | zero => rfl
  | succ n ih =>
    have kept := ih fun m lt => early m (lt.trans (Nat.lt_succ_self n))
    exact (applyEvent_run_of_ne_cycle (early n (Nat.lt_succ_self n)) (run n)).trans kept

/-- With a key held, the first CYCLE of a wait ends it (R232, R234). -/
theorem exists_wait_ended {σ : Nat → Event} {ρ : Nat → State} {x k : Nibble} (run : InfiniteRun σ ρ)
    (cycles : InfinitelyOften σ .cycle) (wait : (ρ 0).run = .awaitingKey x)
    (held : ∀ n, (ρ n).keyDown k = true) :
    ∃ n, (ρ n).run = .running ∧ ((ρ n).reg x).toNat ≤ k.toNat := by
  have arrives : ∃ n, σ n = .cycle := (cycles 0).imp fun _ h => h.2
  let n := Nat.find arrives
  have waiting : (ρ n).run = .awaitingKey x :=
    (run_until_cycle run n fun _ lt => Nat.find_min arrives lt).trans wait
  have scan : applyEvent .cycle (ρ n) = .next (ρ (n + 1)) := Nat.find_spec arrives ▸ run n
  have next : ρ (n + 1) = (ρ n).keyScan x :=
    Host.Outcome.next.inj (scan.symm.trans (cycle_awaiting waiting))
  exact ⟨n + 1, next ▸ State.keyScan_of_keyDown x (held n)⟩

end Sys2Proof.Machine
end

section
/-!
PROOFS of the execution-cycle family, continued: what the counting function of RATE_BOUNDS admits (R112).
-/

namespace Sys2Proof.Safety

open Sys2Proof.Machine Sys2Proof.Config

/-- Between any two consecutive TICKs of a list at least `cMin` and at most `cMax` CYCLEs come (R112). -/
def Spaced (cMin cMax : Nat) (es : List Event) : Prop :=
  ∀ a b c, es = a ++ .tick :: (b ++ .tick :: c) → Event.tick ∉ b →
    cMin ≤ b.count .cycle ∧ b.count .cycle ≤ cMax

/-- With `n` CYCLEs since the last TICK, the list brings them within the bounds by its first TICK, if it has one. -/
def FirstGap (cMin cMax n : Nat) (es : List Event) : Prop :=
  ∀ b c, es = b ++ .tick :: c → Event.tick ∉ b → cMin ≤ n + b.count .cycle ∧ n + b.count .cycle ≤ cMax

variable {cMin cMax n : Nat} {e : Event} {es : List Event}

theorem firstGap_nil : FirstGap cMin cMax n [] := fun b c h _ => by simp at h

theorem firstGap_tick : FirstGap cMin cMax n (.tick :: es) ↔ cMin ≤ n ∧ n ≤ cMax := by
  constructor
  · intro h; exact h [] es rfl List.not_mem_nil
  · intro h b c split no
    cases b with
    | nil => exact h
    | cons e b =>
      obtain ⟨rfl, -⟩ := List.cons.inj split
      exact absurd List.mem_cons_self no

theorem firstGap_cons (ne : e ≠ .tick) :
    FirstGap cMin cMax n (e :: es) ↔ FirstGap cMin cMax (n + [e].count .cycle) es := by
  have count (b : List Event) : n + (e :: b).count .cycle = n + [e].count .cycle + b.count .cycle := by
    rw [List.count_cons, List.count_singleton]; omega
  constructor
  · intro h b c split no
    rw [← count]
    exact h (e :: b) c (by rw [split]; rfl) (List.not_mem_cons_of_ne_of_not_mem ne.symm no)
  · intro h b c split no
    cases b with
    | nil => exact absurd (List.cons.inj split).1 ne
    | cons e' b =>
      obtain ⟨rfl, rest⟩ := List.cons.inj split
      rw [count]
      exact h b c rest (List.not_mem_of_not_mem_cons no)

theorem spaced_nil : Spaced cMin cMax [] := fun a b c h _ => by simp at h

theorem spaced_tick : Spaced cMin cMax (.tick :: es) ↔ FirstGap cMin cMax 0 es ∧ Spaced cMin cMax es := by
  constructor
  · intro h
    refine ⟨fun b c split no => ?_, fun a b c split no => ?_⟩
    · rw [Nat.zero_add]
      exact h [] b c (by rw [split]; rfl) no
    · exact h (.tick :: a) b c (by rw [split]; rfl) no
  · rintro ⟨first, rest⟩ a b c split no
    cases a with
    | nil => simpa only [Nat.zero_add] using first b c (List.cons.inj split).2 no
    | cons e a => exact rest a b c (List.cons.inj split).2 no

theorem spaced_cons (ne : e ≠ .tick) : Spaced cMin cMax (e :: es) ↔ Spaced cMin cMax es := by
  constructor
  · intro h a b c split no
    exact h (e :: a) b c (by rw [split]; rfl) no
  · intro h a b c split no
    cases a with
    | nil => exact absurd (List.cons.inj split).1 ne
    | cons e' a => exact h a b c (List.cons.inj split).2 no

/-- The count takes the events one by one: only a CYCLE adds to it. -/
theorem rateOk_some_cons (ne : e ≠ .tick) :
    rateOk cMin cMax (some n) (e :: es) = rateOk cMin cMax (some (n + [e].count .cycle)) es := by
  cases e with
  | tick => exact absurd rfl ne
  | cycle | keySet | pass => rfl

theorem rateOk_none_cons (ne : e ≠ .tick) : rateOk cMin cMax none (e :: es) = rateOk cMin cMax none es := by
  cases e with
  | tick => exact absurd rfl ne
  | cycle | keySet | pass => rfl

theorem rateOk_some_tick : rateOk cMin cMax (some n) (.tick :: es) = true ↔
    (cMin ≤ n ∧ n ≤ cMax) ∧ rateOk cMin cMax (some 0) es = true := by
  simp [rateOk]

/-- With `n` CYCLEs counted since the last TICK (R112). -/
theorem rateOk_some_iff :
    rateOk cMin cMax (some n) es = true ↔ FirstGap cMin cMax n es ∧ Spaced cMin cMax es := by
  induction es generalizing n with
  | nil => exact iff_of_true rfl ⟨firstGap_nil, spaced_nil⟩
  | cons e es ih =>
    by_cases c : e = .tick
    · subst c; rw [rateOk_some_tick, ih, firstGap_tick, spaced_tick]
    · rw [rateOk_some_cons c, ih, firstGap_cons c, spaced_cons c]

/-- Before the first TICK (R112). -/
theorem rateOk_none_iff : rateOk cMin cMax none es = true ↔ Spaced cMin cMax es := by
  induction es with
  | nil => exact iff_of_true rfl spaced_nil
  | cons e es ih =>
    by_cases c : e = .tick
    · subst c; rw [spaced_tick]; exact rateOk_some_iff
    · rw [rateOk_none_cons c, ih, spaced_cons c]

theorem withinRates_unbounded {s : State} (unbounded : s.params.rateBounds = .unbounded) (es : List Event) :
    WithinRates s es := by
  rw [WithinRates, unbounded]; rfl

theorem withinRates_iff {s : State} (bounds : s.params.rateBounds = .between cMin cMax) (es : List Event) :
    WithinRates s es ↔ Spaced cMin cMax es := by
  rw [WithinRates, bounds]
  exact rateOk_none_iff

/-! ### Stretches of an infinite sequence -/

/-- The `k` events of a sequence from its `i`-th on. -/
def stretch (σ : Nat → Event) (i k : Nat) : List Event := (List.range k).map fun j => σ (i + j)

theorem stretch_zero (σ : Nat → Event) (k : Nat) : stretch σ 0 k = (List.range k).map σ := by
  simp only [stretch, Nat.zero_add]

theorem stretch_length (σ : Nat → Event) (i k : Nat) : (stretch σ i k).length = k := by simp [stretch]

theorem stretch_add (σ : Nat → Event) (i k l : Nat) :
    stretch σ i (k + l) = stretch σ i k ++ stretch σ (i + k) l := by
  simp [stretch, List.range_add, Function.comp_def, Nat.add_assoc]

theorem stretch_succ (σ : Nat → Event) (i k : Nat) : stretch σ i (k + 1) = σ i :: stretch σ (i + 1) k := by
  rw [Nat.add_comm, stretch_add]; rfl

theorem tick_not_mem_stretch {σ : Nat → Event} {i k : Nat} :
    Event.tick ∉ stretch σ i k ↔ ∀ j, j < k → σ (i + j) ≠ .tick := by
  simp [stretch]

theorem withinRatesForever_iff {s : State} (bounds : s.params.rateBounds = .between cMin cMax)
    {σ : Nat → Event} : WithinRatesForever s σ ↔ ∀ n, Spaced cMin cMax (stretch σ 0 n) :=
  forall_congr' fun n => by rw [withinRates_iff bounds, stretch_zero]

/-- The parts of a stretch are stretches. -/
theorem stretch_eq_append {σ : Nat → Event} {i k : Nat} {a b : List Event} (h : stretch σ i k = a ++ b) :
    a = stretch σ i a.length ∧ b = stretch σ (i + a.length) b.length := by
  have len : k = a.length + b.length := by rw [← List.length_append, ← h, stretch_length]
  rw [len, stretch_add] at h
  obtain ⟨ha, hb⟩ := List.append_inj h (stretch_length ..)
  exact ⟨ha.symm, hb.symm⟩

theorem stretch_eq_cons {σ : Nat → Event} {i k : Nat} {e : Event} {b : List Event}
    (h : stretch σ i k = e :: b) : σ i = e ∧ b = stretch σ (i + 1) b.length := by
  obtain ⟨he, hb⟩ := stretch_eq_append (a := [e]) h
  exact ⟨(List.cons.inj he).1.symm, hb⟩

/-- Every start of a sequence is within bounds exactly when between any two consecutive TICKs of it the CYCLEs are
(R112). -/
theorem spaced_stretches_iff {σ : Nat → Event} : (∀ n, Spaced cMin cMax (stretch σ 0 n)) ↔
    ∀ i k, σ i = .tick → σ (i + 1 + k) = .tick → (∀ j, j < k → σ (i + 1 + j) ≠ .tick) →
      cMin ≤ (stretch σ (i + 1) k).count .cycle ∧ (stretch σ (i + 1) k).count .cycle ≤ cMax := by
  constructor
  · intro h i k first second between
    refine h (i + (k + 1 + 1)) (stretch σ 0 i) (stretch σ (i + 1) k) [] ?_ (tick_not_mem_stretch.2 between)
    rw [stretch_add, Nat.zero_add, stretch_succ, stretch_add, first, stretch_succ, second]
    rfl
  · intro h n a b c split no
    obtain ⟨-, rest⟩ := stretch_eq_append split
    obtain ⟨first, rest⟩ := stretch_eq_cons rest.symm
    obtain ⟨gap, rest⟩ := stretch_eq_append rest.symm
    obtain ⟨second, -⟩ := stretch_eq_cons rest.symm
    rw [gap] at no ⊢
    exact h _ _ first second (tick_not_mem_stretch.1 no)

end Sys2Proof.Safety
end

section
/-!
The obligations of the execution-cycle family.
-/

namespace Sys2Proof.Proofs

open Sys2Proof.Machine Sys2Proof.Config Sys2Proof.Safety

/-- Settles O8: the two branches of the fetch. -/
theorem fetchChecksReadsAndAdvances : Obligations.FetchChecksReadsAndAdvances := by
  unfold Obligations.FetchChecksReadsAndAdvances
  exact ⟨fun s run out => ⟨_, cycle_fetch_out run out, rfl, rfl, s.onlyChanges_raise _ _ _⟩,
    fun _ run lt => cycle_fetch_in run lt⟩

/-- Settles O9: a word that matches no row does not decode, and dispatch then reports it. -/
theorem invalidWordIsReportedAndPassed : Obligations.InvalidWordIsReportedAndPassed := by
  unfold Obligations.InvalidWordIsReportedAndPassed
  intro s run lt invalid
  have reported := (cycle_fetch_in run lt).trans (dispatch_error (decodeWord_of_not_wellFormed invalid))
  exact ⟨_, reported, rfl, rfl, s.onlyChanges_advance_report _⟩

/-- Settles O13: the timer-decay step, which does not look at `run`. -/
theorem tickDecaysBothTimers : Obligations.TickDecaysBothTimers := by
  unfold Obligations.TickDecaysBothTimers
  exact fun s => ⟨s.tick, rfl, s.toNat_tick_dt, s.toNat_tick_st, s.onlyChanges_tick⟩

/-- Settles O14: by induction on the number of TICKs. -/
theorem timersCountDownToZero : Obligations.TimersCountDownToZero := by
  unfold Obligations.TimersCountDownToZero
  exact runEvents_ticks

/-- Settles O45: every instruction has one of the shapes of a next state, and a step is one event. -/
theorem everyInstructionAndStepCompletes : Obligations.EveryInstructionAndStepCompletes := by
  unfold Obligations.EveryInstructionAndStepCompletes
  exact ⟨fun i s => (exec_shape i s).imp fun _ h => h.1, fun s => applyEvent_next ..⟩

/-- Settles O47: no cycle emits more than the instruction it runs, whose address is the pc before the advance. -/
theorem atMostOneDiagnosticPerCycle : Obligations.AtMostOneDiagnosticPerCycle := by
  unfold Obligations.AtMostOneDiagnosticPerCycle
  exact fun _ _ => cycle_emits

/-- Settles O54: the trace of the events is a run, and the first state and the events determine each state of one. -/
theorem everyInfiniteSequenceIsARun : Obligations.EveryInfiniteSequenceIsARun := by
  unfold Obligations.EveryInfiniteSequenceIsARun
  intro σ s
  have run := s.infiniteRun_trace σ
  exact ⟨s.trace σ, rfl, run, runEvents_firstEvents run, fun _ start run' => infiniteRun_unique run run' start⟩

/-- Settles O55: a TICK lowers what is left on a Faulted core's timers, and the first CYCLE of a wait finds the key
held. -/
theorem fairRunsMakeProgress : Obligations.FairRunsMakeProgress := by
  unfold Obligations.FairRunsMakeProgress
  refine ⟨fun σ ρ info run ⟨ticks, _⟩ start => ?_, fun σ ρ x k run ⟨_, cycles⟩ => exists_wait_ended run cycles⟩
  have faulted := infiniteRun_induct run start applyEvent_faulted
  obtain ⟨n, zero⟩ := exists_timersLeft_zero run ticks faulted
  refine ⟨n, fun m le => ?_⟩
  obtain ⟨dt, st⟩ := State.timersLeft_eq_zero.1 (zero m le)
  exact ⟨dt, st, faulted m⟩

/-- Settles O56: the counting function admits a list exactly when its gaps are within the bounds, and the starts of
a sequence have together the gaps of the sequence. -/
theorem rateBoundsCountCyclesBetweenTicks : Obligations.RateBoundsCountCyclesBetweenTicks := by
  unfold Obligations.RateBoundsCountCyclesBetweenTicks
  refine ⟨fun s isDefault => ⟨withinRates_unbounded isDefault, fun σ n => withinRates_unbounded isDefault _⟩,
    fun s cMin cMax bounds => ⟨withinRates_iff bounds, fun σ => ?_⟩⟩
  exact (withinRatesForever_iff bounds).trans spaced_stretches_iff

/-- Settles O57: the jump puts back the pc that the fetch advanced. -/
theorem selfLoopChangesNothing : Obligations.SelfLoopChangesNothing := by
  unfold Obligations.SelfLoopChangesNothing
  intro s nnn run pc fetched
  have dec : decodeWord (0x1#4 ++ nnn) = .ok (.jp nnn) := decodeWord_encode (.jp nnn)
  have target : zext16 nnn = s.pc := by
    apply BitVec.eq_of_toNat_eq
    rw [pc, zext16, BitVec.toNat_setWidth_of_le (by decide)]
  obtain ⟨lt, word⟩ := State.fetch_eq_some fetched
  constructor
  · simp [selfLoop, run, fetched, dec, target]
  · rw [cycle_exec run lt (word ▸ dec), exec_jp, target]
    rfl

/-- Settles O6: the three places the next event can come from. -/
theorem stepTakesTheNextEvent : Obligations.StepTakesTheNextEvent := by
  unfold Obligations.StepTakesTheNextEvent
  exact ⟨fun _ _ _ => step_cons, fun _ _ _ => step_repeating, fun _ _ => step_free, rfl, rfl⟩

/-- Settles O7: taking a CYCLE leaves pc and memory as they were, so it fetches and runs `i`. -/
theorem stepRunsTheDecodedInstruction : Obligations.StepRunsTheDecodedInstruction := by
  unfold Obligations.StepRunsTheDecodedInstruction
  intro s i run lt dec
  have runs := cycle_withInputs run lt (decodeWord_of_decode dec)
  refine ⟨fun s' next => ?_, fun es quiet source => ?_, fun es listed => ?_⟩
  · obtain ⟨es, src, taken⟩ := s.nextEvent_snd
    rw [next] at taken
    subst taken
    exact (step_of_nextEvent next).trans (runs es src)
  · exact (step_repeating quiet source).trans (runs es s.source)
  · exact (step_cons listed).trans (runs es s.source)

/-- Settles O12: a CYCLE in Faulted is nothing, and the timer-decay step leaves `run` alone. -/
theorem cycleInFaultedDoesNothing : Obligations.CycleInFaultedDoesNothing := by
  unfold Obligations.CycleInFaultedDoesNothing
  exact fun s info faulted =>
    ⟨cycle_faulted faulted, s.tick, rfl, faulted, s.toNat_tick_dt, s.toNat_tick_st⟩

/-- Settles O16: by cases on which of the two periods have elapsed. -/
theorem schedulerPassIssuesCycleBeforeTick : Obligations.SchedulerPassIssuesCycleBeforeTick := by
  unfold Obligations.SchedulerPassIssuesCycleBeforeTick
  intro s now
  refine ⟨s.schedulerPass now, rfl, ?_, s.onlyChanges_schedulerPass now⟩
  by_cases instr : s.tInstr + s.params.timerHz ≤ now <;> by_cases timer : s.tTimer + s.params.instrHz ≤ now
  · exact .inl ⟨instr, timer, by simp [State.schedulerPass_eq, instr, timer]⟩
  · exact .inr (.inl ⟨instr, by omega, by simp [State.schedulerPass_eq, instr, timer]⟩)
  · exact .inr (.inr (.inl ⟨by omega, timer, by simp [State.schedulerPass_eq, instr, timer]⟩))
  · exact .inr (.inr (.inr ⟨by omega, by omega, by simp [State.schedulerPass_eq, instr, timer]⟩))

end Sys2Proof.Proofs
end

section
/-!
PROOFS of the control-flow family (spec 41_control_flow.md): the words that families 5 and 9 refuse, what the jumps,
the skips, a call and a return write, and how a call's entry is read back.
-/

namespace Sys2Proof

/-- 5XYN and 9XYN with N not zero are invalid (R135, R136). -/
theorem decodeWord_packXYN_of_ne {f : Nibble} (family : f = 0x5 ∨ f = 0x9) (x y : Nibble) {n : Nibble}
    (ne : n ≠ 0x0#4) :
    decodeWord (packXYN f x y n) = .error (.invalidWord (packXYN f x y n)) := by
  rcases family with rfl | rfl
  · simp [decodeWord, decodeLowNibbleZero, ne]
  · simp [decodeWord, decodeLowNibbleZero, ne]

end Sys2Proof

namespace Sys2Proof.Machine

open Sys2Proof.Config Sys2Proof.Safety

/-! ### Frames -/

theorem State.onlyChanges_setPc (s : State) (w : Word) : OnlyChanges [.pc] s (s.setPc w) := by
  intro p hp
  cases p with
  | pc => simp at hp
  | _ => simp [Unchanged]

/-- A skip writes pc or nothing (R138). -/
theorem State.onlyChanges_skipIf (s : State) (c : Bool) : OnlyChanges [.pc] s (s.skipIf c) := by
  rw [State.skipIf_eq]
  exact s.onlyChanges_setPc _

/-- A source-defined diagnostic leaves sp, the stack and pc alone (R130, R132, R282). -/
theorem State.onlyChanges_reportInstr (s : State) (c : DiagCode) (i : Instr) :
    OnlyChanges [.diagnostics] s (s.reportInstr c i) := by
  intro p hp
  cases p with
  | diagnostics => simp at hp
  | _ => simp [Unchanged]

/-- What a call and a return write. -/
theorem State.onlyChanges_pc_stack (s : State) (stack : List Word) (sp : Nat) (pc : Word) :
    OnlyChanges [.pc, .stack] s { s with stack := stack, sp := sp, pc := pc } := by
  intro p hp
  cases p with
  | pc | stack => simp at hp
  | regs | memory | keypad => exact fun _ => rfl
  | display => exact fun _ _ => rfl
  | scheduler | events => exact ⟨rfl, rfl⟩
  | _ => rfl

/-! ### Jumps -/

theorem toNat_zext16 {n : Nat} (le : n ≤ 16) (b : BitVec n) : (zext16 b).toNat = b.toNat :=
  BitVec.toNat_setWidth_of_le le

/-- The sum of JP V0 is at most 0xFFF + 0xFF, so it does not wrap (R137). -/
theorem toNat_jumpTarget (nnn : Addr12) (b : Byte) : (zext16 nnn + zext16 b).toNat = nnn.toNat + b.toNat := by
  have hn := nnn.isLt
  have hb := b.isLt
  rw [BitVec.toNat_add, toNat_zext16 (by decide), toNat_zext16 (by decide), Nat.mod_eq_of_lt (by omega)]

/-- JP V0 replaces pc alone (R137). -/
theorem exec_jpV0 (nnn : Addr12) (s : State) :
    exec (.jpV0 nnn) s = .next (s.setPc (zext16 nnn + zext16 (s.reg 0))) := rfl

/-! ### Skips -/

theorem State.pc_skipIf (s : State) (c : Bool) : (s.skipIf c).pc = if c = true then s.pc + 2 else s.pc := by
  rw [State.skipIf_eq]

/-- An instruction that skips on equality (R133, R135). -/
theorem skips_if_eq {i : Instr} {s : State} {a b : Byte} (h : exec i s = .next (s.skipIf (a == b))) :
    ∃ t, exec i s = .next t ∧ t.pc = (if a = b then s.pc + 2 else s.pc) ∧ OnlyChanges [.pc] s t :=
  ⟨_, h, by simp only [State.pc_skipIf, beq_iff_eq], s.onlyChanges_skipIf _⟩

/-- An instruction that skips on inequality (R134, R136). -/
theorem skips_if_ne {i : Instr} {s : State} {a b : Byte} (h : exec i s = .next (s.skipIf (a != b))) :
    ∃ t, exec i s = .next t ∧ t.pc = (if a = b then s.pc else s.pc + 2) ∧ OnlyChanges [.pc] s t :=
  ⟨_, h, by simp only [State.pc_skipIf, bne_iff_ne, ne_eq, ite_not], s.onlyChanges_skipIf _⟩

/-! ### Call and return -/

/-- The stack after a call with room: the entry at sp is the address after the call, as wide as STACK_ENTRY_W, and
the others are as before (R132). -/
theorem exec_call_stackAt {s t : State} {nnn : Addr12} (shaped : s.shaped = true) (room : s.sp < s.params.stackDepth)
    (h : exec (.call nnn) s = .next t) (k : Nat) :
    t.stackAt k = if k = s.sp then s.params.stackEntry s.pc else s.stackAt k := by
  obtain ⟨length, -⟩ := State.shaped_iff.1 shaped
  cases (exec_call_push nnn room).symm.trans h
  exact getD_set (by rwa [length]) _ k

end Sys2Proof.Machine
end

section
/-!
The obligations of the control-flow family.
-/

namespace Sys2Proof.Proofs

open Sys2Proof.Machine

/-- Settles O21: the pop's two branches; what is reported carries RET's own word. -/
theorem retPopsOrReportsUnderflow : Obligations.RetPopsOrReportsUnderflow := by
  unfold Obligations.RetPopsOrReportsUnderflow
  exact ⟨decodeWord_encode .ret,
    fun s empty => ⟨_, exec_ret_empty empty, rfl, s.onlyChanges_reportInstr _ _⟩,
    fun s entry => ⟨_, exec_ret_pop entry, rfl, rfl, rfl, s.onlyChanges_pc_stack s.stack _ _⟩⟩

/-- Settles O22: both jumps replace pc alone, by a target below 2^16. -/
theorem jumpsReplacePc : Obligations.JumpsReplacePc := by
  unfold Obligations.JumpsReplacePc
  exact ⟨fun nnn => ⟨decodeWord_encode (.jp nnn), decodeWord_encode (.jpV0 nnn)⟩,
    fun s nnn => ⟨_, exec_jp nnn s, toNat_zext16 (by decide) nnn, s.onlyChanges_setPc _⟩,
    fun s nnn => ⟨_, exec_jpV0 nnn s, toNat_jumpTarget nnn (s.reg 0), s.onlyChanges_setPc _⟩⟩

/-- Settles O23: the push's two branches; an entry that is wide enough holds pc whole. -/
theorem callPushesOrReportsOverflow : Obligations.CallPushesOrReportsOverflow := by
  unfold Obligations.CallPushesOrReportsOverflow
  refine ⟨fun nnn => decodeWord_encode (.call nnn),
    fun s nnn full => ⟨_, exec_call_full nnn (Nat.not_lt.2 full), rfl, s.onlyChanges_reportInstr _ _⟩,
    fun s nnn shaped room => ?_⟩
  have pushed := exec_call_push nnn room
  have entries := exec_call_stackAt shaped room pushed
  refine ⟨_, pushed, toNat_zext16 (by decide) nnn, rfl, fun fits => ?_, fun k ne => ?_,
    s.onlyChanges_pc_stack _ _ _⟩
  · rw [entries, if_pos rfl, Params.stackEntry_of_lt fits]
  · rw [entries, if_neg ne]

/-- Settles O24: the return reads the entry below the call's sp, which the call wrote. -/
theorem returnComesBackAfterCall : Obligations.ReturnComesBackAfterCall := by
  unfold Obligations.ReturnComesBackAfterCall
  intro s nnn shaped room fits
  have pushed := exec_call_push nnn room
  refine ⟨_, pushed, fun u stack sp => ?_⟩
  have sp_u : u.sp = s.sp + 1 := sp
  have top : u.stackAt s.sp = s.pc :=
    calc u.stackAt s.sp
      _ = _ := congrArg (List.getD · s.sp 0) stack
      _ = s.params.stackEntry s.pc := (exec_call_stackAt shaped room pushed s.sp).trans (if_pos rfl)
      _ = s.pc := Params.stackEntry_of_lt fits
  have below : u.sp - 1 = s.sp := by rw [sp_u, Nat.add_sub_cancel]
  exact ⟨_, exec_ret_pop (by omega), (congrArg u.stackAt below).trans top, below⟩

/-- Settles O25: the decoder on the packed words, and the pc of a skip on either outcome of the comparison. -/
theorem skipsAddTwoWhenTheConditionHolds : Obligations.SkipsAddTwoWhenTheConditionHolds := by
  unfold Obligations.SkipsAddTwoWhenTheConditionHolds
  refine ⟨fun x y nn => ?_, fun x y n ne => ?_, fun s x nn => ?_, fun s x y => ?_⟩
  · exact ⟨decodeWord_encode (.seImm x nn), decodeWord_encode (.sneImm x nn), decodeWord_encode (.seReg x y),
      decodeWord_encode (.sneReg x y)⟩
  · exact ⟨decodeWord_packXYN_of_ne (.inl rfl) x y ne, decodeWord_packXYN_of_ne (.inr rfl) x y ne⟩
  · exact ⟨skips_if_eq rfl, skips_if_ne rfl⟩
  · exact ⟨skips_if_eq rfl, skips_if_ne rfl⟩

end Sys2Proof.Proofs
end

section
/-!
PROOFS of the arithmetic family (spec 42_alu.md): which registers the writes of an ALU instruction leave as what, their
frames, and the value of each result and flag as a number.
-/

namespace Sys2Proof.Machine

open Sys2Proof.Config Sys2Proof.Safety

/-! ### Frames -/

/-- A new register file is a change of the registers alone. -/
theorem State.onlyChanges_regs (s : State) (v : Vector Byte numV) : OnlyChanges [.regs] s { s with v := v } := by
  intro p hp
  cases p with
  | regs => simp at hp
  | memory | keypad => exact fun _ => rfl
  | display => exact fun _ _ => rfl
  | stack | scheduler | events => exact ⟨rfl, rfl⟩
  | _ => rfl

theorem State.onlyChanges_setReg (s : State) (x : Nibble) (b : Byte) : OnlyChanges [.regs] s (s.setReg x b) :=
  s.onlyChanges_regs _

theorem State.onlyChanges_setRegFlag (s : State) (x : Nibble) (r f : Byte) :
    OnlyChanges [.regs] s (s.setRegFlag x r f) := by
  rw [State.setRegFlag_frame]
  exact s.onlyChanges_regs _

/-- A draw moves the model's counter on and then writes a register (R174). -/
theorem State.onlyChanges_drawn_setReg (s : State) (x : Nibble) (b : Byte) :
    OnlyChanges [.regs, .random] s (s.drawn.setReg x b) := by
  intro p hp
  cases p with
  | regs | random => simp at hp
  | _ => simp [Unchanged]

/-! ### The shared writes -/

theorem State.reg_setReg_self (s : State) (x : Nibble) (b : Byte) : (s.setReg x b).reg x = b := by
  rw [State.reg_setReg, if_pos rfl]

theorem State.reg_setReg_of_ne (s : State) {x y : Nibble} (b : Byte) (ne : y ≠ x) :
    (s.setReg x b).reg y = s.reg y := by
  rw [State.reg_setReg, if_neg ne]

/-- VF ends with the flag unless X is VF and the result is written last (R162). -/
theorem State.reg_setRegFlag_vf {s : State} {x : Nibble} (h : x ≠ vf ∨ s.params.flagOrder = .flagLast)
    (r f : Byte) : (s.setRegFlag x r f).reg vf = f := by
  have keeps : ¬(x = vf ∧ s.params.flagOrder = .resultLast) := by
    rintro ⟨isVf, last⟩
    rcases h with ne | first
    · exact ne isVf
    · cases first.symm.trans last
  rw [State.reg_setRegFlag, if_pos rfl, if_neg keeps]

/-- V[X] ends with the result unless X is VF and the flag is written last (R162). -/
theorem State.reg_setRegFlag_self {s : State} {x : Nibble} (h : x ≠ vf ∨ s.params.flagOrder = .resultLast)
    (r f : Byte) : (s.setRegFlag x r f).reg x = r := by
  rw [State.reg_setRegFlag]
  by_cases isVf : x = vf
  · rw [if_pos isVf, if_pos ⟨isVf, h.resolve_left (not_not_intro isVf)⟩]
  · rw [if_neg isVf, if_pos rfl]

theorem State.reg_setRegFlag_of_ne (s : State) {x y : Nibble} (r f : Byte) (neX : y ≠ x) (neVf : y ≠ vf) :
    (s.setRegFlag x r f).reg y = s.reg y := by
  rw [State.reg_setRegFlag, if_neg neVf, if_neg neX]

/-- An instruction whose one write is to V[X] (R163 to R168). -/
theorem writes_one_register {i : Instr} {s : State} {x : Nibble} {b : Byte} (h : exec i s = .next (s.setReg x b)) :
    ∃ t, exec i s = .next t ∧ t.reg x = b ∧ (∀ r, r ≠ x → t.reg r = s.reg r) ∧ OnlyChanges [.regs] s t :=
  ⟨_, h, s.reg_setReg_self x b, fun _ => s.reg_setReg_of_ne b, s.onlyChanges_setReg x b⟩

/-- An instruction that writes a result to V[X] and a flag to VF, in the order of FLAG_ORDER (R162, R169 to R173). -/
theorem writes_result_and_flag {i : Instr} {s : State} {x : Nibble} {result flag : Byte}
    (h : exec i s = .next (s.setRegFlag x result flag)) :
    ∃ t, exec i s = .next t ∧ (x ≠ 0xF ∨ s.params.flagOrder = .flagLast → t.reg 0xF = flag) ∧
      (x ≠ 0xF ∨ s.params.flagOrder = .resultLast → t.reg x = result) ∧
      (∀ r, r ≠ x → r ≠ 0xF → t.reg r = s.reg r) ∧ OnlyChanges [.regs] s t :=
  ⟨_, h, fun ok => State.reg_setRegFlag_vf ok result flag, fun ok => State.reg_setRegFlag_self ok result flag,
    fun _ => s.reg_setRegFlag_of_ne result flag, s.onlyChanges_setRegFlag x result flag⟩

/-! ### Results and flags as numbers -/

theorem toNat_byte_sub (a b : Byte) : (a - b).toNat = (a.toNat + 256 - b.toNat) % 256 := by
  have lt := b.isLt
  rw [BitVec.toNat_sub, show 2 ^ 8 - b.toNat + a.toNat = a.toNat + 256 - b.toNat by omega]

theorem flagByte_decide (P : Prop) [Decidable P] : flagByte (decide P) = if P then 1 else 0 := by
  simp only [flagByte, decide_eq_true_eq]

theorem addFlag_eq (a b : Byte) : addFlag a b = if 255 < a.toNat + b.toNat then 1 else 0 := flagByte_decide _

theorem subFlag_eq (a b : Byte) : subFlag a b = if b.toNat ≤ a.toNat then 1 else 0 := flagByte_decide _

/-- A shift right moves out bit 0 (R171). -/
theorem toNat_shrFlag (a : Byte) : (shrFlag a).toNat = a.toNat % 2 := by
  rw [shrFlag, BitVec.toNat_and]
  exact Nat.and_one_is_mod _

/-- A shift left moves out bit 7 (R173). -/
theorem toNat_shlFlag (a : Byte) : (shlFlag a).toNat = a.toNat / 128 := by
  rw [shlFlag, BitVec.toNat_ushiftRight, Nat.shiftRight_eq_div_pow]

theorem toNat_byte_shr (a : Byte) : (a >>> 1).toNat = a.toNat / 2 := by
  rw [BitVec.toNat_ushiftRight, Nat.shiftRight_eq_div_pow]

theorem toNat_byte_shl (a : Byte) : (a <<< 1).toNat = a.toNat * 2 % 256 := by
  rw [BitVec.toNat_shiftLeft, Nat.shiftLeft_eq]

/-- A masked byte has no bit that the mask lacks (R174). -/
theorem and_mask_and_not_mask (b mask : Byte) : b &&& mask &&& ~~~mask = 0 := by
  rw [BitVec.and_assoc, BitVec.and_not_self]
  exact BitVec.and_zero

/-! ### Subtraction -/

/-- An instruction that writes a difference and its no-borrow flag (R170, R172). -/
theorem writes_difference {i : Instr} {s : State} {x : Nibble} {a b : Byte}
    (h : exec i s = .next (s.setRegFlag x (a - b) (subFlag a b))) :
    ∃ t, exec i s = .next t ∧
      (x ≠ 0xF ∨ s.params.flagOrder = .flagLast → t.reg 0xF = if b.toNat ≤ a.toNat then 1 else 0) ∧
      (x ≠ 0xF ∨ s.params.flagOrder = .resultLast → (t.reg x).toNat = (a.toNat + 256 - b.toNat) % 256) ∧
      (∀ r, r ≠ x → r ≠ 0xF → t.reg r = s.reg r) ∧ OnlyChanges [.regs] s t := by
  obtain ⟨t, runs, flag, result, others, frame⟩ := writes_result_and_flag h
  exact ⟨t, runs, fun ok => (flag ok).trans (subFlag_eq a b), fun ok => by rw [result ok, toNat_byte_sub],
    others, frame⟩

end Sys2Proof.Machine
end

section
/-!
The obligations of the arithmetic family.
-/

namespace Sys2Proof.Proofs

open Sys2Proof.Machine

/-- Settles O26: both write V[X] alone; the sum of two bytes wraps at 256. -/
theorem immediateOperationsWriteOneRegister : Obligations.ImmediateOperationsWriteOneRegister := by
  unfold Obligations.ImmediateOperationsWriteOneRegister
  refine ⟨fun x nn => ⟨decodeWord_encode (.ldImm x nn), decodeWord_encode (.addImm x nn)⟩,
    fun s x nn => ⟨writes_one_register rfl, ?_⟩⟩
  obtain ⟨t, runs, result, others, frame⟩ := writes_one_register (i := .addImm x nn) (s := s) rfl
  exact ⟨t, runs, by rw [result, BitVec.toNat_add], others, frame⟩

/-- Settles O27: each of the four writes V[X] alone. -/
theorem logicOperationsWriteOneRegister : Obligations.LogicOperationsWriteOneRegister := by
  unfold Obligations.LogicOperationsWriteOneRegister
  exact ⟨fun x y => ⟨decodeWord_encode (.ldReg x y), decodeWord_encode (.orReg x y), decodeWord_encode (.andReg x y),
      decodeWord_encode (.xorReg x y)⟩,
    fun _ _ _ => ⟨writes_one_register rfl, writes_one_register rfl, writes_one_register rfl, writes_one_register rfl⟩⟩

/-- Settles O28: the shared write of a result and a flag, with the wrapped sum and the carry. -/
theorem addSetsTheCarry : Obligations.AddSetsTheCarry := by
  unfold Obligations.AddSetsTheCarry
  refine ⟨fun x y => decodeWord_encode (.addReg x y), fun s x y => ?_⟩
  obtain ⟨t, runs, flag, result, others, frame⟩ := writes_result_and_flag (i := .addReg x y) (s := s) rfl
  exact ⟨t, runs, fun ok => (flag ok).trans (addFlag_eq _ _),
    fun ok => by rw [result ok, BitVec.toNat_add], others, frame⟩

/-- Settles O29: the two differences, with minuend and subtrahend exchanged. -/
theorem subtractSetsNoBorrow : Obligations.SubtractSetsNoBorrow := by
  unfold Obligations.SubtractSetsNoBorrow
  exact ⟨fun x y => ⟨decodeWord_encode (.subReg x y), decodeWord_encode (.subnReg x y)⟩,
    fun _ _ _ => ⟨writes_difference rfl, writes_difference rfl⟩⟩

/-- Settles O30: the shared write of a result and a flag, both of them computed from V[X] alone. -/
theorem shiftsCaptureTheBitShiftedOut : Obligations.ShiftsCaptureTheBitShiftedOut := by
  unfold Obligations.ShiftsCaptureTheBitShiftedOut
  refine ⟨fun x y => ⟨decodeWord_encode (.shr x y), decodeWord_encode (.shl x y)⟩, fun s x y => ⟨?_, ?_⟩⟩
  · obtain ⟨t, runs, flag, result, others, frame⟩ := writes_result_and_flag (i := .shr x y) (s := s) rfl
    exact ⟨t, runs, fun ok => by rw [flag ok, toNat_shrFlag], fun ok => by rw [result ok, toNat_byte_shr],
      others, frame⟩
  · obtain ⟨t, runs, flag, result, others, frame⟩ := writes_result_and_flag (i := .shl x y) (s := s) rfl
    exact ⟨t, runs, fun ok => by rw [flag ok, toNat_shlFlag], fun ok => by rw [result ok, toNat_byte_shl],
      others, frame⟩

/-- Settles O31: the draw leaves every register alone, and the write after it masks the byte. -/
theorem randomAndMasksAFreeByte : Obligations.RandomAndMasksAFreeByte := by
  unfold Obligations.RandomAndMasksAFreeByte
  intro s x nn
  have masked : (s.drawn.setReg x (s.randByte &&& nn)).reg x = s.randByte &&& nn := State.reg_setReg_self ..
  exact ⟨_, rfl, masked, by rw [masked, and_mask_and_not_mask], rfl, fun _ => s.drawn.reg_setReg_of_ne _,
    s.onlyChanges_drawn_setReg _ _⟩

/-- Settles O44: what the shared write leaves in VF, in V[X] and in the other registers. -/
theorem flagOrderDecidesWhatVfHolds : Obligations.FlagOrderDecidesWhatVfHolds := by
  unfold Obligations.FlagOrderDecidesWhatVfHolds
  exact fun s x r f => ⟨fun flagLast => State.reg_setRegFlag_vf (.inr flagLast) r f,
    fun resultLast => State.reg_setRegFlag_self (.inr resultLast) r f,
    fun ne => ⟨State.reg_setRegFlag_self (.inl ne) r f, State.reg_setRegFlag_vf (.inl ne) r f⟩,
    fun _ => s.reg_setRegFlag_of_ne r f, s.onlyChanges_setRegFlag x r f⟩

end Sys2Proof.Proofs
end

section
/-!
PROOFS of the display family (spec 43_display.md): the drawing operation in the statements' terms, what one draw
leaves in the pixels, in VF and elsewhere, and how a second draw undoes the first.
-/

namespace Sys2Proof.Machine

open Sys2Proof.Config Sys2Proof.Safety

/-! ### Frames -/

theorem State.onlyChanges_setDisp (s : State) (d : Display) : OnlyChanges [.display] s (s.setDisp d) := by
  intro p hp
  cases p with
  | display => simp at hp
  | _ => simp [Unchanged]

/-- What a draw writes (R201). -/
theorem State.onlyChanges_setDisp_setReg (s : State) (d : Display) (x : Nibble) (b : Byte) :
    OnlyChanges [.regs, .display] s ((s.setDisp d).setReg x b) := by
  intro p hp
  cases p with
  | regs | display => simp at hp
  | _ => simp [Unchanged]

/-! ### The drawing operation in the statements' terms -/

/-- The coordinate DXYN draws at is the one the statements name, in both orders of DRAW_VF_ORDER (R201). -/
theorem State.toNat_reg_coordSource (s : State) (x : Nibble) : (s.coordSource.reg x).toNat = drawCoord s x := by
  rw [State.reg_coordSource, drawCoord, apply_ite BitVec.toNat]
  rfl

/-- Some set bit of DXYN's sprite lands on (px, py) (R201, R202). -/
def State.spriteLands (s : State) (x y n : Nibble) (px py : Nat) : Prop :=
  SpriteCovers s (drawCoord s x) (drawCoord s y) n.toNat px py

/-- The bytes DXYN reads, row by row, are those at I, I + 1, ... (R201). -/
theorem State.spriteHits_sprite (s : State) (x y n : Nibble) (px py : Nat) :
    spriteHits s.params (s.sprite n) (drawCoord s x) (drawCoord s y) px py ↔ s.spriteLands x y n px py := by
  simp [spriteHits, rowHits, State.spriteLands, SpriteCovers, State.sprite, State.ea]

/-- On a grid that no sprite meets twice, drawing inverts the pixels the sprite lands on (R201 to R203). -/
theorem State.drawing_done {s : State} (x y : Nibble) {n : Nibble} (shaped : s.shaped = true)
    (wide : 8 ≤ s.params.dispW) (high : n.toNat ≤ s.params.dispH) :
    DoneBy s.params ⟨s.disp, false⟩ (s.drawing x y n) (s.spriteLands x y n) := by
  obtain ⟨-, -, -, grid⟩ := State.shaped_iff.1 shaped
  have length : (s.sprite n).length = n.toNat := by simp [State.sprite]
  rw [State.drawing, State.toNat_reg_coordSource, State.toNat_reg_coordSource]
  exact (Canvas.drawRows_done (s.sprite n) grid wide _ _ (length ▸ high)).congr (s.spriteHits_sprite x y n)

/-! ### One draw -/

/-- The state `t` is `s` with DXYN's sprite drawn: the pixels it lands on are inverted, and VF tells whether one of
them was set (R201 to R203). -/
structure DrawsSprite (x y n : Nibble) (s t : State) : Prop where
  pixels : ∀ px py, t.pixel px py = true ↔
    (s.spriteLands x y n px py ∧ s.pixel px py = false) ∨ (¬s.spriteLands x y n px py ∧ s.pixel px py = true)
  collided : (∃ px py, s.spriteLands x y n px py ∧ s.pixel px py = true) → t.reg vf = 1
  missed : (∀ px py, s.spriteLands x y n px py → s.pixel px py = false) → t.reg vf = 0
  others : ∀ r, r ≠ vf → t.reg r = s.reg r
  frame : OnlyChanges [.regs, .display] s t

theorem exec_drw_drawsSprite {s : State} (x y : Nibble) {n : Nibble} (shaped : s.shaped = true)
    (wide : 8 ≤ s.params.dispW) (high : n.toNat ≤ s.params.dispH)
    (rows : ∀ r, r < n.toNat → s.i.toNat + r < s.params.memSize) :
    ∃ t, exec (.drw x y n) s = .next t ∧ DrawsSprite x y n s t := by
  have done := s.drawing_done x y shaped wide high
  have hit : (s.drawing x y n).hit = true ↔ ∃ px py, s.spriteLands x y n px py ∧ s.pixel px py = true :=
    done.hit.trans (or_iff_right Bool.false_ne_true)
  refine ⟨_, exec_drw_in x y (inMemory_iff.2 rows), done.pixels, fun collision => ?_, fun clear => ?_,
    fun r => State.reg_setReg_of_ne _ _, s.onlyChanges_setDisp_setReg _ _ _⟩
  · rw [State.reg_setReg_self, if_pos (hit.2 collision)]
  · have noHit : ¬(s.drawing x y n).hit = true := by
      intro collision
      obtain ⟨px, py, lands, set⟩ := hit.1 collision
      exact Bool.false_ne_true ((clear px py lands).symm.trans set)
    rw [State.reg_setReg_self, if_neg noHit]

/-! ### A second draw -/

/-- A draw writes no register that gives DXYN a coordinate, unless READ_FIRST reads one in VF (R201). -/
theorem DrawsSprite.drawCoord_eq {x y n z : Nibble} {s t : State} (d : DrawsSprite x y n s t)
    (kept : s.params.drawVfOrder = .clearFirst ∨ z ≠ vf) : drawCoord t z = drawCoord s z := by
  have params : t.params = s.params := d.frame .params (by decide)
  rw [drawCoord, drawCoord, params]
  by_cases isVf : z = vf
  · have order := kept.resolve_right (not_not_intro isVf)
    rw [if_pos ⟨isVf, order⟩, if_pos ⟨isVf, order⟩]
  · rw [d.others z isVf]

/-- After a draw the same sprite lands on the same pixels. -/
theorem DrawsSprite.spriteLands_eq {x y n : Nibble} {s t : State} (d : DrawsSprite x y n s t)
    (kept : s.params.drawVfOrder = .clearFirst ∨ (x ≠ vf ∧ y ≠ vf)) :
    t.spriteLands x y n = s.spriteLands x y n := by
  have params : t.params = s.params := d.frame .params (by decide)
  have index : t.i = s.i := d.frame .index (by decide)
  have memory : ∀ a, t.readMem a = s.readMem a := d.frame .memory (by decide)
  funext px py
  simp only [State.spriteLands, SpriteCovers, d.drawCoord_eq (kept.imp_right And.left),
    d.drawCoord_eq (kept.imp_right And.right), params, index, memory]

/-- Inverting the same pixels twice puts each of them back (R203). -/
theorem DrawsSprite.pixel_twice {x y n : Nibble} {s t u : State} (first : DrawsSprite x y n s t)
    (second : DrawsSprite x y n t u) (same : t.spriteLands x y n = s.spriteLands x y n) (px py : Nat) :
    u.pixel px py = s.pixel px py := by
  rw [Bool.eq_iff_iff, second.pixels, same]
  simp only [← Bool.not_eq_true, first.pixels]
  by_cases lands : s.spriteLands x y n px py
  · simp [lands]
  · simp [lands]

end Sys2Proof.Machine
end

section
/-!
The obligations of the display family.
-/

namespace Sys2Proof.Proofs

open Sys2Proof.Machine Sys2Proof.Config Sys2Proof.Safety

/-- Settles O33: one draw in the statement's terms, and the fault of the check that comes before it. -/
theorem drawSpriteXorsAndSetsTheCollisionFlag : Obligations.DrawSpriteXorsAndSetsTheCollisionFlag := by
  unfold Obligations.DrawSpriteXorsAndSetsTheCollisionFlag
  refine ⟨fun x y n => decodeWord_encode (.drw x y n), fun s x y n shaped wide high rows => ?_,
    fun s x y n r row out => ?_⟩
  · obtain ⟨t, run, d⟩ := exec_drw_drawsSprite x y shaped wide high rows
    exact ⟨t, run, d.pixels, d.collided, d.missed, d.others, d.frame⟩
  · have outside : ¬inMemory s.params (s.ea 0) n.toNat = true :=
      fun inside => Nat.not_lt.2 out (inMemory_iff.1 inside r row)
    exact ⟨_, exec_drw_fault x y outside, rfl, rfl, s.onlyChanges_raiseInstr _ _⟩

/-- Settles O34: the first draw moves neither the sprite nor its place, so the second inverts the same pixels; on a
clear grid the first sets them, and the second meets them set. -/
theorem drawingTwiceRestoresTheGrid : Obligations.DrawingTwiceRestoresTheGrid := by
  unfold Obligations.DrawingTwiceRestoresTheGrid
  intro s x y n shaped wide high kept rows
  obtain ⟨t, runS, first⟩ := exec_drw_drawsSprite x y shaped wide high rows
  have shapedT := exec_shaped shaped runS
  have params : t.params = s.params := first.frame .params (by decide)
  have index : t.i = s.i := first.frame .index (by decide)
  obtain ⟨u, runT, second⟩ := exec_drw_drawsSprite (s := t) x y shapedT (params ▸ wide) (params ▸ high)
    (by rwa [index, params])
  have same := first.spriteLands_eq kept
  refine ⟨t, u, runS, runT, ?_, fun clear ⟨px, py, lands⟩ => ⟨first.missed fun px py _ => clear px py,
    second.collided ⟨px, py, ?_, (first.pixels px py).2 (.inl ⟨lands, clear px py⟩)⟩⟩⟩
  · obtain ⟨-, -, -, gridS⟩ := State.shaped_iff.1 shaped
    obtain ⟨-, -, -, gridU⟩ := State.shaped_iff.1 (exec_shaped shapedT runT)
    have paramsU : u.params = s.params := (second.frame .params (by decide)).trans params
    exact Display.ext (paramsU ▸ gridU) gridS (first.pixel_twice second same)
  · rw [same]
    exact lands

/-- Settles O32: the new grid is the blank one, and nothing else is written. -/
theorem clearDisplayClearsEveryPixel : Obligations.ClearDisplayClearsEveryPixel := by
  unfold Obligations.ClearDisplayClearsEveryPixel
  exact ⟨decodeWord_encode .cls, fun s => ⟨_, rfl, Display.get_blank, s.onlyChanges_setDisp _⟩⟩

end Sys2Proof.Proofs
end

section
/-!
PROOFS of the keypad and timers family (spec 44_keypad_timers.md): what a key scan, a key skip and a BoundsFault leave
in the state, and the frames of the single writes of DT, ST and `run`.
-/

namespace Sys2Proof.Machine

open Sys2Proof.Config Sys2Proof.Safety

/-! ### Frames -/

theorem State.onlyChanges_setDt (s : State) (b : Byte) : OnlyChanges [.delay] s (s.setDt b) := by
  intro p hp
  cases p with
  | delay => simp at hp
  | _ => simp [Unchanged]

theorem State.onlyChanges_setSt (s : State) (b : Byte) : OnlyChanges [.sound] s (s.setSt b) := by
  intro p hp
  cases p with
  | sound => simp at hp
  | _ => simp [Unchanged]

theorem State.onlyChanges_setRun (s : State) (r : Run) : OnlyChanges [.run] s (s.setRun r) := by
  intro p hp
  cases p with
  | run => simp at hp
  | _ => simp [Unchanged]

/-- What a key scan that finds a key writes (R232). -/
theorem State.onlyChanges_setReg_setRun (s : State) (x : Nibble) (b : Byte) (r : Run) :
    OnlyChanges [.regs, .run] s ((s.setReg x b).setRun r) := by
  intro p hp
  cases p with
  | regs | run => simp at hp
  | _ => simp [Unchanged]

/-! ### A key's index as a byte -/

/-- A key's index as a byte is zero-extended (R232). -/
theorem setWidth_key (k : Nibble) : k.setWidth 8 = 0x0#4 ++ k := BitVec.setWidth_eq_append (by decide)

/-- A register that holds an index at most 0xF names that key (R220). -/
theorem State.keyIndex_of_reg_eq {s : State} {x k : Nibble} (h : s.reg x = 0x0#4 ++ k) :
    s.keyIndex x = some k := by
  have small := k.isLt
  rw [State.keyIndex_eq_some, h, ← setWidth_key, BitVec.toNat_setWidth_of_le (by decide)]
  exact ⟨by omega, by simp⟩

/-! ### The key scan -/

/-- With every key up a scan does nothing (R232). -/
theorem State.keyScan_of_up {s : State} (x : Nibble) (up : ∀ k, s.keyDown k = false) : s.keyScan x = s := by
  simp only [State.keyScan, State.firstKey_eq_none up]

/-- With `k` the lowest pressed key a scan writes its index and ends the wait (R232). -/
theorem State.keyScan_of_lowest {s : State} (x : Nibble) {k : Nibble} (down : s.keyDown k = true)
    (low : ∀ j, j < k → s.keyDown j = false) :
    s.keyScan x = (s.setReg x (0x0#4 ++ k)).setRun .running := by
  simp only [State.keyScan, State.firstKey_eq_some down low, setWidth_key]

/-- A CYCLE of a wait with every key up changes nothing (R232). -/
theorem cycle_waiting {s : State} {x : Nibble} (wait : s.run = .awaitingKey x)
    (up : ∀ k, s.keyDown k = false) : cycle s = .next s := by
  rw [cycle_awaiting wait, State.keyScan_of_up x up]

/-- An event that changes nothing, any number of times (R112). -/
theorem runEvents_replicate {e : Event} {s : State} (same : applyEvent e s = .next s) (n : Nat) :
    runEvents (List.replicate n e) s = .next s := by
  induction n with
  | zero => rfl
  | succ n ih => rw [List.replicate_succ, runEvents_cons same, ih]

/-! ### Key skips -/

theorem State.pc_skipIf_not (s : State) (c : Bool) :
    (s.skipIf !c).pc = if c = true then s.pc else s.pc + 2 := by
  cases c <;> rfl

/-- An instruction that raises its BoundsFault (R221, R284). -/
theorem raises_boundsFault {i : Instr} {s : State} {k : BoundsKind} (h : exec i s = .next (s.raiseInstr k i)) :
    ∃ t, exec i s = .next t ∧ t.run = .faulted ⟨k, s.pc - 2, some (encode i)⟩ ∧
      t.diag = s.diag ++ [⟨.bounds k, s.pc - 2, some (encode i)⟩] ∧ OnlyChanges [.run, .diagnostics] s t :=
  ⟨_, h, s.raiseInstr_run k i, s.raiseInstr_diag k i, s.onlyChanges_raiseInstr k i⟩

/-! ### The SOUND port -/

/-- The SOUND port tells whether ST is not zero (R45). -/
theorem State.sound_iff (s : State) : s.sound = true ↔ s.st ≠ 0 := bne_iff_ne

end Sys2Proof.Machine
end

section
/-!
The obligations of the keypad and timers family.
-/

namespace Sys2Proof.Proofs

open Sys2Proof.Machine

/-- Settles O10: the scan's two branches; the lowest pressed key is the first one that it finds. -/
theorem keyScanTakesTheLowestPressedKey : Obligations.KeyScanTakesTheLowestPressedKey := by
  unfold Obligations.KeyScanTakesTheLowestPressedKey
  refine ⟨fun s x => cycle_waiting, fun s x k wait down low => ?_⟩
  have scan := (cycle_awaiting wait).trans (congrArg _ (State.keyScan_of_lowest x down low))
  exact ⟨_, scan, s.reg_setReg_self x _, fun _ => s.reg_setReg_of_ne _, rfl, s.onlyChanges_setReg_setRun x _ _⟩

/-- Settles O11: by induction on the number of CYCLEs, each of which leaves the state as it is. -/
theorem keyWaitHoldsUntilAKey : Obligations.KeyWaitHoldsUntilAKey := by
  unfold Obligations.KeyWaitHoldsUntilAKey
  exact fun n s x wait up => runEvents_replicate (e := .cycle) (cycle_waiting wait up) n

/-- Settles O35: the register names a key, whose level the skip tests, or it names none, and the skip faults. -/
theorem keySkipsTestTheKeyOrFault : Obligations.KeySkipsTestTheKeyOrFault := by
  unfold Obligations.KeySkipsTestTheKeyOrFault
  refine ⟨fun x => ⟨decodeWord_encode (.skp x), decodeWord_encode (.sknp x)⟩, fun s x k holds => ?_,
    fun s x out => ?_⟩
  · have names := State.keyIndex_of_reg_eq holds
    exact ⟨⟨_, exec_skp_key names, s.pc_skipIf _, s.onlyChanges_skipIf _⟩,
      ⟨_, exec_sknp_key names, s.pc_skipIf_not _, s.onlyChanges_skipIf _⟩⟩
  · have noKey := State.keyIndex_eq_none.2 out
    exact ⟨raises_boundsFault (exec_skp_fault noKey), raises_boundsFault (exec_sknp_fault noKey)⟩

/-- Settles O36: each of the three is one write; the SOUND port looks at the ST just written. -/
theorem timerInstructionsMoveOneByte : Obligations.TimerInstructionsMoveOneByte := by
  unfold Obligations.TimerInstructionsMoveOneByte
  exact ⟨fun x => ⟨decodeWord_encode (.ldVxDt x), decodeWord_encode (.ldDtVx x), decodeWord_encode (.ldStVx x)⟩,
    fun s x => ⟨writes_one_register rfl, ⟨_, rfl, rfl, s.onlyChanges_setDt _⟩,
      ⟨_, rfl, rfl, State.sound_iff _, s.onlyChanges_setSt _⟩⟩⟩

/-- Settles O37: one write, of `run`. -/
theorem waitForKeyEntersTheWait : Obligations.WaitForKeyEntersTheWait := by
  unfold Obligations.WaitForKeyEntersTheWait
  exact ⟨fun x => decodeWord_encode (.ldVxK x), fun s x => ⟨_, rfl, rfl, s.onlyChanges_setRun _⟩⟩

end Sys2Proof.Proofs
end

section
/-!
PROOFS of the index and memory family (spec 45_index_memory.md): the address of a glyph, the bytes inside and outside a
stored run, the decimal digits, and what a block transfer leaves in I and elsewhere.
-/

namespace Sys2Proof.Machine

open Sys2Proof.Config Sys2Proof.Safety

/-! ### Frames -/

/-- A change of some parts, then of others, is a change of both lists of parts. -/
theorem onlyChanges_append {ps qs : List Part} {s t u : State} (h₁ : OnlyChanges ps s t) (h₂ : OnlyChanges qs t u) :
    OnlyChanges (ps ++ qs) s u :=
  fun p hp => unchanged_trans (h₁ p fun hps => hp (List.mem_append_left _ hps))
    (h₂ p fun hqs => hp (List.mem_append_right _ hqs))

theorem State.onlyChanges_setI (s : State) (w : Word) : OnlyChanges [.index] s (s.setI w) := by
  intro p hp
  cases p with
  | index => simp at hp
  | _ => simp [Unchanged]

theorem State.onlyChanges_writeBytes (s : State) (a : Nat) (bs : List Byte) :
    OnlyChanges [.memory] s (s.writeBytes a bs) := by
  rw [State.writeBytes_frame]
  intro p hp
  cases p with
  | memory => simp at hp
  | regs | keypad => exact fun _ => rfl
  | display => exact fun _ _ => rfl
  | stack | scheduler | events => exact ⟨rfl, rfl⟩
  | _ => rfl

theorem State.onlyChanges_loadBlock (s : State) (a n : Nat) : OnlyChanges [.regs] s (s.loadBlock a n) := by
  rw [State.loadBlock_frame]
  exact s.onlyChanges_regs _

/-- The end of a block transfer writes I or nothing (R254, R255). -/
theorem State.onlyChanges_blockEnd (s : State) (x : Nibble) : OnlyChanges [.index] s (s.blockEnd x) := by
  rw [State.blockEnd_eq]
  exact s.onlyChanges_setI _

/-! ### The index register -/

/-- A sum with a zero-extended byte wraps at 2^16 (R251). -/
theorem toNat_add_zext16_byte (w : Word) (b : Byte) : (w + zext16 b).toNat = (w.toNat + b.toNat) % 65536 := by
  rw [BitVec.toNat_add, toNat_zext16 (by decide)]

/-- The mask of FX29 keeps the low nibble (R252). -/
theorem toNat_and_low_nibble (b : Byte) : (b &&& 0x0F).toNat = b.toNat % 16 := by
  rw [BitVec.toNat_and]
  exact Nat.and_two_pow_sub_one_eq_mod _ 4

theorem toNat_glyphAddr (p : Params) (b : Byte) :
    (glyphAddr p b).toNat = (p.fontBase + p.glyphBytes * (b.toNat % 16)) % 65536 := by
  rw [glyphAddr, toNat_and_low_nibble, BitVec.toNat_ofNat]

/-- R7's constraints put the font in the reserved region, so no glyph's address wraps (R252). -/
theorem glyph_lt_of_lawful {p : Params} (lawful : p.lawful = true) (b : Byte) :
    p.fontBase + p.glyphBytes * (b.toNat % 16) < 65536 := by
  obtain ⟨size, font, reserved, load, -⟩ := Params.lawful_iff.1 lawful
  have glyph : p.glyphBytes * (b.toNat % 16) ≤ p.glyphBytes * 15 := Nat.mul_le_mul_left _ (by omega)
  omega

/-- X + 1 does not wrap, and its sum with I wraps at 2^16 (R254, R255). -/
theorem toNat_add_zext16_succ (w : Word) (x : Nibble) :
    (w + (zext16 x + 1)).toNat = (w.toNat + (x.toNat + 1)) % 65536 := by
  have hx := x.isLt
  have succ : (zext16 x + 1).toNat = x.toNat + 1 := by
    rw [BitVec.toNat_add, toNat_zext16 (by decide)]
    exact Nat.mod_eq_of_lt (show x.toNat + 1 < 2 ^ 16 by omega)
  rw [BitVec.toNat_add, succ]

/-- What a block transfer leaves in I, in the terms of the state before it, when what it has transferred has moved
neither I nor the parameters (R254, R255). -/
theorem State.i_blockEnd {s t : State} (index : t.i = s.i) (params : t.params = s.params) (x : Nibble) :
    (s.params.blockIMode = .unchanged → (t.blockEnd x).i = s.i) ∧
      (s.params.blockIMode = .advanceXPlus1 → (t.blockEnd x).i.toNat = (s.i.toNat + (x.toNat + 1)) % 65536) := by
  rw [State.blockEnd_eq, params, index]
  refine ⟨fun still => if_neg (by simp [still]), fun moves => ?_⟩
  rw [if_pos moves, toNat_add_zext16_succ]

/-! ### Stores -/

/-- A store that does not fault passes its check (R51, R56). -/
theorem storeAllowed_of_not_storeFaults {s : State} {n : Nat} (ok : ¬StoreFaults s (n + 1)) :
    storeAllowed s.params (s.ea 0) (n + 1) = true :=
  Decidable.not_not.1 (storeFaults_iff.not.1 ok)

section WriteBytes

variable {s : State} {a : Nat} {bs : List Byte}

/-- The byte at an address of the run. -/
theorem State.readMem_writeBytes_inside (h : Memory.wf s.params s.mem = true)
    (fit : a + bs.length ≤ s.params.memSize) {k : Nat} (lt : k < bs.length) :
    (s.writeBytes a bs).readMem (a + k) = bs[k] := by
  rw [State.readMem_writeBytes h a bs fit, dif_pos ⟨Nat.le_add_right a k, Nat.add_lt_add_left lt a⟩]
  simp only [Nat.add_sub_cancel_left]

/-- Every other byte. -/
theorem State.readMem_writeBytes_outside (h : Memory.wf s.params s.mem = true)
    (fit : a + bs.length ≤ s.params.memSize) {b : Nat} (out : ¬(a ≤ b ∧ b < a + bs.length)) :
    (s.writeBytes a bs).readMem b = s.readMem b :=
  (State.readMem_writeBytes h a bs fit b).trans (dif_neg out)

end WriteBytes

/-- The three digits are decimal digits, so a byte holds each of them whole (R253). -/
theorem toNat_bcdDigits (b : Byte) :
    (bcdDigits b).map BitVec.toNat = [b.toNat / 100, b.toNat / 10 % 10, b.toNat % 10] := by
  have hb := b.isLt
  have hundreds : b.toNat / 100 < 2 ^ 8 := by omega
  have tens : b.toNat / 10 % 10 < 2 ^ 8 := by omega
  have ones : b.toNat % 10 < 2 ^ 8 := by omega
  simp only [bcdDigits, List.map_cons, List.map_nil, BitVec.toNat_ofNat, Nat.mod_eq_of_lt hundreds,
    Nat.mod_eq_of_lt tens, Nat.mod_eq_of_lt ones]

/-- What FX33 leaves at I + k is digit k (R253). -/
theorem State.toNat_readMem_writeBytes_bcd {s : State} {a : Nat} {b : Byte} (h : Memory.wf s.params s.mem = true)
    (fit : a + (bcdDigits b).length ≤ s.params.memSize) {k : Nat} (lt : k < 3) :
    ((s.writeBytes a (bcdDigits b)).readMem (a + k)).toNat =
      [b.toNat / 100, b.toNat / 10 % 10, b.toNat % 10][k] := by
  have mapped : k < ((bcdDigits b).map BitVec.toNat).length := lt
  rw [State.readMem_writeBytes_inside h fit lt]
  exact (List.getElem_map _).symm.trans (List.getElem_of_eq (toNat_bcdDigits b) mapped)

/-! ### Block loads -/

/-- A block load of V[0] to V[X] puts the byte at `a + k` in register k for k up to X, and leaves the other registers
as they were (R255). -/
theorem State.reg_loadBlock_succ (s : State) (a : Nat) (x k : Nibble) :
    (s.loadBlock a (x.toNat + 1)).reg k = if k ≤ x then s.readMem (a + k.toNat) else s.reg k := by
  simp only [State.reg_loadBlock s a _ x.isLt, Nat.lt_succ_iff, BitVec.le_def]

end Sys2Proof.Machine
end

section
/-!
The obligations of the index and memory family.
-/

namespace Sys2Proof.Proofs

open Sys2Proof.Machine Sys2Proof.Config Sys2Proof.Safety

/-- Settles O38: each of the three is one write of I; for admitted parameters the glyph's address is below 2^16. -/
theorem indexInstructionsWriteI : Obligations.IndexInstructionsWriteI := by
  unfold Obligations.IndexInstructionsWriteI
  refine ⟨fun x nnn => ⟨decodeWord_encode (.ldI nnn), decodeWord_encode (.addIVx x), decodeWord_encode (.ldFVx x)⟩,
    fun s x nnn => ⟨?_, ?_, ?_⟩⟩
  · exact ⟨_, rfl, toNat_zext16 (by decide) nnn, s.onlyChanges_setI _⟩
  · exact ⟨_, rfl, toNat_add_zext16_byte s.i (s.reg x), s.onlyChanges_setI _⟩
  · have glyph := toNat_glyphAddr s.params (s.reg x)
    exact ⟨_, rfl, glyph, fun lawful => glyph.trans (Nat.mod_eq_of_lt (glyph_lt_of_lawful lawful (s.reg x))),
      s.onlyChanges_setI _⟩

/-- Settles O39: the check's two branches; the three bytes written are the digits, read back one by one. -/
theorem storeBcdWritesThreeDigits : Obligations.StoreBcdWritesThreeDigits := by
  unfold Obligations.StoreBcdWritesThreeDigits
  refine ⟨fun x => decodeWord_encode (.ldBVx x), fun s x canonical ok => ?_,
    fun s x faults => raises_boundsFault (exec_ldBVx_fault x (storeFaults_iff.1 faults))⟩
  have fit : s.i.toNat + (bcdDigits (s.reg x)).length ≤ s.params.memSize := lt_memSize_of_not_storeFaults ok
  have digit {k : Nat} (lt : k < 3) := State.toNat_readMem_writeBytes_bcd canonical fit lt
  refine ⟨_, exec_ldBVx_in x (storeAllowed_of_not_storeFaults ok), digit (k := 0) (by decide),
    digit (k := 1) (by decide), digit (k := 2) (by decide), fun a out => ?_, s.onlyChanges_writeBytes _ _⟩
  have outside : ¬(s.i.toNat ≤ a ∧ a < s.i.toNat + (bcdDigits (s.reg x)).length) := by
    rw [bcdDigits_length]; omega
  exact State.readMem_writeBytes_outside canonical fit outside

/-- Settles O40: the check's two branches; the bytes written are the registers, and the end of the transfer moves I
alone. -/
theorem blockStoreWritesRegistersUpToX : Obligations.BlockStoreWritesRegistersUpToX := by
  unfold Obligations.BlockStoreWritesRegistersUpToX
  refine ⟨fun x => decodeWord_encode (.storeRegs x), fun s x canonical ok => ?_,
    fun s x faults => raises_boundsFault (exec_storeRegs_fault (storeFaults_iff.1 faults))⟩
  have inside := lt_memSize_of_not_storeFaults ok
  have stored := s.onlyChanges_writeBytes (s.ea 0) (s.regBlock x)
  obtain ⟨still, moves⟩ := State.i_blockEnd (stored .index (by decide)) (stored .params (by decide)) x
  refine ⟨_, exec_storeRegs_in (storeAllowed_of_not_storeFaults ok), fun k le => ?_, fun a out => ?_, still, moves,
    onlyChanges_append stored (State.onlyChanges_blockEnd _ x)⟩
  · rw [State.readMem_blockEnd]
    exact State.readMem_writeBytes_regBlock canonical inside le
  · have fit : s.i.toNat + (s.regBlock x).length ≤ s.params.memSize := by rwa [State.regBlock_length]
    have outside : ¬(s.i.toNat ≤ a ∧ a < s.i.toNat + (s.regBlock x).length) := by
      rw [State.regBlock_length]; omega
    rw [State.readMem_blockEnd]
    exact State.readMem_writeBytes_outside canonical fit outside

/-- Settles O41: the check's two branches; the registers loaded are those up to X, and the end of the transfer moves I
alone. -/
theorem blockLoadReadsRegistersUpToX : Obligations.BlockLoadReadsRegistersUpToX := by
  unfold Obligations.BlockLoadReadsRegistersUpToX
  refine ⟨fun x => decodeWord_encode (.loadRegs x), fun s x inside => ?_, fun s x out => ?_⟩
  · have loaded := s.onlyChanges_loadBlock (s.ea 0) (x.toNat + 1)
    obtain ⟨still, moves⟩ := State.i_blockEnd (loaded .index (by decide)) (loaded .params (by decide)) x
    refine ⟨_, exec_loadRegs_in (inMemory_succ.2 inside), fun k le => ?_, fun k gt => ?_, still, moves,
      onlyChanges_append loaded (State.onlyChanges_blockEnd _ x)⟩
    · rw [State.reg_blockEnd, State.reg_loadBlock_succ, if_pos le]
      rfl
    · rw [State.reg_blockEnd, State.reg_loadBlock_succ, if_neg gt]
  · have outside : ¬inMemory s.params (s.ea 0) (x.toNat + 1) = true :=
      fun fits => Nat.not_lt.2 out (inMemory_succ.1 fits)
    exact raises_boundsFault (exec_loadRegs_fault outside)

end Sys2Proof.Proofs
end

section
/-!
PROOFS of the exceptions family: what the events may write in a Faulted core (spec 60_exceptions.md R285).
-/

namespace Sys2Proof.Machine

open Sys2Proof.Config Sys2Proof.Safety

/-- A frame may list more parts than change. -/
theorem onlyChanges_mono {ps qs : List Part} {s t : State} (sub : ps ⊆ qs) (h : OnlyChanges ps s t) :
    OnlyChanges qs s t :=
  fun p hp => h p fun hps => hp (sub hps)

theorem State.onlyChanges_withInputs (s : State) (es : List Event) (src : Source) :
    OnlyChanges [.events] s (s.withInputs es src) := by
  intro p hp
  cases p with
  | events => simp at hp
  | regs | memory | keypad => exact fun _ => rfl
  | display => exact fun _ _ => rfl
  | stack | scheduler => exact ⟨rfl, rfl⟩
  | _ => rfl

/-- In Faulted a CYCLE does nothing, and each of the other events writes its own parts alone: the timers, the keypad,
or the scheduler's references and the events to come (R101, R114, R285). -/
theorem onlyChanges_applyEvent_of_faulted {e : Event} {s t : State} {info : FaultInfo} (f : s.run = .faulted info)
    (h : applyEvent e s = .next t) : OnlyChanges [.delay, .sound, .keypad, .scheduler, .events] s t := by
  cases e with
  | cycle => cases (cycle_faulted f).symm.trans h; exact onlyChanges_refl _ s
  | tick => cases h; exact onlyChanges_mono (by simp) s.onlyChanges_tick
  | keySet k b => cases h; exact onlyChanges_mono (by simp) (s.onlyChanges_setKey k b)
  | pass now => cases h; exact onlyChanges_mono (by simp) (s.onlyChanges_schedulerPass now)

end Sys2Proof.Machine
end

section
/-!
The obligations of the exceptions family.
-/

namespace Sys2Proof.Proofs

open Sys2Proof.Machine Sys2Proof.Config Sys2Proof.Safety

/-- Settles O51: taking the next event writes the inputs to come, and in Faulted no event writes more than the parts
listed. -/
theorem faultedIsTerminal : Obligations.FaultedIsTerminal := by
  unfold Obligations.FaultedIsTerminal
  intro s t info faulted next
  obtain ⟨es, src, taken⟩ := s.nextEvent_snd
  have applied : applyEvent s.nextEvent.1 (s.withInputs es src) = .next t := taken ▸ next
  have event := onlyChanges_applyEvent_of_faulted (s := s.withInputs es src) faulted applied
  exact onlyChanges_trans (onlyChanges_mono (by simp) (s.onlyChanges_withInputs es src)) event

end Sys2Proof.Proofs
end

section
/-!
PROOFS of the reset family: every element of the machine that construction answers (spec 70_reset_and_hazards.md
R310, R311, R313).
-/

namespace Sys2Proof.Machine

open Sys2Proof.Config

/-! ### The machine before its image -/

section Initial

variable (p : Params)

theorem State.reg_initial (x : Nibble) : (State.initial p).reg x = 0 :=
  Vector.getElem_replicate x.isLt

theorem State.stackAt_initial (k : Nat) : (State.initial p).stackAt k = 0 :=
  (List.getD_eq_getElem?_getD ..).trans (List.getElem?_getD_replicate_default_eq 0 p.stackDepth k)

theorem State.pixel_initial (x y : Nat) : (State.initial p).pixel x y = false :=
  Display.get_blank x y

theorem State.keyDown_initial (k : Nibble) : (State.initial p).keyDown k = false :=
  Vector.getElem_replicate k.isLt

end Initial

/-- LOAD_ADDR is below MEM_SIZE, so pc holds it whole (R7, R313). -/
theorem State.toNat_pc_initial {p : Params} (lawful : p.lawful = true) :
    (State.initial p).pc.toNat = p.loadAddr := by
  obtain ⟨size, -, -, load, -⟩ := Params.lawful_iff.1 lawful
  exact (BitVec.toNat_ofNat ..).trans (Nat.mod_eq_of_lt (by omega))

/-- The font ends by RESERVED_HI, which is below LOAD_ADDR (R7). -/
theorem Params.fontEnd_le_loadAddr {p : Params} (lawful : p.lawful = true) :
    p.fontBase + 16 * p.glyphBytes ≤ p.loadAddr := by
  obtain ⟨-, font, reserved, -, -⟩ := Params.lawful_iff.1 lawful
  omega

/-! ### The machine that construction answers, element by element -/

/-- An image that fits is constructed (R311). -/
theorem exists_construct_eq_next {img : List Byte} {p : Params} (lawful : p.lawful = true)
    (fits : img.length ≤ p.memSize - p.loadAddr) (now : Nat) : ∃ t, construct now img p = .next t :=
  ⟨_, by rw [construct_eq, if_pos lawful, if_pos fits]⟩

section Constructed

variable {now : Nat} {img : List Byte} {p : Params} {t : State}

/-- Construction adds to the zeroed machine the image in memory and the scheduler's references, nothing else (R310). -/
theorem construct_frame (h : construct now img p = .next t) :
    ∃ mem, t = { State.initial p with mem := mem, tInstr := now, tTimer := now } := by
  obtain ⟨-, -, rfl⟩ := construct_eq_next h
  exact ⟨_, by rw [State.writeBytes_frame]⟩

/-- The image stands from LOAD_ADDR up (R311, R313). -/
theorem construct_readMem_image (h : construct now img p = .next t) {k : Nat} (lt : k < img.length) :
    t.readMem (p.loadAddr + k) = img[k] := by
  obtain ⟨-, fit, rfl⟩ := construct_eq_next h
  exact State.readMem_writeBytes_inside (s := State.initial p) rfl fit lt

/-- Outside the image memory is as it was before it: the font or zero (R35, R313). -/
theorem construct_readMem_outside (h : construct now img p = .next t) {a : Nat}
    (out : ¬(p.loadAddr ≤ a ∧ a < p.loadAddr + img.length)) :
    t.readMem a = (State.initial p).readMem a := by
  obtain ⟨-, fit, rfl⟩ := construct_eq_next h
  exact State.readMem_writeBytes_outside (s := State.initial p) rfl fit out

/-- FONT_DATA stands from FONT_BASE up: it ends before the image begins (R55, R313). -/
theorem construct_readMem_font (h : construct now img p = .next t) {k : Nat} (lt : k < p.fontData.length) :
    t.readMem (p.fontBase + k) = p.fontData[k] := by
  obtain ⟨lawful, -, -⟩ := construct_eq_next h
  have below := Params.fontEnd_le_loadAddr lawful
  obtain ⟨-, -, -, -, size⟩ := Params.lawful_iff.1 lawful
  rw [construct_readMem_outside h (by omega), State.readMem_initial, if_pos (Nat.le_add_right ..),
    Nat.add_sub_cancel_left, List.getD_eq_getElem _ _ lt]

/-- Every byte of neither the font nor the image is zero (R313). -/
theorem construct_readMem_rest (h : construct now img p = .next t) {a : Nat}
    (font : ¬(p.fontBase ≤ a ∧ a < p.fontBase + 16 * p.glyphBytes))
    (image : ¬(p.loadAddr ≤ a ∧ a < p.loadAddr + img.length)) : t.readMem a = 0 := by
  obtain ⟨lawful, -, -⟩ := construct_eq_next h
  obtain ⟨-, -, -, -, size⟩ := Params.lawful_iff.1 lawful
  rw [construct_readMem_outside h image, State.readMem_initial]
  split
  · next above => exact List.getD_eq_default _ _ (by omega)
  · rfl

/-- Memory after the image is zero, since the font lies below it (R311). -/
theorem construct_readMem_after (h : construct now img p = .next t) {a : Nat}
    (after : p.loadAddr + img.length ≤ a) : t.readMem a = 0 := by
  obtain ⟨lawful, -, -⟩ := construct_eq_next h
  have below := Params.fontEnd_le_loadAddr lawful
  exact construct_readMem_rest h (by omega) (by omega)

end Constructed

/-- A longer image is LOAD_ERROR (R311). -/
theorem construct_tooLarge {img : List Byte} {p : Params} (lawful : p.lawful = true)
    (large : p.memSize - p.loadAddr < img.length) (now : Nat) :
    construct now img p = .refused (.loadTooLarge img.length) := by
  rw [construct_eq, if_pos lawful, if_neg (Nat.not_le.2 large)]

end Sys2Proof.Machine
end

section
/-!
The obligations of the reset family.
-/

namespace Sys2Proof.Proofs

open Sys2Proof.Machine Sys2Proof.Config

/-- Settles O18: outside memory and the scheduler's references the machine is the zeroed one, and memory is the font,
the image and zeros. -/
theorem constructionLeavesTheResetState : Obligations.ConstructionLeavesTheResetState := by
  unfold Obligations.ConstructionLeavesTheResetState
  intro now img p lawful fits
  obtain ⟨t, h⟩ := exists_construct_eq_next lawful fits now
  obtain ⟨-, -, -, shaped⟩ := State.shaped_iff.1 (State.shaped_initial p)
  obtain ⟨mem, rfl⟩ := construct_frame h
  exact ⟨_, h, rfl, State.reg_initial p, rfl, State.toNat_pc_initial lawful, List.length_replicate,
    State.stackAt_initial p, rfl, shaped, State.pixel_initial p, State.keyDown_initial p, rfl, rfl, rfl, rfl, rfl,
    fun _ => construct_readMem_font h, fun _ => construct_readMem_image h, fun _ => construct_readMem_rest h⟩

/-- Settles O19: the check decides, and of the machine it lets through the image and the zeros after it are read. -/
theorem loaderRefusesOversizedImages : Obligations.LoaderRefusesOversizedImages := by
  unfold Obligations.LoaderRefusesOversizedImages
  refine ⟨by decide, fun now img p lawful => ⟨fun large => construct_tooLarge lawful large now, fun fits => ?_⟩⟩
  obtain ⟨t, h⟩ := exists_construct_eq_next lawful fits now
  exact ⟨t, h, fun _ => construct_readMem_image h, fun _ => construct_readMem_after h⟩

end Sys2Proof.Proofs
end
